-- ==== Sys2Proof/Word.lean ====
section
/-! DEFINITION. The word types of the block: sink bytes, command and result words (spec/00_scope.md R7, spec/30_encoding.md R70). -/

namespace Sys2Proof

/-- A sink byte (R7: "A byte is 8 bits"). -/
abbrev Byte := BitVec 8

/-- A command word, a literal word, a result word or a status word (R70, R37, R38). -/
abbrev Word := BitVec 32

/-- A bit rate or a flux sample (R30, R73). -/
abbrev Half := BitVec 16

end Sys2Proof
end

