-- ==== Sys2Proof/Config.lean ====
section
/-! DEFINITION. What an implementation of the block fixes: the parameters of spec/00_scope.md R6, their defaults, and the two that no source gives (opaque). -/

namespace Sys2Proof

/-- `LOOP_WINDOW` (R6): the decision window of the loop's zero-emission step (spec/42_decode.md R142, R148). -/
inductive LoopWindow where
  | floor
  | centred
  deriving DecidableEq, Repr

/-- `PHASE_CARRY` (R6): the reading of the proportional-correction step (spec/42_decode.md R145). -/
inductive PhaseCarry where
  | quotient
  | remainder
  deriving DecidableEq, Repr

/-- `TAIL_POLICY` (R6): the treatment of the trailing partial 32-bit word (spec/43_serialize.md R187). -/
inductive TailPolicy where
  | truncate
  | zeroPad
  deriving DecidableEq, Repr

/-- One entry of `PRESET_TABLE` (R6, spec/42_decode.md R149): a name and two signed 32-bit divisors. -/
structure Preset where
  name : String
  integralDiv : Word
  errorDiv : Word
  deriving DecidableEq, Repr

/-- The parameters of R6 that a step reads. R42 makes them inputs of the step relation; the model carries them in
`State.params`, which no step changes (log entry 1). `SINK_FILL`, which no step reads, is `Config.sinkFill`. -/
structure Params where
  /-- `MAX_CAP_BITS`: the largest capacity CREATE accepts. -/
  maxCapBits : Nat
  /-- `W_ACC`: the width in bits of PHASE and PE. -/
  wAcc : Nat
  loopWindow : LoopWindow
  phaseCarry : PhaseCarry
  tailPolicy : TailPolicy
  /-- `PRESET_TABLE`: preset `n` is entry `n`, tag `2 + n`. -/
  presetTable : List Preset
  /-- `HFE_MAGIC`: the 8 signature bytes at sink offset 0x00. -/
  hfeMagic : Vector Byte 8
  /-- `SINK_SIZE`: the number of addressable sink bytes. -/
  sinkSize : Nat
  deriving DecidableEq, Repr

/-- `K_PERIOD` (R6): the numerator of the period derivation, fixed at 36000. -/
def Config.kPeriod : Nat := 36000

/-- `SINK_SIZE`, OPEN in R6: the host's sink has some size, and nothing here says which (log entry 2). -/
opaque Config.sinkSize : Nat

/-- `SINK_FILL`, OPEN in R6: what the sink holds at a byte the block never wrote; nothing here says what (log entry 7). -/
opaque Config.sinkFill : Nat → Byte

/-- The defaults of R6. PRESUMED: the magic bytes are ASCII `HXCPICFE`, which the spec takes from general knowledge
(spec/93_implementation_defined.md K1; log entry 2). -/
def Params.standard : Params where
  maxCapBits := 2 ^ 24
  wAcc := 32
  loopWindow := .floor
  phaseCarry := .quotient
  tailPolicy := .truncate
  presetTable := []
  hfeMagic := #v[0x48, 0x58, 0x43, 0x50, 0x49, 0x43, 0x46, 0x45]
  sinkSize := Config.sinkSize

end Sys2Proof
end

