-- ==== Sys2Proof/Machine/State.lean ====
section
/-! DEFINITION. The state of the block (spec/10_state.md), of its ports and of the sink as the rules describe them, the
stops of the model, and the state after reset. -/

namespace Sys2Proof.Machine

open Sys2Proof

/-- `MODE` (R24). Values 5, 6 and 7 never occur. -/
inductive Mode where
  | idle
  | ready
  | decoding
  | decoded
  | done
  deriving DecidableEq, Repr

/-- The error kinds of spec/60_exceptions.md R210, codes 1 to 6 in this order. -/
inductive ErrKind where
  | configuration
  | capacity
  | io
  | sequence
  | illegalCommand
  | arithmetic
  deriving DecidableEq, Repr

/-- What the host sends: a word on the command port (R245), or one pulse of the reset input (spec/70_reset_and_hazards.md R240). -/
inductive HostInput where
  | word (w : Word)
  | resetPulse
  deriving DecidableEq, Repr

/-- One response (R37, R38, R245). -/
structure Response where
  result : Word
  status : Word
  deriving DecidableEq, Repr

/-- The sink's answer to a byte write (spec/20_memory.md R54): *done*, *failed*, or none for ever (spec/70_reset_and_hazards.md R250). -/
inductive SinkAnswer where
  | acked
  | failed
  | never
  deriving DecidableEq, Repr

/-- One entry of the log of sink writes (R41): the address, the byte, and whether it was acknowledged *done*. -/
structure SinkRecord where
  addr : Nat
  byte : Byte
  acked : Bool
  deriving DecidableEq, Repr

/-- The buffer's set bits as (bit address, bit) pairs; an unlisted address reads 0. -/
abbrev BitMem := List (Nat × Bool)

/-- The sink's written bytes; an unlisted address is unwritten (R41). -/
abbrev SinkMem := List Host.Cell

/-- The machine: the block's registers (spec/10_state.md R22 to R37), the parameters and inputs R42 gives each step, and
the sink (R41). -/
structure State where
  /-- the parameters of spec/00_scope.md R6; no step changes them -/
  params : Params
  /-- what the host has sent and the block has not taken, oldest first (R42, R245) -/
  hostIn : List HostInput
  /-- every response sent, oldest first (R245) -/
  responses : List Response
  /-- `CP`, R22 -/
  cp : Nat
  /-- `PEND`, R23: the first word of a long command whose literal has not arrived -/
  pend : Option Word
  /-- `MODE`, R24 -/
  mode : Mode
  /-- `FAULT`, R25 -/
  fault : Bool
  /-- `ERR`, R25; `none` is code 0 -/
  err : Option ErrKind
  /-- `CAP`, R26 -/
  cap : Word
  /-- `BUF`, R27 -/
  buf : BitMem
  /-- `BC_PROD`, R28 -/
  bcProd : BitVec 64
  /-- `OVF`, R29 -/
  ovf : Bool
  /-- `RATE`, R30 -/
  rate : Half
  /-- `PERIOD`, R30 -/
  period : Word
  /-- `RATE_VALID`, R30 -/
  rateValid : Bool
  /-- `IDIV`, R31, signed -/
  idiv : Word
  /-- `IDIV_VALID`, R31 -/
  idivValid : Bool
  /-- `EDIV`, R31, signed -/
  ediv : Word
  /-- `EDIV_VALID`, R31 -/
  edivValid : Bool
  /-- `STRAT`, R32 -/
  strat : Byte
  /-- `STRAT_VALID`, R32 -/
  stratValid : Bool
  /-- `LIDIV`, R33, signed -/
  lidiv : Word
  /-- `LEDIV`, R33, signed -/
  lediv : Word
  /-- `PHASE`, R34: a `W_ACC`-bit signed register, kept as its value (log entry 12) -/
  phase : Int
  /-- `PE`, R35: a `W_ACC`-bit signed register, kept as its value (log entry 12) -/
  pe : Int
  /-- `RESULT`, R37 -/
  result : Word
  /-- the sink's contents, R41 -/
  sink : SinkMem
  /-- the log of sink writes, oldest first, R41 -/
  sinkLog : List SinkRecord
  /-- the sink's answers to the writes to come, oldest first; past the end it answers *done* (R42, log entry 5) -/
  sinkAnswers : List SinkAnswer
  deriving DecidableEq, Repr

/-- The stops of the model. -/
inductive Fault where
  /-- Raised by SERIALIZE when the sink never acknowledges a write: it waits for ever (R250, U19 "stuck"; log entry 15).
  Safe: the hardware does not go on either. -/
  | sinkNeverAcknowledges
  deriving DecidableEq, Repr

/-- The refusals of the model. -/
inductive Refusal where
  /-- Raised by an arm of `exec` whose instruction has no meaning yet. Safe; no arm raises it. -/
  | notModelled (mnemonic : String)
  deriving DecidableEq, Repr

/-- The state after a hardware reset at power-on (spec/10_state.md R40): the reset values of the block; the default
parameters (log entry 2); nothing sent by the host and no response yet (log entry 3); a sink nothing has written
(log entry 6). -/
def State.reset : State where
  params := Params.standard
  hostIn := []
  responses := []
  cp := 0
  pend := none
  mode := .idle
  fault := false
  err := none
  cap := 0
  buf := []
  bcProd := 0
  ovf := false
  rate := 0
  period := 0
  rateValid := false
  idiv := 0
  idivValid := false
  ediv := 0
  edivValid := false
  strat := 0
  stratValid := false
  lidiv := 0
  lediv := 0
  phase := 0
  pe := 0
  result := 0
  sink := []
  sinkLog := []
  sinkAnswers := []

end Sys2Proof.Machine
end

