-- ==== Sys2Proof/Machine/Operands.lean ====
section
/-! DEFINITION. How operands and register values are read, and the integer arithmetic of the rules: spec/00_scope.md
R8 to R10, spec/30_encoding.md R73 and R77, spec/42_decode.md R147, spec/43_serialize.md R185 and R186. -/

namespace Sys2Proof.Machine

open Sys2Proof

/-- `zext_N` (R8). -/
def zext {n : Nat} (v : BitVec n) : Nat := v.toNat

/-- `sext_N` (R8). -/
def sext {n : Nat} (v : BitVec n) : Int := v.toInt

/-- `lo32` (R8). -/
def lo32 (v : Int) : Word := BitVec.ofInt 32 v

/-- `tdiv` (R9): division truncating toward zero. -/
def tdiv (a b : Int) : Int := Int.tdiv a b

/-- R147: `v` fits a signed register of `w` bits. -/
def fitsSigned (w : Nat) (v : Int) : Bool := decide (-(2 ^ (w - 1)) ≤ v) && decide (v ≤ 2 ^ (w - 1) - 1)

/-- The `n`-bit value whose most significant bit is `f 0`, next bit `f 1`, and so on (spec/20_memory.md R52). -/
def bitsMsbFirst (f : Nat → Bool) : (n : Nat) → BitVec n
  | 0 => 0
  | n + 1 => (bitsMsbFirst f n).concat (f n)

/-- `rev8` (R10): bit `m` of the result is bit `7 - m` of `b`. -/
def rev8 (b : Byte) : Byte := bitsMsbFirst (fun m => b.getLsbD m) 8

/-- R185: byte `j` of a word, most significant first: `w[31-8j : 24-8j]`. -/
def byteOfWord (w : Word) (j : Nat) : Byte := w.extractLsb' (24 - 8 * j) 8

/-- The low byte of a number (R183 `RATE mod 256`, R184 `L[7:0]`). -/
def lowByte (n : Nat) : Byte := BitVec.ofNat 8 n

/-- Bits 15:8 of a number (R184 `L[15:8]`). -/
def highByte (n : Nat) : Byte := BitVec.ofNat 8 (n / 256)

/-- R51: a buffer address reduced by `MASK = CAP - 1`. -/
def maskAddr (cap : Word) (j : Nat) : Nat := j &&& (zext cap - 1)

/-- R103: a capacity that is neither zero nor other than a power of two. -/
def isPowerOfTwo (c : Word) : Bool := c != 0 && (c &&& (c - 1)) == 0

/-- R77: the tag of the generic strategy. -/
def tagNco : Byte := 0x00

/-- R77: the tag of the fixed-window strategy. -/
def tagFw : Byte := 0x01

/-- R77: the preset a tag from 0x02 to 0x7F selects, if `PRESET_TABLE` has that entry. -/
def presetOfTag (p : Params) (tag : Byte) : Option Preset :=
  if 2 ≤ zext tag ∧ zext tag < 0x80 then p.presetTable[zext tag - 2]? else none

/-- R77, R124: the tag names a strategy. -/
def namesStrategy (p : Params) (tag : Byte) : Bool := tag == tagNco || tag == tagFw || (presetOfTag p tag).isSome

/-- R121: the BitcellPeriod of a rate in kbps. -/
def periodOfRate (rate : Half) : Nat := Config.kPeriod / zext rate

/-- R150: the number of bitcells of an interval, `round(dt / P)` with halves up. -/
def windowCells (dt period : Nat) : Nat := (2 * dt + period) / (2 * period)

/-- R186: the sink offset of data word `i`. -/
def wordOffset (i : Nat) : Nat := 0x400 + 512 * (4 * i / 256) + 4 * i % 256

/-- R181: the bytes that hold `bc` bits. -/
def byteCountOf (bc : Nat) : Nat := (bc + 7) / 8

/-- R181: the 32-bit words serialized, by `TAIL_POLICY`. -/
def wordCountOf (t : TailPolicy) (byteCount : Nat) : Nat :=
  match t with
  | .truncate => byteCount / 4
  | .zeroPad => (byteCount + 3) / 4

end Sys2Proof.Machine
end

