-- ==== Sys2Proof/Machine/Flags.lean ====
section
/-! DEFINITION. The STATUS word (spec/10_state.md R38) and the codes of its fields (R24, spec/60_exceptions.md R210). -/

namespace Sys2Proof.Machine

open Sys2Proof

/-- The MODE field (R24). -/
def modeCode : Mode → BitVec 3
  | .idle => 0
  | .ready => 1
  | .decoding => 2
  | .decoded => 3
  | .done => 4

/-- The code of an error kind (R210). -/
def kindCode : ErrKind → BitVec 4
  | .configuration => 1
  | .capacity => 2
  | .io => 3
  | .sequence => 4
  | .illegalCommand => 5
  | .arithmetic => 6

/-- The ERR field (R210): 0 while there is no error. -/
def errCode : Option ErrKind → BitVec 4
  | none => 0
  | some k => kindCode k

/-- STATUS (R38), assembled from the registers; `refused` is this response's REFUSED bit. -/
def statusWord (s : State) (refused : Bool) : Word :=
  0#18 ++ BitVec.ofBool refused ++ BitVec.ofBool s.edivValid ++ BitVec.ofBool s.idivValid ++
    BitVec.ofBool s.stratValid ++ BitVec.ofBool s.rateValid ++ BitVec.ofBool s.ovf ++ errCode s.err ++
    BitVec.ofBool s.fault ++ modeCode s.mode

end Sys2Proof.Machine
end

