-- ==== Sys2Proof/Machine/Sparse.lean ====
section
/-! DEFINITION. Memories as sorted lists of (address, value) pairs: the buffer's bits (spec/20_memory.md R51) and the
sink's bytes (spec/10_state.md R41), each in one canonical form. -/

namespace Sys2Proof.Machine

open Sys2Proof

/-- The value listed at address `a`. -/
def lookupCell {β : Type} : List (Nat × β) → Nat → Option β
  | [], _ => none
  | (b, v) :: rest, a => if a = b then some v else lookupCell rest a

/-- List `v` at address `a`, in place of what was listed there. -/
def insertCell {β : Type} : List (Nat × β) → Nat → β → List (Nat × β)
  | [], a, v => [(a, v)]
  | (b, w) :: rest, a, v =>
    if a < b then (a, v) :: (b, w) :: rest
    else if a = b then (a, v) :: rest
    else (b, w) :: insertCell rest a v

/-- Remove what is listed at address `a`. -/
def eraseCell {β : Type} : List (Nat × β) → Nat → List (Nat × β)
  | [], _ => []
  | (b, w) :: rest, a => if a = b then rest else (b, w) :: eraseCell rest a

/-- Addresses strictly rise. -/
abbrev Rising {β : Type} (m : List (Nat × β)) : Prop := m.Pairwise fun x y => x.1 < y.1

/-- The bit at address `j` (R51); an unlisted bit is 0, as `ClearBuffer` leaves it (spec/40_buffer.md R101). -/
def readBit (m : BitMem) (j : Nat) : Bool := (lookupCell m j).getD false

/-- Set the bit at address `j` (R51), keeping the canonical form: a 0 is not listed. -/
def writeBit (m : BitMem) (j : Nat) (v : Bool) : BitMem := if v then insertCell m j true else eraseCell m j

/-- What the sink holds at address `a`: `none` while unwritten (R41). -/
def readSink (m : SinkMem) (a : Nat) : Option Byte := lookupCell m a

/-- What a reader of the sink sees at address `a`: the written byte, or `SINK_FILL` (spec/43_serialize.md R190). -/
def sinkView (m : SinkMem) (a : Nat) : Byte := (readSink m a).getD (Config.sinkFill a)

/-- The canonical form of the buffer: addresses rise and no 0 is listed. -/
abbrev BitMem.wf (m : BitMem) : Prop := Rising m ∧ ∀ c ∈ m, c.2 = true

/-- The canonical form of the sink: addresses rise. -/
abbrev SinkMem.wf (m : SinkMem) : Prop := Rising m

/-- The canonical form of both memories of a state. -/
abbrev Memory.wf (s : State) : Prop := BitMem.wf s.buf ∧ SinkMem.wf s.sink

end Sys2Proof.Machine
end

