-- ==== Sys2Proof/Machine/Ops.lean ====
section
/-! DEFINITION. The named operations: what a command's pseudocode can end in, the buffer and sink primitives
(spec/00_scope.md R11), responses, taking an error (spec/60_exceptions.md R217), refusal (R218), and reset (R240). -/

namespace Sys2Proof.Machine

open Sys2Proof

/-- How a piece of pseudocode ends: with a value and the state so far; with `raise` and the state changed before it
(R217); or stuck for ever (R250). -/
inductive Res (α : Type) where
  | val (a : α) (s : State)
  | raised (k : ErrKind) (s : State)
  | stuck (f : Fault)
  deriving DecidableEq, Repr

/-- Sequencing: go on with the value, unless the first part raised or is stuck. -/
def Res.bind {α β : Type} (r : Res α) (f : α → State → Res β) : Res β :=
  match r with
  | .val a s => f a s
  | .raised k s => .raised k s
  | .stuck e => .stuck e

/-! The buffer. -/

/-- `BufRead(j)` (R51). -/
def bufRead (s : State) (j : Nat) : Bool := readBit s.buf (maskAddr s.cap j)

/-- `BufWrite(j, v)` (R51). -/
def bufWrite (s : State) (j : Nat) (v : Bool) : State := { s with buf := writeBit s.buf (maskAddr s.cap j) v }

/-- The effect of an emission that does not raise (R100): OVF, the bit at `BC_PROD AND MASK`, and the counter. -/
def pushBit (s : State) (v : Bool) : State :=
  { s with
    ovf := s.ovf || decide (zext s.cap ≤ zext s.bcProd)
    buf := writeBit s.buf (maskAddr s.cap (zext s.bcProd)) v
    bcProd := s.bcProd + 1 }

/-- The effect of emitting `bits` in order when none raises. -/
def pushBits (s : State) (bits : List Bool) : State := bits.foldl pushBit s

/-- `EmitBit(v)` (R100). -/
def emitBit (v : Bool) (s : State) : Res Unit :=
  if zext s.bcProd = 2 ^ 64 - 1 then .raised .arithmetic s else .val () (pushBit s v)

/-- `EmitBit` for each bit in order, up to the first that raises. -/
def emitBits : List Bool → State → Res Unit
  | [], s => .val () s
  | v :: rest, s => (emitBit v s).bind fun _ s => emitBits rest s

/-- `ClearBuffer()` (R101). -/
def clearBuffer (s : State) : State := { s with buf := [], bcProd := 0, ovf := false }

/-- `WordAt(k)` (R102): the bit at address `32k + t` is word bit `31 - t`. -/
def wordAt (s : State) (k : Nat) : Word := bitsMsbFirst (fun t => bufRead s (32 * k + t)) 32

/-! The sink. -/

/-- A sink write acknowledged *done* (R54, R41). -/
def sinkStore (s : State) (a : Nat) (v : Byte) : State :=
  { s with sink := insertCell s.sink a v, sinkLog := s.sinkLog ++ [⟨a, v, true⟩] }

/-- A sink write that failed (R54, R41): the byte is not written, the log records the attempt. -/
def sinkReject (s : State) (a : Nat) (v : Byte) : State :=
  { s with sinkLog := s.sinkLog ++ [⟨a, v, false⟩] }

/-- `SinkWrite(a, v)` (R54, R189, R250). DESIGN CHOICE: an address at or beyond SINK_SIZE takes none of the sink's
answers (log entry 4), and past the listed answers the sink answers *done* (log entry 5). -/
def sinkWrite (a : Nat) (v : Byte) (s : State) : Res Unit :=
  if s.params.sinkSize ≤ a then .raised .io (sinkReject s a v)
  else
    match s.sinkAnswers with
    | [] => .val () (sinkStore s a v)
    | .acked :: rest => .val () (sinkStore { s with sinkAnswers := rest } a v)
    | .failed :: rest => .raised .io (sinkReject { s with sinkAnswers := rest } a v)
    | .never :: _ => .stuck .sinkNeverAcknowledges

/-- `SinkWrite` for each (address, byte) in order, up to the first that fails (R188, R189). -/
def sinkWrites : List (Nat × Byte) → State → Res Unit
  | [], s => .val () s
  | (a, v) :: rest, s => (sinkWrite a v s).bind fun _ s => sinkWrites rest s

/-! The loop's range check. -/

/-- `chk(v)` (spec/42_decode.md R142, R147). -/
def chk (v : Int) (s : State) : Res Int := if fitsSigned s.params.wAcc v then .val v s else .raised .arithmetic s

/-! Responses and errors. -/

/-- Send the response (RESULT, STATUS) of a command (R245, R37, R38). -/
def respond (s : State) (result : Word) (refused : Bool) : State :=
  { s with
    result := result
    responses := s.responses ++ [⟨result, statusWord s refused⟩] }

/-- Error entry (R217): FAULT and ERR are set, RESULT is 0, the response is sent. -/
def takeError (k : ErrKind) (s : State) : State := respond { s with fault := true, err := some k } 0 false

/-- A refused command (R218): RESULT 0, the unchanged STATUS with REFUSED = 1, and nothing else (log entry 10). -/
def refuse (s : State) : State := respond s 0 true

/-- The response or the error a command's pseudocode ends in. -/
def complete (r : Res Word) : Host.Outcome State Fault Refusal :=
  match r with
  | .val result s => .next (respond s result false)
  | .raised k s => .next (takeError k s)
  | .stuck f => .fault f

/-- One command other than RESET: refused in the fault state (R218, R220 item 1), else its pseudocode. -/
def runCommand (body : State → Res Word) (s : State) : Host.Outcome State Fault Refusal :=
  if s.fault then .next (refuse s) else complete (body s)

/-- IllegalCommand (spec/60_exceptions.md R215, R220 item 2). -/
def illegalCommand (s : State) : Host.Outcome State Fault Refusal := runCommand (fun s => .raised .illegalCommand s) s

/-- Every piece of block state at its reset value (R40); the parameters, the ports and the sink are not block state. -/
def resetBlock (s : State) : State :=
  { State.reset with
    params := s.params
    hostIn := s.hostIn
    responses := s.responses
    sink := s.sink
    sinkLog := s.sinkLog
    sinkAnswers := s.sinkAnswers }

end Sys2Proof.Machine
end

