-- ==== Sys2Proof/Machine/Buffer.lean ====
section
/-! DEFINITION. The buffer commands CREATE, EMIT, BITCOUNT, BITCOUNTHI and READWORD (spec/40_buffer.md). -/

namespace Sys2Proof.Machine

open Sys2Proof

/-- The pseudocode of CREATE (R103). -/
def createBody (capLit : Word) (s : State) : Res Word :=
  if s.mode = .decoding then .raised .sequence s
  else if isPowerOfTwo capLit = false then .raised .configuration s
  else if s.params.maxCapBits < zext capLit then .raised .configuration s
  else .val 0 (clearBuffer { s with cap := capLit, mode := .ready })

/-- CREATE (R103). -/
def execCreate (capLit : Word) (s : State) : Host.Outcome State Fault Refusal := runCommand (createBody capLit) s

/-- The pseudocode of EMIT (R104). -/
def emitBody (v : Bool) (s : State) : Res Word :=
  if s.mode ≠ .ready then .raised .sequence s else (emitBit v s).bind fun _ s => .val 0 s

/-- EMIT (R104). -/
def execEmit (v : Bool) (s : State) : Host.Outcome State Fault Refusal := runCommand (emitBody v) s

/-- BITCOUNT (R105): `BC_PROD[31:0]`. -/
def execBitcount (s : State) : Host.Outcome State Fault Refusal :=
  runCommand (fun s => .val (s.bcProd.extractLsb' 0 32) s) s

/-- BITCOUNTHI (R106): `BC_PROD[63:32]`. -/
def execBitcounthi (s : State) : Host.Outcome State Fault Refusal :=
  runCommand (fun s => .val (s.bcProd.extractLsb' 32 32) s) s

/-- The pseudocode of READWORD (R107). -/
def readwordBody (idx : Word) (s : State) : Res Word :=
  if s.mode = .idle then .raised .sequence s else .val (wordAt s (zext idx)) s

/-- READWORD (R107). -/
def execReadword (idx : Word) (s : State) : Host.Outcome State Fault Refusal := runCommand (readwordBody idx) s

end Sys2Proof.Machine
end

