-- ==== Sys2Proof/Machine/Control.lean ====
section
/-! DEFINITION. The control commands NOP and RESET (spec/44_control.md). -/

namespace Sys2Proof.Machine

open Sys2Proof

/-- NOP (R200). -/
def execNop (s : State) : Host.Outcome State Fault Refusal := runCommand (fun s => .val 0 s) s

/-- RESET (R201): accepted in every mode and in the fault state. -/
def execReset (s : State) : Host.Outcome State Fault Refusal := .next (respond (resetBlock s) 0 false)

end Sys2Proof.Machine
end

