-- ==== Sys2Proof/Machine/FluxDecode.lean ====
section
/-! DEFINITION. The decode commands START, FEED, FINISH, RDPHASE and RDPERIOD, the reference loop with both windows and
both carries, and the fixed-window strategy (spec/42_decode.md). -/

namespace Sys2Proof.Machine

open Sys2Proof

/-! Starting a decode. -/

/-- The divisors START latches (R140), LIDIV first: `none` where START raises ConfigurationError because NCO lacks a
divisor. A tag that names no strategy also gives `none` (only in states no run reaches, log entry 11). -/
def latchedDivisors (s : State) : Option (Word × Word) :=
  if s.strat = tagNco then
    if s.idivValid && s.edivValid then some (s.idiv, s.ediv) else none
  else if s.strat = tagFw then some (0, 0)
  else (presetOfTag s.params s.strat).map fun p => (p.integralDiv, p.errorDiv)

/-- The pseudocode of START (R140). -/
def startBody (s : State) : Res Word :=
  if s.mode = .idle ∨ s.mode = .decoding then .raised .sequence s
  else if s.rateValid = false ∨ s.stratValid = false then .raised .configuration s
  else
    match latchedDivisors s with
    | none => .raised .configuration s
    | some (li, le) =>
      .val 0 (clearBuffer { s with lidiv := li, lediv := le, phase := 0, pe := zext s.period, mode := .decoding })

/-- START (R140). -/
def execStart (s : State) : Host.Outcome State Fault Refusal := runCommand startBody s

/-! The reference loop. -/

/-- Step 2 under `LOOP_WINDOW = FLOOR` (R142): while `p >= PE`, emit 0 and subtract `PE`. `fuel` bounds the rounds; with
`PE >= 1`, `p` rounds are enough (`floorRun_lt`, log entry 9). -/
def floorRun (pe : Int) : Nat → Int → State → Res Int
  | 0, p, s => .val p s
  | fuel + 1, p, s => if pe ≤ p then (emitBit false s).bind fun _ s => floorRun pe fuel (p - pe) s else .val p s

/-- Steps 2 and 3 under FLOOR (R142, R143, R144), from the advanced phase `p`: the value is the phase error `e`. -/
def floorWindow (dt : Nat) (p : Int) (s : State) : Res Int :=
  if dt ≠ 0 ∧ s.pe ≤ 0 ∧ s.pe ≤ p then .raised .arithmetic s
  else
    (if dt = 0 then Res.val p s else floorRun s.pe p.toNat p s).bind fun e s =>
      (emitBit true s).bind fun _ s => .val e s

/-- The loop of step 2 under `LOOP_WINDOW = CENTRED` (R148): subtract `PE`, stop when the edge falls in this cell, else
emit 0. `fuel` bounds the rounds; with `PE >= 1`, `p + 1` rounds are enough (`centredRun_lt`, log entry 9). -/
def centredRun (pe : Int) : Nat → Int → State → Res Int
  | 0, p, s => .val p s
  | fuel + 1, p, s =>
    (chk (p - pe) s).bind fun p s =>
      if 2 * p < pe then .val p s else (emitBit false s).bind fun _ s => centredRun pe fuel p s

/-- Steps 2 and 3 under CENTRED (R148), from the advanced phase `p`: the value is the phase error `e`. -/
def centredWindow (dt : Nat) (p : Int) (s : State) : Res Int :=
  if dt ≠ 0 ∧ s.pe ≤ 0 ∧ s.pe ≤ 2 * (p - s.pe) then .raised .arithmetic s
  else
    (if dt = 0 then chk (p - s.pe) s else centredRun s.pe (p.toNat + 1) p s).bind fun e s =>
      (emitBit true s).bind fun _ s => .val e s

/-- Step 4 (R145): the new PHASE from the error `e` and the quotient `q`. -/
def carriedPhase (e q : Int) (s : State) : Res Int :=
  match s.params.phaseCarry with
  | .quotient => .val q s
  | .remainder => chk (e - q) s

/-- Steps 4 and 5 (R142, R145, R146): PHASE and PE are committed together, after every range check. -/
def loopCorrect (e : Int) (s : State) : Res Unit :=
  (chk (tdiv e (sext s.lediv)) s).bind fun q s =>
    (carriedPhase e q s).bind fun np s =>
      (chk (tdiv e (sext s.lidiv)) s).bind fun c s =>
        (chk (s.pe + c) s).bind fun npe s => .val () { s with phase := np, pe := npe }

/-- Steps 2 and 3 by `LOOP_WINDOW` (R142, R148): the value is the phase error `e`. -/
def phaseError (dt : Nat) (p : Int) (s : State) : Res Int :=
  match s.params.loopWindow with
  | .floor => floorWindow dt p s
  | .centred => centredWindow dt p s

/-- `LoopFeed(dt)` (R142, R148). -/
def loopFeed (dt : Nat) (s : State) : Res Unit :=
  (chk (s.phase + dt) s).bind fun p s => (phaseError dt p s).bind fun e s => loopCorrect e s

/-! The fixed window. -/

/-- The bits of an interval of `n` bitcells (R150): `n - 1` zeros and a 1, or none. -/
def intervalBits (n : Nat) : List Bool := if 1 ≤ n then List.replicate (n - 1) false ++ [true] else []

/-- `FixedWindowFeed(dt)` (R150). -/
def fixedWindowFeed (dt : Nat) (s : State) : Res Unit := emitBits (intervalBits (windowCells dt (zext s.period))) s

/-! The commands. -/

/-- The pseudocode of FEED (R141). -/
def feedBody (dt : Half) (s : State) : Res Word :=
  if s.mode ≠ .decoding then .raised .sequence s
  else
    (if s.strat = tagFw then fixedWindowFeed (zext dt) s else loopFeed (zext dt) s).bind fun _ t =>
      .val ((t.bcProd - s.bcProd).extractLsb' 0 32) t

/-- FEED (R141). -/
def execFeed (dt : Half) (s : State) : Host.Outcome State Fault Refusal := runCommand (feedBody dt) s

/-- The pseudocode of FINISH (R151). -/
def finishBody (s : State) : Res Word :=
  if s.mode ≠ .decoding then .raised .sequence s
  else .val (s.bcProd.extractLsb' 0 32) { s with mode := .decoded }

/-- FINISH (R151). -/
def execFinish (s : State) : Host.Outcome State Fault Refusal := runCommand finishBody s

/-- RDPHASE (R152). -/
def execRdphase (s : State) : Host.Outcome State Fault Refusal := runCommand (fun s => .val (lo32 s.phase) s) s

/-- RDPERIOD (R153). -/
def execRdperiod (s : State) : Host.Outcome State Fault Refusal := runCommand (fun s => .val (lo32 s.pe) s) s

end Sys2Proof.Machine
end

