-- ==== Sys2Proof/Machine/Serialize.lean ====
section
/-! DEFINITION. SERIALIZE: the HFE image of the buffer, written to the sink byte by byte (spec/43_serialize.md). -/

namespace Sys2Proof.Machine

open Sys2Proof

/-- The 20 bytes of `WriteHeader()` (R183), ascending from offset 0x00. -/
def headerBytes (s : State) : List Byte :=
  s.params.hfeMagic.toList ++
    [0x00, 0x01, 0x01, 0xFF, lowByte (zext s.rate), 0x01, 0x00, 0x00, 0x07, 0x00, 0x01, 0x00]

/-- The 4 bytes of `WriteTrackTable(byte_count)` (R184), ascending from offset 0x200. -/
def trackTableBytes (byteCount : Nat) : List Byte :=
  [0x02, 0x00, lowByte (2 * byteCount % 65536), highByte (2 * byteCount % 65536)]

/-- `TailWord(i, bc)` (R187): under ZERO_PAD every bit at or past `bc` is forced to 0. -/
def tailWord (s : State) (i bc : Nat) : Word :=
  match s.params.tailPolicy with
  | .truncate => wordAt s i
  | .zeroPad => bitsMsbFirst (fun t => decide (32 * i + t < bc) && bufRead s (32 * i + t)) 32

/-- The four track-data bytes of word `i` (R185). -/
def dataBytes (s : State) (i bc : Nat) : List Byte :=
  [0, 1, 2, 3].map fun j => rev8 (byteOfWord (tailWord s i bc) j)

/-- The bytes with their addresses, ascending from `base`. -/
def atAddresses (base : Nat) (bytes : List Byte) : List (Nat × Byte) := bytes.mapIdx fun j v => (base + j, v)

/-- Every byte SERIALIZE writes, in the order of R188. -/
def imageWrites (s : State) : List (Nat × Byte) :=
  atAddresses 0x000 (headerBytes s) ++
    atAddresses 0x200 (trackTableBytes (byteCountOf (zext s.bcProd))) ++
      (List.range (wordCountOf s.params.tailPolicy (byteCountOf (zext s.bcProd)))).flatMap fun i =>
        atAddresses (wordOffset i) (dataBytes s i (zext s.bcProd))

/-- The pseudocode of SERIALIZE (R180). -/
def serializeBody (s : State) : Res Word :=
  if s.mode ≠ .ready ∧ s.mode ≠ .decoded then .raised .sequence s
  else if s.rateValid = false then .raised .configuration s
  else if s.ovf then .raised .capacity s
  else
    (sinkWrites (imageWrites s) s).bind fun _ t =>
      .val (BitVec.ofNat 32 (byteCountOf (zext s.bcProd))) { t with mode := .done }

/-- SERIALIZE (R180). -/
def execSerialize (s : State) : Host.Outcome State Fault Refusal := runCommand serializeBody s

end Sys2Proof.Machine
end

