-- ==== Sys2Proof/Machine/Strategy.lean ====
section
/-! DEFINITION. The configuration commands SETRATE, SETIDIV, SETEDIV and SELECT (spec/41_strategy.md). -/

namespace Sys2Proof.Machine

open Sys2Proof

/-- The pseudocode of SETRATE (R121). -/
def setrateBody (rate : Half) (s : State) : Res Word :=
  if s.mode = .decoding then .raised .sequence s
  else if rate = 0 then .raised .configuration s
  else if periodOfRate rate = 0 then .raised .configuration s
  else
    .val (BitVec.ofNat 32 (periodOfRate rate))
      { s with rate := rate, period := BitVec.ofNat 32 (periodOfRate rate), rateValid := true }

/-- SETRATE (R121). -/
def execSetrate (rate : Half) (s : State) : Host.Outcome State Fault Refusal := runCommand (setrateBody rate) s

/-- The pseudocode of SETIDIV (R122). -/
def setidivBody (div : Word) (s : State) : Res Word :=
  if s.mode = .decoding then .raised .sequence s
  else if div = 0 then .raised .configuration s
  else .val 0 { s with idiv := div, idivValid := true }

/-- SETIDIV (R122). -/
def execSetidiv (div : Word) (s : State) : Host.Outcome State Fault Refusal := runCommand (setidivBody div) s

/-- The pseudocode of SETEDIV (R123). -/
def setedivBody (div : Word) (s : State) : Res Word :=
  if s.mode = .decoding then .raised .sequence s
  else if div = 0 then .raised .configuration s
  else .val 0 { s with ediv := div, edivValid := true }

/-- SETEDIV (R123). -/
def execSetediv (div : Word) (s : State) : Host.Outcome State Fault Refusal := runCommand (setedivBody div) s

/-- The pseudocode of SELECT (R124). -/
def selectBody (tag : Byte) (s : State) : Res Word :=
  if s.mode = .decoding then .raised .sequence s
  else if namesStrategy s.params tag = false then .raised .configuration s
  else .val 0 { s with strat := tag, stratValid := true }

/-- SELECT (R124). -/
def execSelect (tag : Byte) (s : State) : Host.Outcome State Fault Refusal := runCommand (selectBody tag) s

end Sys2Proof.Machine
end

