-- ==== Sys2Proof/Syntax.lean ====
section
/-! DEFINITION. The commands of the block, one constructor per row of spec/opcode_table.json, and the assembler's
source lines (spec/30_encoding.md R73, R75, R79, R80). -/

namespace Sys2Proof

/-- The commands of R75. An operand's type is the field R73 gives it, so every term is well formed. -/
inductive Instr where
  /-- NOP, spec/44_control.md R200. -/
  | nop
  /-- RESET, spec/44_control.md R201. -/
  | reset
  /-- CREATE, spec/40_buffer.md R103: `CAPLIT = LIT[31:0]`. -/
  | create (capLit : Word)
  /-- EMIT, spec/40_buffer.md R104: `V = ARG[0]`. -/
  | emit (v : Bool)
  /-- BITCOUNT, spec/40_buffer.md R105. -/
  | bitcount
  /-- BITCOUNTHI, spec/40_buffer.md R106. -/
  | bitcounthi
  /-- READWORD, spec/40_buffer.md R107: `IDX = LIT[31:0]`. -/
  | readword (idx : Word)
  /-- SETRATE, spec/41_strategy.md R121: `RATE16 = ARG[15:0]`. -/
  | setrate (rate : Half)
  /-- SETIDIV, spec/41_strategy.md R122: `DIV = LIT[31:0]`, signed. -/
  | setidiv (div : Word)
  /-- SETEDIV, spec/41_strategy.md R123: `DIV = LIT[31:0]`, signed. -/
  | setediv (div : Word)
  /-- SELECT, spec/41_strategy.md R124: `TAG = ARG[7:0]`. -/
  | select (tag : Byte)
  /-- START, spec/42_decode.md R140. -/
  | start
  /-- FEED, spec/42_decode.md R141: `DT = ARG[15:0]`. -/
  | feed (dt : Half)
  /-- FINISH, spec/42_decode.md R151. -/
  | finish
  /-- RDPHASE, spec/42_decode.md R152. -/
  | rdphase
  /-- RDPERIOD, spec/42_decode.md R153. -/
  | rdperiod
  /-- SERIALIZE, spec/43_serialize.md R180. -/
  | serialize
  deriving DecidableEq, Repr

/-- The mnemonics of R75, as an assembler line names them (R79). -/
inductive Mnemonic where
  | nop | reset | create | emit | bitcount | bitcounthi | readword | setrate | setidiv | setediv | select
  | start | feed | finish | rdphase | rdperiod | serialize
  deriving DecidableEq, Repr

/-- A numeric operand as R79 lets it be written: decimal, decimal with a sign, or hexadecimal with `0x`. -/
inductive AsmNum where
  | dec (n : Nat)
  | signed (negative : Bool) (n : Nat)
  | hex (n : Nat)
  deriving DecidableEq, Repr

/-- The operand of SELECT (R79): a number or one of the symbolic tags `NCO`, `FW`, `PRESET<n>`. -/
inductive AsmTag where
  | num (n : AsmNum)
  | nco
  | fw
  | preset (n : Nat)
  deriving DecidableEq, Repr

/-- One assembler line: a command (R79) or a pseudo-instruction (R80). -/
inductive AsmLine where
  /-- a mnemonic alone -/
  | bare (m : Mnemonic)
  /-- a mnemonic and a numeric operand -/
  | num (m : Mnemonic) (n : AsmNum)
  /-- `SELECT` and a symbolic tag -/
  | tag (t : AsmTag)
  /-- `NCO i, e` -/
  | nco (i e : AsmNum)
  /-- `DECODE d1, ..., dn` -/
  | decode (dts : List AsmNum)
  /-- `EMITS b1 ... bn` -/
  | emits (bits : List AsmNum)
  /-- `CONFIG r, t` -/
  | config (r : AsmNum) (t : AsmTag)
  deriving DecidableEq, Repr

end Sys2Proof
end

