-- ==== Sys2Proof/Machine/Dispatch.lean ====
section
/-! DEFINITION. One arm per command, each a direct call of its meaning (spec/30_encoding.md R75). -/

namespace Sys2Proof.Machine

open Sys2Proof

/-- The effect of a command on the block. -/
def exec (i : Instr) (s : State) : Host.Outcome State Fault Refusal :=
  match i with
  | .nop => Sys2Proof.Machine.execNop s
  | .reset => Sys2Proof.Machine.execReset s
  | .create capLit => Sys2Proof.Machine.execCreate capLit s
  | .emit v => Sys2Proof.Machine.execEmit v s
  | .bitcount => Sys2Proof.Machine.execBitcount s
  | .bitcounthi => Sys2Proof.Machine.execBitcounthi s
  | .readword idx => Sys2Proof.Machine.execReadword idx s
  | .setrate rate => Sys2Proof.Machine.execSetrate rate s
  | .setidiv div => Sys2Proof.Machine.execSetidiv div s
  | .setediv div => Sys2Proof.Machine.execSetediv div s
  | .select tag => Sys2Proof.Machine.execSelect tag s
  | .start => Sys2Proof.Machine.execStart s
  | .feed dt => Sys2Proof.Machine.execFeed dt s
  | .finish => Sys2Proof.Machine.execFinish s
  | .rdphase => Sys2Proof.Machine.execRdphase s
  | .rdperiod => Sys2Proof.Machine.execRdperiod s
  | .serialize => Sys2Proof.Machine.execSerialize s

end Sys2Proof.Machine
end

