-- ==== Sys2Proof/Decode.lean ====
section
/-! DEFINITION. Decoding and encoding of command words (spec/30_encoding.md R70 to R78), and of the little-endian byte
transport (spec/20_memory.md R55). -/

namespace Sys2Proof

/-- `OPC = w[31:24]` (R70). -/
def opc (w : Word) : BitVec 8 := w.extractLsb' 24 8

/-- `ARG = w[23:0]` (R70). -/
def arg (w : Word) : BitVec 24 := w.extractLsb' 0 24

/-- R72: the long opcodes; every other opcode, assigned or not, is short. -/
def isLongOpc (o : BitVec 8) : Bool := o == 0x10#8 || o == 0x14#8 || o == 0x21#8 || o == 0x22#8

/-- R72: whether a command whose first word is `w` takes a literal word. -/
def isLong (w : Word) : Bool := isLongOpc (opc w)

/-- What a command word (with its literal) decodes to (R78): a command, or IllegalCommand for one of two reasons. -/
inductive Decoded where
  | instr (i : Instr)
  /-- R76: the opcode is not in the map. -/
  | unassignedOpcode
  /-- R74: a must-be-zero bit is set. -/
  | mustBeZero
  deriving DecidableEq, Repr

/-- R74: `i` if the must-be-zero bits are 0. -/
def ifZero {n : Nat} (mbz : BitVec n) (i : Instr) : Decoded := if mbz = 0 then .instr i else .mustBeZero

/-- R75, R74, R76, R78: the decoding of a command word `w`, with the literal word `lit` for a long opcode (a short
opcode ignores `lit`). -/
def decodeCommand (w lit : Word) : Decoded :=
  if opc w = 0x00#8 then ifZero (arg w) .nop
  else if opc w = 0x01#8 then ifZero (arg w) .reset
  else if opc w = 0x10#8 then ifZero (arg w) (.create lit)
  else if opc w = 0x11#8 then ifZero (w.extractLsb' 1 23) (.emit (w.getLsbD 0))
  else if opc w = 0x12#8 then ifZero (arg w) .bitcount
  else if opc w = 0x13#8 then ifZero (arg w) .bitcounthi
  else if opc w = 0x14#8 then ifZero (arg w) (.readword lit)
  else if opc w = 0x20#8 then ifZero (w.extractLsb' 16 8) (.setrate (w.extractLsb' 0 16))
  else if opc w = 0x21#8 then ifZero (arg w) (.setidiv lit)
  else if opc w = 0x22#8 then ifZero (arg w) (.setediv lit)
  else if opc w = 0x23#8 then ifZero (w.extractLsb' 8 16) (.select (w.extractLsb' 0 8))
  else if opc w = 0x30#8 then ifZero (arg w) .start
  else if opc w = 0x31#8 then ifZero (w.extractLsb' 16 8) (.feed (w.extractLsb' 0 16))
  else if opc w = 0x32#8 then ifZero (arg w) .finish
  else if opc w = 0x33#8 then ifZero (arg w) .rdphase
  else if opc w = 0x34#8 then ifZero (arg w) .rdperiod
  else if opc w = 0x40#8 then ifZero (arg w) .serialize
  else .unassignedOpcode

/-- The opcode of each command (R75). -/
def opcodeOf : Instr → BitVec 8
  | .nop => 0x00
  | .reset => 0x01
  | .create _ => 0x10
  | .emit _ => 0x11
  | .bitcount => 0x12
  | .bitcounthi => 0x13
  | .readword _ => 0x14
  | .setrate _ => 0x20
  | .setidiv _ => 0x21
  | .setediv _ => 0x22
  | .select _ => 0x23
  | .start => 0x30
  | .feed _ => 0x31
  | .finish => 0x32
  | .rdphase => 0x33
  | .rdperiod => 0x34
  | .serialize => 0x40

/-- The ARG field of each command (R73, R74). -/
def argOf : Instr → BitVec 24
  | .emit v => (BitVec.ofBool v).setWidth 24
  | .setrate r => r.setWidth 24
  | .select t => t.setWidth 24
  | .feed d => d.setWidth 24
  | .nop | .reset | .create _ | .bitcount | .bitcounthi | .readword _ | .setidiv _ | .setediv _ | .start | .finish
  | .rdphase | .rdperiod | .serialize => 0

/-- The literal word of a long command (R71, R73). -/
def literalOf : Instr → Option Word
  | .create c => some c
  | .readword k => some k
  | .setidiv d => some d
  | .setediv d => some d
  | .nop | .reset | .emit _ | .bitcount | .bitcounthi | .setrate _ | .select _ | .start | .feed _ | .finish
  | .rdphase | .rdperiod | .serialize => none

/-- The first command word `{OPC, ARG}` (R70). -/
def firstWord (i : Instr) : Word := opcodeOf i ++ argOf i

/-- The command words of an instruction (R71): one, or two with the literal. -/
def encode (i : Instr) : List Word := firstWord i :: (literalOf i).toList

/-- R55: four bytes, lowest address first, as a little-endian word. -/
def wordOfBytes (b0 b1 b2 b3 : Byte) : Word := b3 ++ b2 ++ b1 ++ b0

/-- R55: the bytes of a word, lowest address first. -/
def bytesOfWord (w : Word) : List Byte :=
  [w.extractLsb' 0 8, w.extractLsb' 8 8, w.extractLsb' 16 8, w.extractLsb' 24 8]

/-- What a byte transport has delivered: not yet a whole command, or a command and the bytes after it. -/
inductive ByteDecoded where
  | incomplete
  | command (d : Decoded) (rest : List Byte)
  deriving DecidableEq, Repr

/-- R55, R71, R72: the first command of a little-endian byte stream (log entry 17), total on any bytes. -/
def decodeBytes : List Byte → ByteDecoded
  | b0 :: b1 :: b2 :: b3 :: rest =>
    if isLong (wordOfBytes b0 b1 b2 b3) then
      match rest with
      | c0 :: c1 :: c2 :: c3 :: rest' =>
        .command (decodeCommand (wordOfBytes b0 b1 b2 b3) (wordOfBytes c0 c1 c2 c3)) rest'
      | _ => .incomplete
    else .command (decodeCommand (wordOfBytes b0 b1 b2 b3) 0) rest
  | _ => .incomplete

/-- The bytes of an instruction on a byte transport (R55). -/
def encodeBytes (i : Instr) : List Byte := (encode i).flatMap bytesOfWord

/-- The first word of an instruction whose bits are `w`, of which `nbits` are given and the rest are 0. -/
def tableFirstWord (nbits w : Nat) : Word := BitVec.ofNat 32 (w % 2 ^ nbits)

/-- The second word of an instruction whose bits are `w`, of which `nbits` are given and the rest are 0. -/
def tableSecondWord (nbits w : Nat) : Word := BitVec.ofNat 32 (w % 2 ^ nbits / 2 ^ 32)

/-- The instruction the decoder reads from the bits `w`, numbered as spec/opcode_table.json numbers them. -/
def decodeTableWord (nbits w : Nat) : Option Instr :=
  match decodeCommand (tableFirstWord nbits w) (tableSecondWord nbits w) with
  | .instr i => some i
  | .unassignedOpcode => none
  | .mustBeZero => none

end Sys2Proof
end

