-- ==== Sys2Proof/Machine/Fetch.lean ====
section
/-! DEFINITION. Taking words from the command port (spec/10_state.md R22, R23, spec/30_encoding.md R71, R72, R78), the
reset input (spec/70_reset_and_hazards.md R240), and placing an instruction on the port. -/

namespace Sys2Proof.Machine

open Sys2Proof

/-- What one step finds at the ports. -/
inductive Fetched where
  /-- nothing to execute: the step only changes the state as given -/
  | noCommand (s : State)
  /-- a whole command, with the state after its words were taken -/
  | command (d : Decoded) (s : State)
  deriving DecidableEq, Repr

/-- Take `n` words off the port (R22), leaving `rest` and nothing pending. -/
def takeWords (n : Nat) (rest : List HostInput) (s : State) : State :=
  { s with hostIn := rest, pend := none, cp := s.cp + n }

/-- Hold the first word of a long command whose literal has not arrived (R23). -/
def holdFirst (w : Word) (rest : List HostInput) (s : State) : State :=
  { s with hostIn := rest, pend := some w, cp := s.cp + 1 }

/-- A hardware reset (R240), as one pulse between two words (log entry 13): block state at its reset values, no response. -/
def hardwareReset (rest : List HostInput) (s : State) : State := resetBlock { s with hostIn := rest }

/-- One step's fetch: with PEND nonempty the next word is the literal, whatever its bits (R71, R78); a short command is
one word; a long command is two, or stays pending while its literal has not arrived; with nothing sent the block waits
(R228, R240). -/
def fetch (s : State) : Fetched :=
  match s.hostIn with
  | [] => .noCommand s
  | .resetPulse :: rest => .noCommand (hardwareReset rest s)
  | .word w :: rest =>
    match s.pend with
    | some first => .command (decodeCommand first w) (takeWords 1 rest s)
    | none =>
      if isLong w then
        match rest with
        | .word lit :: rest' => .command (decodeCommand w lit) (takeWords 2 rest' s)
        | .resetPulse :: _ => .noCommand (holdFirst w rest s)
        | [] => .noCommand (holdFirst w rest s)
      else .command (decodeCommand w 0) (takeWords 1 rest s)

/-- The words of an instruction whose bits are `w`: its first word, and a second one exactly for a long opcode. -/
def tableWords (nbits w : Nat) : List HostInput :=
  if isLong (tableFirstWord nbits w) then
    [.word (tableFirstWord nbits w), .word (tableSecondWord nbits w)]
  else [.word (tableFirstWord nbits w)]

/-- `s` with that instruction at the head of the command port and no literal pending. -/
def placeWords (s : State) (nbits w : Nat) : State := { s with hostIn := tableWords nbits w ++ s.hostIn, pend := none }

end Sys2Proof.Machine
end

