-- ==== Sys2Proof/Machine/Step.lean ====
section
/-! DEFINITION. One step of the block: fetch, decode, execute (spec/00_scope.md R12, spec/30_encoding.md R78). -/

namespace Sys2Proof.Machine

open Sys2Proof

/-- One step: a whole command executes; a word that is no command raises IllegalCommand (R215); with no whole command at
the port only the port, PEND and CP move. -/
def step (s : State) : Host.Outcome State Fault Refusal :=
  match fetch s with
  | .noCommand t => .next t
  | .command (.instr i) t => exec i t
  | .command .unassignedOpcode t => illegalCommand t
  | .command .mustBeZero t => illegalCommand t

/-- `s` with the instruction whose bits are `w` placed where `step` takes its next command: at the head of the command
port, with PEND empty (log entry 3). -/
def State.withFetchWord (s : State) (nbits w : Nat) : State := placeWords s nbits w

end Sys2Proof.Machine
end

