-- ==== Sys2Proof/WellFormed.lean ====
section
/-! DEFINITION. The static checks of the spec: legal parameter values (spec/00_scope.md R6, spec/42_decode.md R149) and
operands that fit their fields (spec/30_encoding.md R73, R79). An `Instr` needs no check: its operand types are the fields. -/

namespace Sys2Proof

/-- An operand field of R73: its width, and whether it is read with `sext`. -/
structure OperandField where
  width : Nat
  isSigned : Bool
  deriving DecidableEq, Repr

/-- The operand field of each mnemonic (R73); `none` for a command without operand. -/
def Mnemonic.field : Mnemonic → Option OperandField
  | .emit => some ⟨1, false⟩
  | .setrate => some ⟨16, false⟩
  | .feed => some ⟨16, false⟩
  | .select => some ⟨8, false⟩
  | .create => some ⟨32, false⟩
  | .readword => some ⟨32, false⟩
  | .setidiv => some ⟨32, true⟩
  | .setediv => some ⟨32, true⟩
  | .nop | .reset | .bitcount | .bitcounthi | .start | .finish | .rdphase | .rdperiod | .serialize => none

/-- R79: an operand fits its field. A sign is allowed on a signed field alone; a hexadecimal operand is the field's bit
pattern (DESIGN CHOICE, log entry 14). -/
def AsmNum.fits (f : OperandField) : AsmNum → Bool
  | .dec n => if f.isSigned then decide (n < 2 ^ (f.width - 1)) else decide (n < 2 ^ f.width)
  | .signed neg n => f.isSigned && (if neg then decide (n ≤ 2 ^ (f.width - 1)) else decide (n < 2 ^ (f.width - 1)))
  | .hex n => decide (n < 2 ^ f.width)

/-- R79, R77: a symbolic preset tag `0x02 + n` fits the 8-bit TAG field. -/
def AsmTag.fits : AsmTag → Bool
  | .num n => n.fits ⟨8, false⟩
  | .nco => true
  | .fw => true
  | .preset n => decide (n + 2 < 2 ^ 8)

/-- R79, R80: every operand of the line is present exactly where the mnemonic takes one, and fits its field. -/
def AsmLine.wf : AsmLine → Bool
  | .bare m => m.field.isNone
  | .num m n => m.field.any n.fits
  | .tag t => t.fits
  | .nco i e => i.fits ⟨32, true⟩ && e.fits ⟨32, true⟩
  | .decode dts => dts.all (AsmNum.fits ⟨16, false⟩)
  | .emits bits => bits.all (AsmNum.fits ⟨1, false⟩)
  | .config r t => r.fits ⟨16, false⟩ && t.fits

/-- R6, R149: a legal preset has no zero divisor. -/
def Preset.legal (p : Preset) : Bool := p.integralDiv != 0 && p.errorDiv != 0

/-- R6: `MAX_CAP_BITS` is a power of two, 1 .. 2^31. -/
def Params.legalMaxCap (p : Params) : Bool := (List.range 32).any fun k => p.maxCapBits == 2 ^ k

/-- R6: the legal range of every parameter. -/
def Params.legal (p : Params) : Bool :=
  p.legalMaxCap && decide (32 ≤ p.wAcc) && decide (p.wAcc ≤ 64) &&
    decide (p.presetTable.length ≤ 126) && p.presetTable.all Preset.legal

end Sys2Proof
end

