-- ==== Sys2Proof/Machine/Assembler.lean ====
section
/-! DEFINITION. The assembler: source text to lines to commands to command words (spec/30_encoding.md R79, R80). -/

namespace Sys2Proof.Machine

open Sys2Proof

/-! Lines to commands. -/

/-- The operand's bits in a field of `w` bits (R73, R79). -/
def asmNumBits (w : Nat) : AsmNum → BitVec w
  | .dec n => BitVec.ofNat w n
  | .signed neg n => BitVec.ofInt w (if neg then -(n : Int) else n)
  | .hex n => BitVec.ofNat w n

/-- The tag of a SELECT operand (R79, R77). -/
def asmTagBits : AsmTag → Byte
  | .num n => asmNumBits 8 n
  | .nco => tagNco
  | .fw => tagFw
  | .preset n => BitVec.ofNat 8 (n + 2)

/-- The command of a mnemonic and its operand (R75); a command without operand ignores it. -/
def commandOf (m : Mnemonic) (n : AsmNum) : Instr :=
  match m with
  | .nop => .nop
  | .reset => .reset
  | .create => .create (asmNumBits 32 n)
  | .emit => .emit ((asmNumBits 1 n).getLsbD 0)
  | .bitcount => .bitcount
  | .bitcounthi => .bitcounthi
  | .readword => .readword (asmNumBits 32 n)
  | .setrate => .setrate (asmNumBits 16 n)
  | .setidiv => .setidiv (asmNumBits 32 n)
  | .setediv => .setediv (asmNumBits 32 n)
  | .select => .select (asmNumBits 8 n)
  | .start => .start
  | .feed => .feed (asmNumBits 16 n)
  | .finish => .finish
  | .rdphase => .rdphase
  | .rdperiod => .rdperiod
  | .serialize => .serialize

/-- The commands of a line: a command (R79), or the expansion of a pseudo-instruction (R80). -/
def expandLine : AsmLine → List Instr
  | .bare m => [commandOf m (.dec 0)]
  | .num m n => [commandOf m n]
  | .tag t => [.select (asmTagBits t)]
  | .nco i e => [commandOf .setidiv i, commandOf .setediv e, .select tagNco]
  | .decode dts => .start :: dts.map (commandOf .feed) ++ [.finish]
  | .emits bits => bits.map (commandOf .emit)
  | .config r t => [commandOf .setrate r, .select (asmTagBits t)]

/-- R79: a line with an operand that does not fit is an assembly error, never truncated. -/
def assembleLine (l : AsmLine) : Option (List Instr) := if l.wf then some (expandLine l) else none

/-! Text to lines. -/

/-- A piece of a source line. -/
inductive AsmToken where
  | word (cs : List Char)
  | comma
  deriving DecidableEq, Repr

/-- The token of the letters collected so far (in reverse), if any. -/
def flushToken (letters : List Char) : List AsmToken := if letters.isEmpty then [] else [.word letters.reverse]

/-- Split a line into words and commas; text after `;` is a comment (R79). DESIGN CHOICE (log entry 14): blanks and tabs
separate words. -/
def tokenize : List Char → List Char → List AsmToken
  | [], letters => flushToken letters
  | c :: cs, letters =>
    if c = ';' then flushToken letters
    else if c = ' ' ∨ c = '\t' then flushToken letters ++ tokenize cs []
    else if c = ',' then flushToken letters ++ .comma :: tokenize cs []
    else tokenize cs (c :: letters)

/-- The value of a digit in a base up to 16. -/
def digitValue (base : Nat) (c : Char) : Option Nat :=
  let v :=
    if '0'.toNat ≤ c.toNat ∧ c.toNat ≤ '9'.toNat then c.toNat - '0'.toNat
    else if 'a'.toNat ≤ c.toNat ∧ c.toNat ≤ 'f'.toNat then c.toNat - 'a'.toNat + 10
    else if 'A'.toNat ≤ c.toNat ∧ c.toNat ≤ 'F'.toNat then c.toNat - 'A'.toNat + 10
    else base
  if v < base then some v else none

/-- The value of a digit string after the digits already read. -/
def digitsFrom (base : Nat) : List Char → Nat → Option Nat
  | [], acc => some acc
  | c :: cs, acc => (digitValue base c).bind fun v => digitsFrom base cs (base * acc + v)

/-- The value of a nonempty digit string. -/
def parseDigits (base : Nat) (cs : List Char) : Option Nat := if cs.isEmpty then none else digitsFrom base cs 0

/-- A number as R79 lets it be written. DESIGN CHOICE (log entry 14): a plus sign is a sign, leading zeros are allowed, and
hexadecimal digits may be of either case. -/
def parseNum : List Char → Option AsmNum
  | '0' :: 'x' :: cs => (parseDigits 16 cs).map .hex
  | '-' :: cs => (parseDigits 10 cs).map (.signed true)
  | '+' :: cs => (parseDigits 10 cs).map (.signed false)
  | cs => (parseDigits 10 cs).map .dec

/-- A SELECT operand (R79): `NCO`, `FW`, `PRESET<n>` or a number. DESIGN CHOICE (log entry 14): R79 does not say how the `n`
of `PRESET<n>` is written; it is read as unsigned decimal digits, so `PRESET0x1` and `PRESET+1` are malformed. -/
def parseTag : List Char → Option AsmTag
  | ['N', 'C', 'O'] => some .nco
  | ['F', 'W'] => some .fw
  | 'P' :: 'R' :: 'E' :: 'S' :: 'E' :: 'T' :: cs => (parseDigits 10 cs).map .preset
  | cs => (parseNum cs).map .num

/-- The spelling of each mnemonic (R75, R79). -/
def mnemonicText : Mnemonic → String
  | .nop => "NOP"
  | .reset => "RESET"
  | .create => "CREATE"
  | .emit => "EMIT"
  | .bitcount => "BITCOUNT"
  | .bitcounthi => "BITCOUNTHI"
  | .readword => "READWORD"
  | .setrate => "SETRATE"
  | .setidiv => "SETIDIV"
  | .setediv => "SETEDIV"
  | .select => "SELECT"
  | .start => "START"
  | .feed => "FEED"
  | .finish => "FINISH"
  | .rdphase => "RDPHASE"
  | .rdperiod => "RDPERIOD"
  | .serialize => "SERIALIZE"

/-- Every mnemonic of R75. -/
def allMnemonics : List Mnemonic :=
  [.nop, .reset, .create, .emit, .bitcount, .bitcounthi, .readword, .setrate, .setidiv, .setediv, .select, .start,
    .feed, .finish, .rdphase, .rdperiod, .serialize]

/-- The mnemonic a word spells. -/
def parseMnemonic (cs : List Char) : Option Mnemonic := allMnemonics.find? fun m => (mnemonicText m).toList == cs

/-- Words separated by commas, at least one. -/
def commaWords : List AsmToken → Option (List (List Char))
  | [.word w] => some [w]
  | .word w :: .comma :: rest => (commaWords rest).map (w :: ·)
  | _ => none

/-- Words separated by blanks. -/
def blankWords : List AsmToken → Option (List (List Char))
  | [] => some []
  | .word w :: rest => (blankWords rest).map (w :: ·)
  | .comma :: _ => none

/-- Numbers from words, if every word is one. -/
def parseNums (ws : List (List Char)) : Option (List AsmNum) := ws.mapM parseNum

/-- What a source line holds. That a blank line is no error is the model's choice (log entry 14). -/
inductive ParsedLine where
  /-- only blanks or a comment -/
  | blank
  | line (l : AsmLine)
  /-- not a line of R79 or R80 -/
  | malformed
  deriving DecidableEq, Repr

/-- A line, or malformed. -/
def lineOr (l : Option AsmLine) : ParsedLine := l.elim .malformed .line

/-- The operands of a command line (R79), after its mnemonic. -/
def parseOperands (m : Mnemonic) : List AsmToken → Option AsmLine
  | [] => some (.bare m)
  | [.word w] => if m = .select then (parseTag w).map .tag else (parseNum w).map (.num m)
  | _ => none

/-- One line's tokens: a pseudo-instruction (R80) or a command (R79). DESIGN CHOICE (log entry 14): DECODE and EMITS may
have no operand. -/
def parseTokens : List AsmToken → ParsedLine
  | [] => .blank
  | .comma :: _ => .malformed
  | .word w :: rest =>
    if w = "NCO".toList then
      match rest with
      | [.word i, .comma, .word e] => lineOr ((parseNum i).bind fun i => (parseNum e).map fun e => .nco i e)
      | _ => .malformed
    else if w = "CONFIG".toList then
      match rest with
      | [.word r, .comma, .word t] => lineOr ((parseNum r).bind fun r => (parseTag t).map fun t => .config r t)
      | _ => .malformed
    else if w = "DECODE".toList then
      lineOr ((if rest.isEmpty then some [] else commaWords rest).bind fun ws => (parseNums ws).map .decode)
    else if w = "EMITS".toList then lineOr ((blankWords rest).bind fun ws => (parseNums ws).map .emits)
    else lineOr ((parseMnemonic w).bind fun m => parseOperands m rest)

/-- One source line (R79). -/
def parseLine (cs : List Char) : ParsedLine := parseTokens (tokenize cs [])

/-- The commands of a source text, one line each (R79); `none` on an assembly error in any line, where R79 does not say
what becomes of the other lines (DESIGN CHOICE, log entry 14). -/
def assembleText : List (List Char) → Option (List Instr)
  | [] => some []
  | cs :: rest =>
    match parseLine cs with
    | .blank => assembleText rest
    | .malformed => none
    | .line l => (assembleLine l).bind fun is => (assembleText rest).map (is ++ ·)

/-- The command words of a source text. -/
def assembleWords (text : List (List Char)) : Option (List Word) := (assembleText text).map (·.flatMap encode)

end Sys2Proof.Machine
end

