-- ==== Sys2Proof/Safety.lean ====
section
/-! DEFINITION. What holds of every state of a run: the invariants the spec states of its registers and memories, in the
terms the statements use. -/

namespace Sys2Proof.Safety

open Sys2Proof Sys2Proof.Machine

/-- The five lifecycle states and the buffer (spec/10_state.md R24, R26): MODE is IDLE exactly while CAP is 0, and a
nonzero CAP is a power of two no greater than `MAX_CAP_BITS`. -/
def CapacityInv (s : State) : Prop :=
  (s.mode = .idle ↔ s.cap = 0) ∧ (s.cap ≠ 0 → isPowerOfTwo s.cap = true ∧ zext s.cap ≤ s.params.maxCapBits)

/-- Overflow (spec/40_buffer.md R109): OVF is 1 exactly when more bits were emitted than CAP. -/
def OverflowInv (s : State) : Prop := s.ovf = decide (zext s.cap < zext s.bcProd)

/-- The configuration registers (spec/10_state.md R30, R31, R32): what each VALID bit promises of its register. -/
def ConfigInv (s : State) : Prop :=
  (s.rateValid = true → s.rate ≠ 0 ∧ zext s.period = periodOfRate s.rate ∧ 1 ≤ zext s.period ∧ zext s.period ≤ 36000) ∧
    (s.idivValid = true → s.idiv ≠ 0) ∧ (s.edivValid = true → s.ediv ≠ 0) ∧
      (s.stratValid = true → namesStrategy s.params s.strat = true)

/-- The fault state (spec/10_state.md R25, R37): FAULT is set exactly while ERR names an error, and RESULT is then 0. -/
def FaultInv (s : State) : Prop := (s.fault = true ↔ s.err ≠ none) ∧ (s.fault = true → s.result = 0)

/-- The lifecycle (spec/60_exceptions.md R220, spec/42_decode.md R140): what each MODE promises. -/
def LifecycleInv (s : State) : Prop :=
  (s.mode = .idle → s.bcProd = 0 ∧ s.ovf = false) ∧
    (s.mode = .decoding → s.rateValid = true ∧ s.stratValid = true) ∧
      (s.mode = .decoded → s.rateValid = true) ∧ (s.mode = .done → s.rateValid = true ∧ s.ovf = false)

/-- The divisors of a running loop decode are never 0 (spec/00_scope.md R9, spec/10_state.md R31, R33). -/
def DivisorInv (s : State) : Prop := s.mode = .decoding → s.strat ≠ tagFw → s.lidiv ≠ 0 ∧ s.lediv ≠ 0

/-- PHASE and PE stay in their `W_ACC`-bit signed range (spec/42_decode.md R147). -/
def RangeInv (s : State) : Prop := fitsSigned s.params.wAcc s.phase = true ∧ fitsSigned s.params.wAcc s.pe = true

/-- Under the fixed window PHASE stays 0 and PE stays PERIOD (spec/42_decode.md R152, R153). -/
def FixedWindowInv (s : State) : Prop := s.mode = .decoding → s.strat = tagFw → s.phase = 0 ∧ s.pe = zext s.period

/-- PEND is empty or holds the first word of a long command (spec/10_state.md R23). -/
def PendingInv (s : State) : Prop := ∀ w ∈ s.pend, isLong w = true

/-- Every set bit of the buffer has an address below CAP that an emission has reached (spec/20_memory.md R50,
spec/40_buffer.md R107). -/
def BufferInv (s : State) : Prop := ∀ a, readBit s.buf a = true → a < zext s.cap ∧ a < zext s.bcProd

/-- The byte the acknowledged writes of a log, in order, leave at address `a`. -/
def lastWritten (log : List SinkRecord) (a : Nat) : Option Byte :=
  log.foldl (fun held r => if r.acked = true ∧ r.addr = a then some r.byte else held) none

/-- The sink holds at each address the last acknowledged write, and lies below SINK_SIZE (spec/10_state.md R41,
spec/20_memory.md R53, R54). -/
def SinkInv (s : State) : Prop :=
  (∀ a, readSink s.sink a = lastWritten s.sinkLog a) ∧ ∀ a, readSink s.sink a ≠ none → a < s.params.sinkSize

/-- The invariants together, for legal parameters. -/
structure Inv (s : State) : Prop where
  legal : s.params.legal = true
  memory : Memory.wf s
  capacity : CapacityInv s
  overflow : OverflowInv s
  config : ConfigInv s
  fault : FaultInv s
  lifecycle : LifecycleInv s
  divisor : DivisorInv s
  range : RangeInv s
  fixedWindow : FixedWindowInv s
  pending : PendingInv s
  buffer : BufferInv s
  sink : SinkInv s

/-- The modes in which a command is legal: the table of spec/60_exceptions.md R214. -/
def legalMode : Instr → Mode → Bool
  | .nop, _ => true
  | .reset, _ => true
  | .create _, m => m != .decoding
  | .emit _, m => m == .ready
  | .bitcount, _ => true
  | .bitcounthi, _ => true
  | .readword _, m => m != .idle
  | .setrate _, m => m != .decoding
  | .setidiv _, m => m != .decoding
  | .setediv _, m => m != .decoding
  | .select _, m => m != .decoding
  | .start, m => m == .ready || m == .decoded || m == .done
  | .feed _, m => m == .decoding
  | .finish, m => m == .decoding
  | .rdphase, _ => true
  | .rdperiod, _ => true
  | .serialize, m => m == .ready || m == .decoded

/-- The causes of ConfigurationError: the table of spec/60_exceptions.md R211, in the tags and ranges of
spec/30_encoding.md R77, spec/40_buffer.md R103 and spec/41_strategy.md R121. -/
def configCause : Instr → State → Prop
  | .create c, s => (¬∃ k, zext c = 2 ^ k) ∨ s.params.maxCapBits < zext c
  | .setrate r, _ => zext r = 0 ∨ 36000 < zext r
  | .setidiv d, _ => sext d = 0
  | .setediv d, _ => sext d = 0
  | .select t, s => ¬(zext t = 0 ∨ zext t = 1 ∨ (2 ≤ zext t ∧ zext t ≤ 1 + s.params.presetTable.length))
  | .start, s =>
    s.rateValid = false ∨ s.stratValid = false ∨ (zext s.strat = 0 ∧ (s.idivValid = false ∨ s.edivValid = false))
  | .serialize, s => s.rateValid = false
  | .nop, _ => False
  | .reset, _ => False
  | .emit _, _ => False
  | .bitcount, _ => False
  | .bitcounthi, _ => False
  | .readword _, _ => False
  | .feed _, _ => False
  | .finish, _ => False
  | .rdphase, _ => False
  | .rdperiod, _ => False

/-- The assigned opcodes (spec/30_encoding.md R75). -/
def assignedOpcodes : List Nat :=
  [0x00, 0x01, 0x10, 0x11, 0x12, 0x13, 0x14, 0x20, 0x21, 0x22, 0x23, 0x30, 0x31, 0x32, 0x33, 0x34, 0x40]

/-- The number of low ARG bits spec/30_encoding.md R73 gives an operand; R74 makes every higher ARG bit must-be-zero. -/
def operandBits (opcode : Nat) : Nat :=
  if opcode = 0x11 then 1 else if opcode = 0x23 then 8 else if opcode = 0x20 ∨ opcode = 0x31 then 16 else 0

/-- The commands `is` executed one after the other, while each answers a next state. -/
def runAll : List Instr → State → Option State
  | [], s => some s
  | i :: is, s =>
    match exec i s with
    | .next t => runAll is t
    | .fault _ => none
    | .refused _ => none

/-- The commands of one decode over a sample sequence (spec/30_encoding.md R80 `DECODE`). -/
def decodeCommands (dts : List Half) : List Instr := .start :: dts.map .feed ++ [.finish]

/-- What a decode run may depend on (spec/41_strategy.md R127): the configuration registers, the parameters, the buffer's
size, and that the block is not in the fault state. -/
def SameConfiguration (s t : State) : Prop :=
  s.params = t.params ∧ s.fault = t.fault ∧ s.cap = t.cap ∧ s.period = t.period ∧ s.rateValid = t.rateValid ∧
    s.idiv = t.idiv ∧ s.idivValid = t.idivValid ∧ s.ediv = t.ediv ∧ s.edivValid = t.edivValid ∧
      s.strat = t.strat ∧ s.stratValid = t.stratValid

/-- A freshly cleared buffer (spec/40_buffer.md R101): no bit set, nothing emitted, no overflow. -/
def Cleared (s : State) : Prop := (∀ j, readBit s.buf j = false) ∧ s.bcProd = 0 ∧ s.ovf = false

/-- SERIALIZE's normal case (spec/43_serialize.md R180): a legal mode, a bit rate, no overflow, and a sink that holds and
acknowledges every byte of the image. -/
def Serializable (s : State) : Prop :=
  s.fault = false ∧ (s.mode = .ready ∨ s.mode = .decoded) ∧ s.rateValid = true ∧ s.ovf = false ∧
    (∀ w ∈ imageWrites s, w.1 < s.params.sinkSize) ∧
      ∀ a ∈ s.sinkAnswers.take (imageWrites s).length, a = .acked

/-- The sink address of track-data byte `k` (spec/43_serialize.md R186). -/
def trackAddr (k : Nat) : Nat := 0x400 + 512 * (k / 256) + k % 256

/-- Stream bit `j` as an independent reader takes it from the sink (spec/43_serialize.md R192): bit `j mod 8` of
track-data byte `j div 8`. -/
def trackBit (m : SinkMem) (j : Nat) : Option Bool := (readSink m (trackAddr (j / 8))).map fun b => b.getLsbD (j % 8)

/-- The number of 32-bit words SERIALIZE writes (spec/43_serialize.md R181). -/
def serializedWords (s : State) : Nat := wordCountOf s.params.tailPolicy (byteCountOf (zext s.bcProd))

/-- The phase error and zeros of a FLOOR step 2 from the advanced phase `p`, in closed form (spec/42_decode.md R154). -/
def floorZeros (dt : Nat) (p pe : Int) : Nat := if dt = 0 ∨ p < pe then 0 else (p / pe).toNat

/-- The new PHASE of step 4 by the table of spec/42_decode.md R145. -/
def newPhase (s : State) (e : Int) : Int :=
  match s.params.phaseCarry with
  | .quotient => Int.tdiv e (sext s.lediv)
  | .remainder => e - Int.tdiv e (sext s.lediv)

/-- The new PE of step 5 (spec/42_decode.md R146). -/
def newPeriod (s : State) (e : Int) : Int := s.pe + Int.tdiv e (sext s.lidiv)

/-- Every value steps 4 and 5 compute from the error `e` fits `W_ACC` signed bits (spec/42_decode.md R147). -/
def LoopInRange (s : State) (e : Int) : Prop :=
  fitsSigned s.params.wAcc (Int.tdiv e (sext s.lediv)) = true ∧ fitsSigned s.params.wAcc (newPhase s e) = true ∧
    fitsSigned s.params.wAcc (Int.tdiv e (sext s.lidiv)) = true ∧ fitsSigned s.params.wAcc (newPeriod s e) = true

/-- The most bits a FEED emits (spec/42_decode.md R155): an interval's bitcells under the fixed window; a loop's whole
periods in the advanced phase, and one. -/
def feedBound (dt : Nat) (s : State) : Nat :=
  if s.strat = tagFw then (2 * dt + zext s.period) / (2 * zext s.period)
  else (if 1 ≤ s.pe then ((s.phase + dt) / s.pe).toNat else 0) + 1

/-- The bits of a FEED, or a front of them: zeros, and then a 1 or not yet (spec/42_decode.md R154). -/
def ZerosThenOne (bits : List Bool) : Prop :=
  ∃ n, bits = List.replicate n false ∨ bits = List.replicate n false ++ [true]

/-- A running loop decode that is not in the fault state. -/
def LoopRunning (s : State) : Prop := s.fault = false ∧ s.mode = .decoding ∧ s.strat ≠ tagFw

/-- What steps 2 and 3 of a FLOOR FEED come to from an advanced phase in range (spec/42_decode.md R142 to R144, R154):
`k` zeros before the 1, and the phase error `e`. -/
def FloorStep (dt : Half) (s : State) (k : Nat) (e : Int) : Prop :=
  s.params.loopWindow = .floor ∧ (zext dt ≠ 0 → 1 ≤ s.pe ∨ s.phase + zext dt < s.pe) ∧
    fitsSigned s.params.wAcc (s.phase + zext dt) = true ∧ k = floorZeros (zext dt) (s.phase + zext dt) s.pe ∧
      e = s.phase + zext dt - k * s.pe

/-- The same of a CENTRED FEED (spec/42_decode.md R148), where the first subtraction is in range too. -/
def CentredStep (dt : Half) (s : State) (k : Nat) (e : Int) : Prop :=
  s.params.loopWindow = .centred ∧ fitsSigned s.params.wAcc (s.phase + zext dt) = true ∧
    fitsSigned s.params.wAcc (s.phase + zext dt - s.pe) = true ∧ fitsSigned s.params.wAcc s.pe = true ∧
      e = s.phase + zext dt - (k + 1) * s.pe ∧ (zext dt = 0 → k = 0) ∧
        (zext dt ≠ 0 → 2 * e < s.pe ∧ (k = 0 ∨ (1 ≤ s.pe ∧ -s.pe ≤ 2 * e)))

/-- The mnemonic of a command (spec/30_encoding.md R75). -/
def mnemonicOf : Instr → Mnemonic
  | .nop => .nop
  | .reset => .reset
  | .create _ => .create
  | .emit _ => .emit
  | .bitcount => .bitcount
  | .bitcounthi => .bitcounthi
  | .readword _ => .readword
  | .setrate _ => .setrate
  | .setidiv _ => .setidiv
  | .setediv _ => .setediv
  | .select _ => .select
  | .start => .start
  | .feed _ => .feed
  | .finish => .finish
  | .rdphase => .rdphase
  | .rdperiod => .rdperiod
  | .serialize => .serialize

/-- The value of a command's operand, read as spec/30_encoding.md R73 reads it. -/
def operandValue : Instr → Option Int
  | .emit v => some v.toNat
  | .setrate r => some (zext r)
  | .select t => some (zext t)
  | .feed d => some (zext d)
  | .create c => some (zext c)
  | .readword k => some (zext k)
  | .setidiv d => some (sext d)
  | .setediv d => some (sext d)
  | .nop | .reset | .bitcount | .bitcounthi | .start | .finish | .rdphase | .rdperiod | .serialize => none

/-- A line assembles to one command of mnemonic `m` whose operand has the value `v`. -/
def AssemblesTo (l : AsmLine) (m : Mnemonic) (v : Option Int) : Prop :=
  ∃ i, assembleLine l = some [i] ∧ mnemonicOf i = m ∧ operandValue i = v

end Sys2Proof.Safety
end

