-- ==== Sys2Proof/Certificates/Slice0/Obligations.lean ====
section
/-! DEFINITION. The statements for the provers, from the numbered rules of spec/. -/

open Sys2Proof Sys2Proof.Machine Sys2Proof.Safety

/-! Encoding. -/

/-- R70 to R75: the words of every command, at every operand value, decode to it; a short command whatever word stands
after it. -/
def Obligations.DecodeOfEncodeIsIdentity : Prop :=
  ∀ (i : Instr) (next : Word),
    decodeCommand (firstWord i) ((literalOf i).getD next) = .instr i ∧
      isLong (firstWord i) = (literalOf i).isSome

/-- R78: a command is read from one encoding only: whatever decodes to `i` is the word of `i`, with its literal. -/
def Obligations.EncodeOfDecodeIsIdentity : Prop :=
  ∀ (w lit : Word) (i : Instr), decodeCommand w lit = .instr i →
    firstWord i = w ∧ (if isLong w then literalOf i = some lit else literalOf i = none)

/-- R55, R71: on a little-endian byte transport (log entry 17) the first command of a stream is read whole, and the rest is left. -/
def Obligations.ByteStreamReadsOneCommand : Prop :=
  ∀ (i : Instr) (rest : List Byte), decodeBytes (encodeBytes i ++ rest) = .command (.instr i) rest

/-- R72: the four long opcodes, on the word as a number; every other opcode is short. -/
def Obligations.LengthDecidedByOpcode : Prop :=
  ∀ w : Word, isLong w = true ↔
    zext w / 2 ^ 24 = 0x10 ∨ zext w / 2 ^ 24 = 0x14 ∨ zext w / 2 ^ 24 = 0x21 ∨ zext w / 2 ^ 24 = 0x22

/-- R75: words written out from the opcode map, one per family. -/
def Obligations.WordsOfTheOpcodeMap : Prop :=
  decodeCommand 0x01000000 0 = .instr .reset ∧ decodeCommand 0x10000000 0x20 = .instr (.create 32) ∧
    decodeCommand 0x11000001 0 = .instr (.emit true) ∧ decodeCommand 0x20000168 0 = .instr (.setrate 360) ∧
      decodeCommand 0x21000000 0xFFFFFFFF = .instr (.setidiv (-1)) ∧ decodeCommand 0x31000064 0 = .instr (.feed 100) ∧
        decodeCommand 0x40000000 0 = .instr .serialize

/-- R74, R76: a word is no command exactly when its opcode is unassigned or a must-be-zero bit is set. -/
def Obligations.IllegalEncodings : Prop :=
  ∀ w lit : Word,
    (decodeCommand w lit = .unassignedOpcode ↔ zext w / 2 ^ 24 ∉ assignedOpcodes) ∧
      (decodeCommand w lit = .mustBeZero ↔
        zext w / 2 ^ 24 ∈ assignedOpcodes ∧
          zext w % 2 ^ 24 / 2 ^ operandBits (zext w / 2 ^ 24) ≠ 0)

/-! Fetch and step. -/

/-- R71, R78: a step executes the command at the port: one word; a word and its literal; or the literal of a pending
word. It takes the words and advances CP by their number (R22), and nothing is pending after. -/
def Obligations.StepRunsDecodedCommand : Prop :=
  ∀ (s : State) (w lit : Word) (rest : List HostInput) (i : Instr),
    (s.pend = none → s.hostIn = .word w :: rest → isLong w = false → decodeCommand w 0 = .instr i →
        step s = exec i { s with hostIn := rest, pend := none, cp := s.cp + 1 }) ∧
      (s.pend = none → s.hostIn = .word w :: .word lit :: rest → isLong w = true → decodeCommand w lit = .instr i →
        step s = exec i { s with hostIn := rest, pend := none, cp := s.cp + 2 }) ∧
        (s.pend = some w → s.hostIn = .word lit :: rest → decodeCommand w lit = .instr i →
          step s = exec i { s with hostIn := rest, pend := none, cp := s.cp + 1 })

/-- R215, R74, R76: outside the fault state a word with an unassigned opcode, or with a must-be-zero bit set, raises
IllegalCommand; an illegal long command takes its literal first, whether the literal is there or still to come. -/
def Obligations.IllegalWordRaisesIllegalCommand : Prop :=
  ∀ (s : State) (w lit : Word) (rest : List HostInput), s.fault = false →
    (zext w / 2 ^ 24 ∉ assignedOpcodes ∨
      zext w % 2 ^ 24 / 2 ^ operandBits (zext w / 2 ^ 24) ≠ 0) →
    (s.pend = none → isLong w = false → s.hostIn = .word w :: rest →
        step s = .next (takeError .illegalCommand { s with hostIn := rest, pend := none, cp := s.cp + 1 })) ∧
      (s.pend = none → isLong w = true → s.hostIn = .word w :: .word lit :: rest →
        step s = .next (takeError .illegalCommand { s with hostIn := rest, pend := none, cp := s.cp + 2 })) ∧
        (s.pend = some w → s.hostIn = .word lit :: rest →
          step s = .next (takeError .illegalCommand { s with hostIn := rest, pend := none, cp := s.cp + 1 }))

/-- R23, R71: the first word of a long command alone gives no response and is held in PEND; when its literal arrives the
step ends in the state it would have ended in had both words been there. -/
def Obligations.LiteralMayArriveLater : Prop :=
  ∀ (s : State) (w : Word), s.pend = none → s.hostIn = [.word w] → isLong w = true →
    ∃ t, step s = .next t ∧ t = { s with hostIn := [], pend := some w, cp := s.cp + 1 } ∧
      ∀ lit : Word, step { t with hostIn := [.word lit] } = step { s with hostIn := [.word w, .word lit] }

/-- R240, R40: a pulse of the reset input (log entry 13) gives every block register its reset value, sends no response and leaves the
sink. -/
def Obligations.HardwareResetEstablishesResetState : Prop :=
  ∀ (s : State) (rest : List HostInput), s.hostIn = .resetPulse :: rest →
    ∃ t, step s = .next t ∧ t.responses = s.responses ∧ t.hostIn = rest ∧ t.sink = s.sink ∧ t.sinkLog = s.sinkLog ∧
      t.cp = 0 ∧ t.pend = none ∧ t.mode = .idle ∧ t.fault = false ∧ t.err = none ∧ t.cap = 0 ∧ t.bcProd = 0 ∧
        t.ovf = false ∧ t.rate = 0 ∧ t.period = 0 ∧ t.rateValid = false ∧ t.idiv = 0 ∧ t.idivValid = false ∧
          t.ediv = 0 ∧ t.edivValid = false ∧ t.strat = 0 ∧ t.stratValid = false ∧ t.lidiv = 0 ∧ t.lediv = 0 ∧
            t.phase = 0 ∧ t.pe = 0 ∧ t.result = 0

/-- R244: two RESET words in a row end in the reset state, whatever was pending. That the buffer is then the model's empty
list, where R40 gives BUF no value, is the model's choice (log entry 8). -/
def Obligations.TwoResetWordsResynchronise : Prop :=
  ∀ s : State, PendingInv s → s.hostIn = [.word 0x01000000, .word 0x01000000] →
    ∃ t u, step s = .next t ∧ step t = .next u ∧
      u = { State.reset with
            params := s.params, responses := u.responses, sink := s.sink, sinkLog := s.sinkLog
            sinkAnswers := s.sinkAnswers } ∧
        u.responses.getLast? = some ⟨0, 0⟩

/-- R245, R38: a command gives exactly one response, its RESULT and STATUS, with REFUSED exactly for a command other than
RESET in the fault state; a step without a command gives none. -/
def Obligations.OneResponsePerCommand : Prop :=
  ∀ s t : State, step s = .next t →
    match fetch s with
    | .noCommand _ => t.responses = s.responses
    | .command d _ =>
      t.responses = s.responses ++ [⟨t.result, statusWord t (s.fault && d != .instr .reset)⟩]

/-! Status and errors. -/

/-- R38, R24, R210: the fields of STATUS, bit by bit, with the codes of the five modes and of the seven values of ERR. -/
def Obligations.StatusWordLayout : Prop :=
  ∀ (s : State) (refused : Bool),
    zext ((statusWord s refused).extractLsb' 0 3) =
        (match s.mode with
          | .idle => 0
          | .ready => 1
          | .decoding => 2
          | .decoded => 3
          | .done => 4) ∧
      (statusWord s refused).getLsbD 3 = s.fault ∧
        zext ((statusWord s refused).extractLsb' 4 4) =
          (match s.err with
            | none => 0
            | some .configuration => 1
            | some .capacity => 2
            | some .io => 3
            | some .sequence => 4
            | some .illegalCommand => 5
            | some .arithmetic => 6) ∧
      (statusWord s refused).getLsbD 8 = s.ovf ∧
        (statusWord s refused).getLsbD 9 = s.rateValid ∧ (statusWord s refused).getLsbD 10 = s.stratValid ∧
          (statusWord s refused).getLsbD 11 = s.idivValid ∧ (statusWord s refused).getLsbD 12 = s.edivValid ∧
            (statusWord s refused).getLsbD 13 = refused ∧ (statusWord s refused).extractLsb' 14 18 = 0

/-- R217, R210: taking an error sets FAULT and the kind's code, clears RESULT, sends the response, and keeps every other
piece of state. -/
def Obligations.ErrorEntry : Prop :=
  ∀ (k : ErrKind) (s : State),
    takeError k s =
        { s with
          fault := true, err := some k, result := 0
          responses := s.responses ++ [⟨0, statusWord (takeError k s) false⟩] } ∧
      [ErrKind.configuration, .capacity, .io, .sequence, .illegalCommand, .arithmetic].map (fun k => zext (kindCode k)) =
        [1, 2, 3, 4, 5, 6]

/-- R218: in the fault state every command but RESET, and every illegal word, is refused: RESULT 0, the unchanged STATUS
with REFUSED = 1, and no other state touched; a long command only after its literal. RESET alone is carried out. That a refusal sets RESULT and that the
held word advances CP rests on log entry 10, and what RESET leaves in BUF on log entry 8. -/
def Obligations.FaultStateRefuses : Prop :=
  ∀ (i : Instr) (s : State), s.fault = true →
    (i ≠ .reset →
        exec i s = .next { s with result := 0, responses := s.responses ++ [⟨0, statusWord s true⟩] }) ∧
      illegalCommand s = .next { s with result := 0, responses := s.responses ++ [⟨0, statusWord s true⟩] } ∧
        exec .reset s = .next (respond (resetBlock s) 0 false) ∧
          statusWord s true = statusWord s false ||| 0x2000 ∧
            ∀ w, s.pend = none → s.hostIn = [.word w] → isLong w = true →
              step s = .next { s with hostIn := [], pend := some w, cp := s.cp + 1 }

/-- R219: a step from the fault state stays in it with the same ERR, unless the RESET command or the reset input brings
the block to its reset state. That the buffer is then the model's empty list, where R40 gives BUF no value, is the model's
choice (log entry 8); the reset input is a pulse (log entry 13). -/
def Obligations.OnlyResetLeavesFaultState : Prop :=
  ∀ s t : State, s.fault = true → step s = .next t →
    (t.fault = true ∧ t.err = s.err ∧
        t = { s with hostIn := t.hostIn, responses := t.responses, cp := t.cp, pend := t.pend, result := t.result }) ∨
      (((∃ rest, s.hostIn = .resetPulse :: rest) ∨ ∃ u, fetch s = .command (.instr .reset) u) ∧
        t = { State.reset with
              params := s.params, hostIn := t.hostIn, responses := t.responses, sink := s.sink, sinkLog := s.sinkLog
              sinkAnswers := s.sinkAnswers })

/-- R214: a command outside its legal modes raises SequenceError and changes nothing else; within them it never raises
SequenceError. -/
def Obligations.SequenceErrorExactlyOutsideLegalModes : Prop :=
  ∀ (i : Instr) (s : State), s.fault = false →
    (legalMode i s.mode = false → exec i s = .next (takeError .sequence s)) ∧
      (legalMode i s.mode = true → s.err = none → ∀ t, exec i s = .next t → t.err ≠ some .sequence)

/-- R211: in a legal mode a command raises ConfigurationError, changing nothing else, exactly for the causes of the
table. -/
def Obligations.ConfigurationErrorCauses : Prop :=
  ∀ (i : Instr) (s : State), s.fault = false → s.err = none → s.params.legal = true → ConfigInv s →
    legalMode i s.mode = true →
    (configCause i s → exec i s = .next (takeError .configuration s)) ∧
      (¬configCause i s → ∀ t, exec i s = .next t → t.err ≠ some .configuration)

/-- R212, R182, R220: SERIALIZE with every earlier check passed raises CapacityError, before any sink write, exactly when
OVF is set; no other command raises it, and it leaves no other effect. -/
def Obligations.CapacityErrorExactlyOnOverflow : Prop :=
  ∀ s : State, s.fault = false →
    (legalMode .serialize s.mode = true → s.rateValid = true → s.ovf = true →
        exec .serialize s = .next (takeError .capacity s)) ∧
      ∀ (i : Instr) (t : State), s.err = none → exec i s = .next t →
        (t.err = some .capacity ↔
            i = .serialize ∧ legalMode .serialize s.mode = true ∧ s.rateValid = true ∧ s.ovf = true) ∧
          (t.err = some .capacity → t = takeError .capacity s)

/-- R217, R221, R155: a command that ends in an error leaves no other effect, but for the bits a FEED emitted (zeros, and
then a 1 or not yet, no more than `feedBound`, every other bit of the buffer as before) and the sink bytes SERIALIZE wrote
(a front of the image, up to the write that failed, every other byte as before). How the answers of the sink are used up
and what its log holds of the failed write are the model's (log entries 4 and 5). -/
def Obligations.PartialEffectsOfErrors : Prop :=
  ∀ (i : Instr) (s t : State), s.fault = false → exec i s = .next t → t.fault = true →
    ∃ k u, t = takeError k u ∧
      (u = s ∨
        (∃ dt bits, i = .feed dt ∧ k = .arithmetic ∧ u = pushBits s bits ∧ ZerosThenOne bits ∧
          bits.length ≤ feedBound (zext dt) s ∧ zext s.bcProd + bits.length < 2 ^ 64 ∧
            (Memory.wf s → ∀ j,
              (∀ n < bits.length, maskAddr s.cap j ≠ maskAddr s.cap (zext s.bcProd + n)) →
                bufRead u j = bufRead s j)) ∨
          (i = .serialize ∧ k = .io ∧
            ∃ front a v back, imageWrites s = front ++ (a, v) :: back ∧ (∀ w ∈ front, w.1 < s.params.sinkSize) ∧
              (s.params.sinkSize ≤ a ∨ s.sinkAnswers[front.length]? = some .failed) ∧
                u.sinkLog = s.sinkLog ++ front.map (fun w => ⟨w.1, w.2, true⟩) ++ [⟨a, v, false⟩] ∧
                  (∀ w ∈ front, readSink u.sink w.1 = some w.2) ∧
                    (∀ b, (∀ w ∈ front, w.1 ≠ b) → readSink u.sink b = readSink s.sink b) ∧
                      (∃ m ≤ front.length + 1, u.sinkAnswers = s.sinkAnswers.drop m) ∧
                        u = { s with sink := u.sink, sinkLog := u.sinkLog, sinkAnswers := u.sinkAnswers }))

/-! The commands: what each does in its normal case. -/

/-- R200: NOP answers RESULT 0 and the current STATUS, and changes nothing else. -/
def Obligations.NopReportsStatus : Prop :=
  encode .nop = [0x00000000] ∧
    ∀ s : State, s.fault = false →
      exec .nop s = .next { s with result := 0, responses := s.responses ++ [⟨0, statusWord s false⟩] }

/-- R201: RESET, in every mode and in the fault state, gives every register of R40 its reset value and answers RESULT 0
and STATUS 0; the sink keeps what it holds. That the buffer is then the model's empty list, where R40 and R201 give BUF no
value, is the model's choice (log entry 8). -/
def Obligations.ResetRestoresEveryRegister : Prop :=
  encode .reset = [0x01000000] ∧
    ∀ s : State,
      exec .reset s = .next
        { State.reset with
          params := s.params, hostIn := s.hostIn, responses := s.responses ++ [⟨0, 0⟩]
          sink := s.sink, sinkLog := s.sinkLog, sinkAnswers := s.sinkAnswers }

/-- R103, R101: CREATE checks the mode, then the power of two, then the bound; then it makes a cleared buffer. -/
def Obligations.CreateMakesClearedBuffer : Prop :=
  ∀ (c : Word) (s : State), encode (.create c) = [0x10000000, c] ∧ (s.fault = false →
    (s.mode = .decoding → exec (.create c) s = .next (takeError .sequence s)) ∧
      (s.mode ≠ .decoding →
        ((¬∃ k, zext c = 2 ^ k) → exec (.create c) s = .next (takeError .configuration s)) ∧
          (s.params.maxCapBits < zext c → exec (.create c) s = .next (takeError .configuration s)) ∧
            ((∃ k, zext c = 2 ^ k) → zext c ≤ s.params.maxCapBits →
              ∃ t, exec (.create c) s = .next t ∧
                t = { s with
                      cap := c, buf := t.buf, bcProd := 0, ovf := false, mode := .ready, result := 0
                      responses := s.responses ++ [⟨0, statusWord t false⟩] } ∧
                  ∀ j, bufRead t j = false)))

/-- R104, R100: EMIT in READY puts its bit at `BC_PROD AND MASK`, counts it, and sets OVF if the buffer already held CAP
bits; at the counter's top it raises ArithmeticFault and changes nothing else. -/
def Obligations.EmitAppendsOneBit : Prop :=
  ∀ (v : Bool) (s : State), encode (.emit v) = [if v then 0x11000001 else 0x11000000] ∧ (s.fault = false →
    (s.mode ≠ .ready → exec (.emit v) s = .next (takeError .sequence s)) ∧
      (s.mode = .ready →
        (zext s.bcProd = 2 ^ 64 - 1 → exec (.emit v) s = .next (takeError .arithmetic s)) ∧
          (zext s.bcProd ≠ 2 ^ 64 - 1 →
            ∃ t, exec (.emit v) s = .next t ∧
              t = { s with
                    ovf := s.ovf || decide (zext s.cap ≤ zext s.bcProd), buf := t.buf, bcProd := t.bcProd
                    result := 0, responses := s.responses ++ [⟨0, statusWord t false⟩] } ∧
                zext t.bcProd = zext s.bcProd + 1 ∧
                  (Memory.wf s → ∀ j, bufRead t j =
                    if maskAddr s.cap j = maskAddr s.cap (zext s.bcProd) then v else bufRead s j))))

/-- R105, R106, R28: BITCOUNT and BITCOUNTHI answer the low and the high half of the production counter, in every mode. -/
def Obligations.CounterReads : Prop :=
  encode .bitcount = [0x12000000] ∧ encode .bitcounthi = [0x13000000] ∧
    ∀ s : State, s.fault = false →
      ∃ t u, exec .bitcount s = .next t ∧ exec .bitcounthi s = .next u ∧
        zext t.result = zext s.bcProd % 2 ^ 32 ∧ zext u.result = zext s.bcProd / 2 ^ 32 ∧
          t = { s with result := t.result, responses := s.responses ++ [⟨t.result, statusWord s false⟩] } ∧
            u = { s with result := u.result, responses := s.responses ++ [⟨u.result, statusWord s false⟩] }

/-- R107, R102, R52: READWORD answers the 32 bits at `32*IDX`, the bit at the lowest address most significant, every
address reduced modulo the capacity (a power of two, R26). -/
def Obligations.ReadwordReadsPhysicalWord : Prop :=
  ∀ (idx : Word) (s : State), encode (.readword idx) = [0x14000000, idx] ∧ (s.fault = false →
    (s.mode = .idle → exec (.readword idx) s = .next (takeError .sequence s)) ∧
      (s.mode ≠ .idle → (∃ k, zext s.cap = 2 ^ k) →
        ∃ t, exec (.readword idx) s = .next t ∧
          t = { s with result := t.result, responses := s.responses ++ [⟨t.result, statusWord s false⟩] } ∧
            ∀ b < 32, t.result.getLsbD (31 - b) = readBit s.buf ((32 * zext idx + b) % zext s.cap)))

/-- R121: SETRATE derives `floor(36000 / rate)`; a rate of 0 or above 36000 is a ConfigurationError. -/
def Obligations.SetrateDerivesPeriod : Prop :=
  ∀ (r : Half) (s : State), encode (.setrate r) = [0x20000000 ||| r.setWidth 32] ∧ (s.fault = false →
    (s.mode = .decoding → exec (.setrate r) s = .next (takeError .sequence s)) ∧
      (s.mode ≠ .decoding →
        (zext r = 0 ∨ 36000 < zext r → exec (.setrate r) s = .next (takeError .configuration s)) ∧
          (1 ≤ zext r → zext r ≤ 36000 →
            ∃ t, exec (.setrate r) s = .next t ∧ zext t.period = 36000 / zext r ∧
              t = { s with
                    rate := r, period := t.period, rateValid := true, result := t.period
                    responses := s.responses ++ [⟨t.period, statusWord t false⟩] })))

/-- R122, R123: SETIDIV and SETEDIV store a nonzero signed divisor, negative ones too, and refuse 0. -/
def Obligations.DivisorsAreStored : Prop :=
  ∀ (d : Word) (s : State),
    encode (.setidiv d) = [0x21000000, d] ∧ encode (.setediv d) = [0x22000000, d] ∧ (s.fault = false →
      (s.mode = .decoding →
          exec (.setidiv d) s = .next (takeError .sequence s) ∧ exec (.setediv d) s = .next (takeError .sequence s)) ∧
        (s.mode ≠ .decoding →
          (sext d = 0 →
              exec (.setidiv d) s = .next (takeError .configuration s) ∧
                exec (.setediv d) s = .next (takeError .configuration s)) ∧
            (sext d ≠ 0 →
              exec (.setidiv d) s = .next (respond { s with idiv := d, idivValid := true } 0 false) ∧
                exec (.setediv d) s = .next (respond { s with ediv := d, edivValid := true } 0 false))))

/-- R124, R77: SELECT takes the tags 0x00, 0x01 and `0x02 .. 0x01 + N` for `N` presets, and refuses every other. -/
def Obligations.SelectTakesNamedTags : Prop :=
  ∀ (tag : Byte) (s : State), encode (.select tag) = [0x23000000 ||| tag.setWidth 32] ∧
    (s.fault = false → s.params.legal = true →
      (s.mode = .decoding → exec (.select tag) s = .next (takeError .sequence s)) ∧
        (s.mode ≠ .decoding →
          exec (.select tag) s =
            if zext tag = 0 ∨ zext tag = 1 ∨ (2 ≤ zext tag ∧ zext tag ≤ 1 + s.params.presetTable.length)
            then .next (respond { s with strat := tag, stratValid := true } 0 false)
            else .next (takeError .configuration s)))

/-- R140, R149: START checks the mode, then the configuration; with a complete configuration latches the strategy's divisors, clears the buffer, and sets PHASE to
0 and PE to PERIOD. -/
def Obligations.StartInitialisesDecode : Prop :=
  encode .start = [0x30000000] ∧
    ∀ s : State, s.fault = false →
      (s.mode = .idle ∨ s.mode = .decoding → exec .start s = .next (takeError .sequence s)) ∧
        (s.mode ≠ .idle → s.mode ≠ .decoding →
          (s.rateValid = false ∨ s.stratValid = false → exec .start s = .next (takeError .configuration s)) ∧
            (s.rateValid = true → s.stratValid = true →
              (zext s.strat = 0 → s.idivValid = false ∨ s.edivValid = false →
                  exec .start s = .next (takeError .configuration s)) ∧
                ∀ li le : Word, zext s.strat < 0x80 →
                  ((zext s.strat = 0 ∧ s.idivValid = true ∧ s.edivValid = true ∧ li = s.idiv ∧ le = s.ediv) ∨
                    (zext s.strat = 1 ∧ li = 0 ∧ le = 0) ∨
                      (2 ≤ zext s.strat ∧ ∃ p, s.params.presetTable[zext s.strat - 2]? = some p ∧
                        li = p.integralDiv ∧ le = p.errorDiv)) →
                  ∃ t, exec .start s = .next t ∧
                    t = { s with
                          lidiv := li, lediv := le, phase := 0, pe := zext s.period, mode := .decoding, buf := t.buf
                          bcProd := 0, ovf := false, result := 0
                          responses := s.responses ++ [⟨0, statusWord t false⟩] } ∧
                      ∀ j, bufRead t j = false))

/-- R151: FINISH ends the decode and answers the low half of the counter; it does not check for overflow. -/
def Obligations.FinishReturnsBitcellCount : Prop :=
  encode .finish = [0x32000000] ∧
    ∀ s : State, s.fault = false →
      (s.mode ≠ .decoding → exec .finish s = .next (takeError .sequence s)) ∧
        (s.mode = .decoding →
          ∃ t, exec .finish s = .next t ∧ zext t.result = zext s.bcProd % 2 ^ 32 ∧
            t = { s with
                  mode := .decoded, result := t.result
                  responses := s.responses ++ [⟨t.result, statusWord t false⟩] })

/-- R152, R153: RDPHASE and RDPERIOD answer PHASE and PE modulo 2^32, in every mode. -/
def Obligations.LoopRegisterReads : Prop :=
  encode .rdphase = [0x33000000] ∧ encode .rdperiod = [0x34000000] ∧
    ∀ s : State, s.fault = false →
      ∃ t u, exec .rdphase s = .next t ∧ exec .rdperiod s = .next u ∧
        (zext t.result : Int) = s.phase % 2 ^ 32 ∧ (zext u.result : Int) = s.pe % 2 ^ 32 ∧
          t = { s with result := t.result, responses := s.responses ++ [⟨t.result, statusWord s false⟩] } ∧
            u = { s with result := u.result, responses := s.responses ++ [⟨u.result, statusWord s false⟩] }

/-- R150: a fixed-window FEED rounds `dt / PERIOD`, halves up, to `n` bitcells and emits `n - 1` zeros and a 1, or
nothing for `n = 0`; PHASE and PE are untouched, and the one error is ArithmeticFault at the counter's top. -/
def Obligations.FixedWindowFeedEmitsInterval : Prop :=
  ∀ (dt : Half) (s : State) (n : Nat) (bits : List Bool), s.fault = false → s.mode = .decoding → s.strat = 0x01 →
    1 ≤ zext s.period → 2 * n * zext s.period ≤ 2 * zext dt + zext s.period →
    2 * zext dt + zext s.period < 2 * (n + 1) * zext s.period →
    bits = (if n = 0 then [] else List.replicate (n - 1) false ++ [true]) →
    (zext s.bcProd + n < 2 ^ 64 →
        ∃ t, exec (.feed dt) s = .next t ∧ t.phase = s.phase ∧ t.pe = s.pe ∧
          t = respond (pushBits s bits) (BitVec.ofNat 32 n) false) ∧
      (2 ^ 64 ≤ zext s.bcProd + n →
        exec (.feed dt) s = .next (takeError .arithmetic (pushBits s (bits.take (2 ^ 64 - 1 - zext s.bcProd)))))

/-- R142, R144, R145, R146: a FLOOR FEED in its normal case emits its zeros and one 1, and commits the corrected PHASE
and PE; the zeros are `floor((PHASE + dt) / PE)`, or none below PE or for `dt = 0`. -/
def Obligations.FloorFeedTracks : Prop :=
  ∀ (dt : Half) (s : State) (k : Nat) (e : Int), LoopRunning s → s.params.loopWindow = .floor →
    (zext dt ≠ 0 → 1 ≤ s.pe ∨ s.phase + zext dt < s.pe) →
    fitsSigned s.params.wAcc (s.phase + zext dt) = true →
    k = floorZeros (zext dt) (s.phase + zext dt) s.pe → e = s.phase + zext dt - k * s.pe →
    LoopInRange s e → zext s.bcProd + k + 1 < 2 ^ 64 →
    exec (.feed dt) s = .next
      (respond { pushBits s (List.replicate k false ++ [true]) with phase := newPhase s e, pe := newPeriod s e }
        (BitVec.ofNat 32 (k + 1)) false)

/-- R148: a CENTRED FEED in its normal case emits `k` zeros and one 1, where the edge falls in cell `k`: the error `e` is
what is left past `k + 1` periods; for `dt ≠ 0` it is below half of PE, and unless it fell in the first cell at or above
minus half; for `dt = 0` one period is subtracted and no zero emitted. -/
def Obligations.CentredFeedTracks : Prop :=
  ∀ (dt : Half) (s : State) (k : Nat) (e : Int), LoopRunning s → s.params.loopWindow = .centred →
    fitsSigned s.params.wAcc (s.phase + zext dt) = true →
    fitsSigned s.params.wAcc (s.phase + zext dt - s.pe) = true → fitsSigned s.params.wAcc s.pe = true →
    e = s.phase + zext dt - (k + 1) * s.pe → (zext dt = 0 → k = 0) →
    (zext dt ≠ 0 → 2 * e < s.pe ∧ (k = 0 ∨ (1 ≤ s.pe ∧ -s.pe ≤ 2 * e))) →
    LoopInRange s e → zext s.bcProd + k + 1 < 2 ^ 64 →
    exec (.feed dt) s = .next
      (respond { pushBits s (List.replicate k false ++ [true]) with phase := newPhase s e, pe := newPeriod s e }
        (BitVec.ofNat 32 (k + 1)) false)

/-- R143 (and R148 for the centred window): a FEED whose step 2 would never end raises ArithmeticFault before it emits
any bit, PHASE and PE unchanged; so does an advanced phase outside the range (R147). Under FLOOR with `PE <= 0` and the
advanced phase below PE, step 2 does nothing and the FEED goes on to emit its 1. -/
def Obligations.LoopFaultsBeforeAnyBit : Prop :=
  ∀ (dt : Half) (s : State), LoopRunning s →
    (((zext dt ≠ 0 ∧ s.pe ≤ 0 ∧
          (if s.params.loopWindow = .floor then s.pe ≤ s.phase + zext dt
            else s.pe ≤ 2 * (s.phase + zext dt - s.pe))) ∨
        fitsSigned s.params.wAcc (s.phase + zext dt) = false) →
      exec (.feed dt) s = .next (takeError .arithmetic s)) ∧
      (s.params.loopWindow = .floor → s.pe ≤ 0 → s.phase + zext dt < s.pe →
        fitsSigned s.params.wAcc (s.phase + zext dt) = true → zext s.bcProd + 1 < 2 ^ 64 →
        ∃ t, exec (.feed dt) s = .next t ∧ zext t.bcProd = zext s.bcProd + 1)

/-- R147, R148: a loop FEED under either window whose corrections leave the range raises ArithmeticFault after its bits are
emitted; PHASE and PE keep their values. A CENTRED FEED whose first subtraction of PE leaves the range raises it before any
bit. -/
def Obligations.RangeFaultKeepsLoopRegisters : Prop :=
  ∀ (dt : Half) (s : State), LoopRunning s →
    (∀ (k : Nat) (e : Int), FloorStep dt s k e ∨ CentredStep dt s k e → ¬LoopInRange s e →
        zext s.bcProd + k + 1 < 2 ^ 64 →
        exec (.feed dt) s = .next (takeError .arithmetic (pushBits s (List.replicate k false ++ [true])))) ∧
      (s.params.loopWindow = .centred → fitsSigned s.params.wAcc (s.phase + zext dt - s.pe) = false →
        exec (.feed dt) s = .next (takeError .arithmetic s))

/-- R180, R193: SERIALIZE in its normal case writes every byte of the image in order, each acknowledged; ends in DONE; and
answers `byte_count`. That each write takes one answer from the list of the sink's answers is the model's (log entry 5). -/
def Obligations.SerializeWritesImage : Prop :=
  ∀ s : State, Serializable s →
    encode .serialize = [0x40000000] ∧
        ∃ t, exec .serialize s = .next t ∧ t.mode = .done ∧ t.result = BitVec.ofNat 32 ((zext s.bcProd + 7) / 8) ∧
          t.sinkLog = s.sinkLog ++ (imageWrites s).map (fun w => ⟨w.1, w.2, true⟩) ∧
            (∀ w ∈ imageWrites s, readSink t.sink w.1 = some w.2) ∧
              (∀ a, (∀ w ∈ imageWrites s, w.1 ≠ a) → readSink t.sink a = readSink s.sink a) ∧
                t = { s with
                      mode := .done, result := t.result, sink := t.sink, sinkLog := t.sinkLog
                      sinkAnswers := s.sinkAnswers.drop (imageWrites s).length
                      responses := s.responses ++ [⟨t.result, statusWord t false⟩] }

/-- R181, R183 to R188: the writes of an image in their order, `24 + 4*word_count` of them: the 20 header bytes, the 4 bytes of the track-table entry, then
four bytes for each word, word `i` at `0x400 + 512*floor(4i/256) + (4i mod 256)`, bit `m` of its byte `j` the buffer bit
at address `32i + 8j + m`, and 0 under ZERO_PAD where that index is at or past `bitcell_count`. -/
def Obligations.ImageWritesInOrder : Prop :=
  ∀ s : State, (imageWrites s).length = 24 + 4 * serializedWords s ∧
    serializedWords s =
      (if s.params.tailPolicy = .truncate then (zext s.bcProd + 7) / 8 / 4 else ((zext s.bcProd + 7) / 8 + 3) / 4) ∧
    (∀ i < serializedWords s, ∀ j < 4, ∃ v, (imageWrites s)[24 + (4 * i + j)]? =
        some (0x400 + 512 * (4 * i / 256) + 4 * i % 256 + j, v) ∧
      ∀ m < 8, v.getLsbD m =
        if s.params.tailPolicy = .zeroPad ∧ zext s.bcProd ≤ 32 * i + 8 * j + m then false
        else bufRead s (32 * i + 8 * j + m)) ∧
    (imageWrites s).take 24 =
      [(0x00, s.params.hfeMagic[0]), (0x01, s.params.hfeMagic[1]), (0x02, s.params.hfeMagic[2]),
        (0x03, s.params.hfeMagic[3]), (0x04, s.params.hfeMagic[4]), (0x05, s.params.hfeMagic[5]),
        (0x06, s.params.hfeMagic[6]), (0x07, s.params.hfeMagic[7]), (0x08, 0x00), (0x09, 0x01), (0x0A, 0x01),
        (0x0B, 0xFF), (0x0C, BitVec.ofNat 8 (zext s.rate % 256)), (0x0D, 0x01), (0x0E, 0x00), (0x0F, 0x00),
        (0x10, 0x07), (0x11, 0x00), (0x12, 0x01), (0x13, 0x00), (0x200, 0x02), (0x201, 0x00),
        (0x202, BitVec.ofNat 8 (2 * ((zext s.bcProd + 7) / 8) % 256)),
        (0x203, BitVec.ofNat 8 (2 * ((zext s.bcProd + 7) / 8) / 256 % 256))]

/-- R189, R213: when the write after `front` is answered *failed*, or lies at or beyond SINK_SIZE, SERIALIZE raises
IOError at it: the bytes of `front` are written and no later one, and MODE keeps its value. -/
def Obligations.FailedWriteRaisesIoError : Prop :=
  ∀ (s : State) (front back : List (Nat × Byte)) (a : Nat) (v : Byte), s.fault = false →
    (s.mode = .ready ∨ s.mode = .decoded) → s.rateValid = true → s.ovf = false →
    imageWrites s = front ++ (a, v) :: back → (∀ w ∈ front, w.1 < s.params.sinkSize) →
    (∀ x ∈ s.sinkAnswers.take front.length, x = .acked) →
    (s.params.sinkSize ≤ a ∨ s.sinkAnswers[front.length]? = some .failed) →
    ∃ u, exec .serialize s = .next (takeError .io u) ∧
      u.sinkLog.filter (·.acked) = s.sinkLog.filter (·.acked) ++ front.map (fun w => ⟨w.1, w.2, true⟩) ∧
        u.sinkLog.length ≤ s.sinkLog.length + front.length + 1 ∧
        (∀ w ∈ front, readSink u.sink w.1 = some w.2) ∧
          (∀ b, (∀ w ∈ front, w.1 ≠ b) → readSink u.sink b = readSink s.sink b) ∧
            u = { s with sink := u.sink, sinkLog := u.sinkLog, sinkAnswers := u.sinkAnswers }

/-- R250: a sink that never acknowledges the write after `front` leaves SERIALIZE waiting, which the model shows as a fault
of its own (log entry 15). -/
def Obligations.SilentSinkLeavesSerializeWaiting : Prop :=
  ∀ (s : State) (front back : List (Nat × Byte)) (a : Nat) (v : Byte), s.fault = false →
    (s.mode = .ready ∨ s.mode = .decoded) → s.rateValid = true → s.ovf = false →
    imageWrites s = front ++ (a, v) :: back → (∀ w ∈ front, w.1 < s.params.sinkSize) → a < s.params.sinkSize →
    (∀ x ∈ s.sinkAnswers.take front.length, x = .acked) → s.sinkAnswers[front.length]? = some .never →
    exec .serialize s = .fault .sinkNeverAcknowledges

/-! Frames. -/

/-- NOP, BITCOUNT, BITCOUNTHI, READWORD, RDPHASE, RDPERIOD (R59): nothing changes but RESULT, the response, and FAULT and
ERR when the command raises; no byte of the sink and no bit of the buffer. -/
def Obligations.ReaderFrame : Prop :=
  ∀ (i : Instr) (s t : State),
    (i = .nop ∨ i = .bitcount ∨ i = .bitcounthi ∨ (∃ k, i = .readword k) ∨ i = .rdphase ∨ i = .rdperiod) →
    exec i s = .next t →
    t = { s with result := t.result, responses := t.responses, fault := t.fault, err := t.err } ∧
      (∀ j, bufRead t j = bufRead s j) ∧ ∀ a, readSink t.sink a = readSink s.sink a

/-- SETRATE, SETIDIV, SETEDIV, SELECT (R121 to R124): nothing changes but the registers the command sets with their VALID
bit, RESULT, the response, and FAULT and ERR when it raises. -/
def Obligations.ConfigurationFrame : Prop :=
  ∀ (s t : State),
    (∀ r, exec (.setrate r) s = .next t →
        t = { s with
              rate := t.rate, period := t.period, rateValid := t.rateValid, result := t.result
              responses := t.responses, fault := t.fault, err := t.err }) ∧
      (∀ d, exec (.setidiv d) s = .next t →
        t = { s with
              idiv := t.idiv, idivValid := t.idivValid, result := t.result, responses := t.responses
              fault := t.fault, err := t.err }) ∧
        (∀ d, exec (.setediv d) s = .next t →
          t = { s with
                ediv := t.ediv, edivValid := t.edivValid, result := t.result, responses := t.responses
                fault := t.fault, err := t.err }) ∧
          (∀ g, exec (.select g) s = .next t →
            t = { s with
                  strat := t.strat, stratValid := t.stratValid, result := t.result, responses := t.responses
                  fault := t.fault, err := t.err }) ∧
            ∀ i, ((∃ r, i = .setrate r) ∨ (∃ d, i = .setidiv d) ∨ (∃ d, i = .setediv d) ∨ ∃ g, i = .select g) →
              exec i s = .next t →
              (∀ j, bufRead t j = bufRead s j) ∧ ∀ a, readSink t.sink a = readSink s.sink a

/-- CREATE, START, FINISH (R103, R140, R151): the registers each may change; no byte of the sink; and FINISH no bit of the
buffer. -/
def Obligations.BufferSetupFrame : Prop :=
  ∀ s t : State,
    (∀ c, exec (.create c) s = .next t →
        t = { s with
              cap := t.cap, mode := t.mode, buf := t.buf, bcProd := t.bcProd, ovf := t.ovf, result := t.result
              responses := t.responses, fault := t.fault, err := t.err } ∧
          ∀ a, readSink t.sink a = readSink s.sink a) ∧
      (exec .start s = .next t →
        t = { s with
              lidiv := t.lidiv, lediv := t.lediv, phase := t.phase, pe := t.pe, mode := t.mode, buf := t.buf
              bcProd := t.bcProd, ovf := t.ovf, result := t.result, responses := t.responses, fault := t.fault
              err := t.err } ∧
          ∀ a, readSink t.sink a = readSink s.sink a) ∧
        (exec .finish s = .next t →
          t = { s with
                mode := t.mode, result := t.result, responses := t.responses, fault := t.fault, err := t.err } ∧
            (∀ j, bufRead t j = bufRead s j) ∧ ∀ a, readSink t.sink a = readSink s.sink a)

/-- EMIT and FEED (R104, R141, R142): the registers each may change; no byte of the sink; and every bit of the buffer as
before but at the addresses `(BC_PROD + n) AND MASK` of the bits emitted, `n` below the counter's advance. -/
def Obligations.EmissionFrame : Prop :=
  ∀ (i : Instr) (s t : State), Memory.wf s → ((∃ v, i = .emit v) ∨ ∃ dt, i = .feed dt) → exec i s = .next t →
    t = { s with
          ovf := t.ovf, buf := t.buf, bcProd := t.bcProd, phase := t.phase, pe := t.pe, result := t.result
          responses := t.responses, fault := t.fault, err := t.err } ∧
      ((∃ v, i = .emit v) → t.phase = s.phase ∧ t.pe = s.pe) ∧
        (s.strat = tagFw → t.phase = s.phase ∧ t.pe = s.pe) ∧
          (∀ a, readSink t.sink a = readSink s.sink a) ∧ zext s.bcProd ≤ zext t.bcProd ∧
            ∀ j, (∀ n < zext t.bcProd - zext s.bcProd, maskAddr s.cap j ≠ maskAddr s.cap (zext s.bcProd + n)) →
              bufRead t j = bufRead s j

/-- SERIALIZE (R180, R59): the buffer and every register but MODE, RESULT, FAULT and ERR stay; every sink byte outside the
image stays. -/
def Obligations.SerializeFrame : Prop :=
  ∀ s t : State, exec .serialize s = .next t →
    t = { s with
          mode := t.mode, result := t.result, responses := t.responses, fault := t.fault, err := t.err
          sink := t.sink, sinkLog := t.sinkLog, sinkAnswers := t.sinkAnswers } ∧
      (∀ j, bufRead t j = bufRead s j) ∧
        ∀ a, (∀ w ∈ imageWrites s, w.1 ≠ a) → readSink t.sink a = readSink s.sink a

/-- R190: SERIALIZE, even when it fails, never writes the rest of the header block, the rest of the track-list block, a
second-side chunk, or a track-data byte past the last word; a reader of the sink sees SINK_FILL where nothing was
written (an opaque function of the address: log entry 7). -/
def Obligations.BytesNeverWritten : Prop :=
  ∀ (s t : State) (a : Nat), exec .serialize s = .next t →
    ((0x14 ≤ a ∧ a ≤ 0x1FF) ∨ (0x204 ≤ a ∧ a ≤ 0x3FF) ∨
      (∃ c, 0x400 + 512 * c + 256 ≤ a ∧ a ≤ 0x400 + 512 * c + 511) ∨
        ∃ k, 4 * serializedWords s ≤ k ∧ a = trackAddr k) →
    readSink t.sink a = readSink s.sink a ∧ (readSink s.sink a = none → sinkView t.sink a = Config.sinkFill a)

/-- R53, R50: only SERIALIZE reaches the sink, and only CREATE, START, EMIT, FEED and a reset change the buffer. -/
def Obligations.WhoReachesTheMemories : Prop :=
  ∀ (i : Instr) (s t : State), exec i s = .next t →
    (i ≠ .serialize → t.sink = s.sink ∧ t.sinkLog = s.sinkLog ∧ t.sinkAnswers = s.sinkAnswers) ∧
      (i ≠ .reset → i ≠ .start → (∀ c, i ≠ .create c) → (∀ v, i ≠ .emit v) → (∀ dt, i ≠ .feed dt) → t.buf = s.buf)

/-! The buffer as a stream. -/

/-- R108: up to CAP bits emitted into a cleared buffer read back in emission order, word by word, and the counter is their
number. -/
def Obligations.EmittedBitsReadBack : Prop :=
  ∀ (s : State) (bits : List Bool), Memory.wf s → Cleared s → (∃ k, zext s.cap = 2 ^ k) →
    bits.length ≤ zext s.cap →
    zext (pushBits s bits).bcProd = bits.length ∧ (pushBits s bits).ovf = false ∧
      ∀ t (h : t < bits.length), (wordAt (pushBits s bits) (t / 32)).getLsbD (31 - t % 32) = bits[t]

/-- R65: after any emissions into a cleared buffer, bit address `j` holds the last bit whose index is congruent to `j`
modulo CAP, and 0 if there is none. -/
def Obligations.WrappedBufferHoldsLatestBits : Prop :=
  ∀ (s : State) (bits : List Bool) (j : Nat), Memory.wf s → Cleared s → (∃ k, zext s.cap = 2 ^ k) →
    bits.length < 2 ^ 64 → j < zext s.cap →
    ((∀ n < bits.length, n % zext s.cap ≠ j) → bufRead (pushBits s bits) j = false) ∧
      ∀ n (h : n < bits.length), n % zext s.cap = j → (∀ m, n < m → m < bits.length → m % zext s.cap ≠ j) →
        bufRead (pushBits s bits) j = bits[n]

/-- R191: after SERIALIZE, bit `j mod 8` of track-data byte `j div 8` is the buffer bit at `j AND MASK`; under ZERO_PAD the
bits at or past `bitcell_count` are 0. -/
def Obligations.TrackBitPlacement : Prop :=
  ∀ s : State, Serializable s →
    ∃ t, exec .serialize s = .next t ∧
      ∀ j < 32 * serializedWords s,
        trackBit t.sink j =
          some (if s.params.tailPolicy = .zeroPad ∧ zext s.bcProd ≤ j then false else bufRead s j)

/-- R192: an independent reader of the image gets the emitted bits back in order: every serialized one, which under
ZERO_PAD are all. -/
def Obligations.SerializerRoundTrip : Prop :=
  ∀ (s : State) (bits : List Bool), Memory.wf s → Cleared s → (∃ k, zext s.cap = 2 ^ k) →
    bits.length ≤ zext s.cap → Serializable (pushBits s bits) →
    ∃ t, exec .serialize (pushBits s bits) = .next t ∧
      (∀ j (h : j < bits.length), j < 32 * serializedWords (pushBits s bits) → trackBit t.sink j = some bits[j]) ∧
        (s.params.tailPolicy = .zeroPad → bits.length ≤ 32 * serializedWords (pushBits s bits)) ∧
          (s.params.tailPolicy = .truncate →
            serializedWords (pushBits s bits) = (bits.length + 7) / 8 / 4)

/-! Whole runs and whole machine. -/

/-- R127: a decode depends on nothing but its configuration and its samples: from any two states that agree on them, the
same START, FEEDs and FINISH run, fault both or neither, and when they do not fault end in the same buffer, count, OVF,
PHASE, PE and result. That the buffers agree as the model's lists, bits at or above CAP included, is the model's (log
entry 8). -/
def Obligations.DecodeIsIndependent : Prop :=
  ∀ (s₁ s₂ : State) (dts : List Half), SameConfiguration s₁ s₂ → s₁.fault = false →
    legalMode .start s₁.mode = true → legalMode .start s₂.mode = true →
    ∃ t₁ t₂, runAll (decodeCommands dts) s₁ = some t₁ ∧ runAll (decodeCommands dts) s₂ = some t₂ ∧
      t₁.fault = t₂.fault ∧
        (t₁.fault = false →
          t₁.mode = .decoded ∧ t₂.mode = .decoded ∧ t₁.buf = t₂.buf ∧ t₁.bcProd = t₂.bcProd ∧ t₁.ovf = t₂.ovf ∧
            t₁.phase = t₂.phase ∧ t₁.pe = t₂.pe ∧ t₁.result = t₂.result)

/-- R109, R29: every step keeps OVF equal to `BC_PROD > CAP`. -/
def Obligations.StepKeepsOverflowExact : Prop := ∀ s t : State, OverflowInv s → step s = .next t → OverflowInv t

/-- Every step keeps both memories in the model's canonical form (log entry 8). -/
def Obligations.StepKeepsMemoryCanonical : Prop := ∀ s t : State, Memory.wf s → step s = .next t → Memory.wf t

/-- R6, R23 to R33, R41, R50, R53, R54, R109, R147, R152, R153, R214, R220: every step keeps the invariants of the
parameters, the registers and the memories. The canonical form of the memories, and that no bit of the buffer is set
before a CREATE, where R40 gives BUF no value, are the model's (log entry 8). -/
def Obligations.StepKeepsInvariants : Prop := ∀ s t : State, Inv s → step s = .next t → Inv t

/-- The reset state, with the parameters and the sink of log entries 2 and 6, meets all the invariants; that no bit of its
buffer is set, where R40 gives BUF no value, is log entry 8. -/
def Obligations.ResetMeetsInvariants : Prop := Inv State.reset

/-! The assembler. -/

/-- R79, R73: for every mnemonic with an operand field, a numeric operand that fits the field is assembled with exactly
its value, and one that does not is an error, never truncated; so for the symbolic tags of SELECT; and a line has an operand
exactly where its mnemonic takes one. That a hexadecimal operand of a signed field is its bit pattern, and that a plus sign
is a sign, are the model's choice (log entry 14). -/
def Obligations.AssemblerNeverTruncates : Prop :=
  (∀ (m : Mnemonic) (f : OperandField), m.field = some f →
    assembleLine (.bare m) = none ∧
      (∀ n : Nat,
        if n < (if f.isSigned then 2 ^ (f.width - 1) else 2 ^ f.width) then AssemblesTo (.num m (.dec n)) m (some n)
        else assembleLine (.num m (.dec n)) = none) ∧
        (∀ (neg : Bool) (n : Nat),
          if f.isSigned ∧ (if neg then n ≤ 2 ^ (f.width - 1) else n < 2 ^ (f.width - 1)) then
            AssemblesTo (.num m (.signed neg n)) m (some (if neg then -(n : Int) else n))
          else assembleLine (.num m (.signed neg n)) = none) ∧
          ∀ n : Nat,
            if n < 2 ^ f.width then
              AssemblesTo (.num m (.hex n)) m
                (some (if f.isSigned ∧ 2 ^ (f.width - 1) ≤ n then (n : Int) - 2 ^ f.width else n))
            else assembleLine (.num m (.hex n)) = none) ∧
    (∀ m : Mnemonic, m.field = none →
      AssemblesTo (.bare m) m none ∧ ∀ n : AsmNum, assembleLine (.num m n) = none) ∧
      AssemblesTo (.tag .nco) .select (some 0) ∧ AssemblesTo (.tag .fw) .select (some 1) ∧
        (∀ n : Nat,
          if 2 + n < 2 ^ 8 then AssemblesTo (.tag (.preset n)) .select (some (2 + n))
          else assembleLine (.tag (.preset n)) = none) ∧
          ∀ n : AsmNum, assembleLine (.tag (.num n)) = assembleLine (.num .select n)

/-- R80: each pseudo-instruction assembles as the lines of its expansion, with their errors. That a DECODE or an EMITS may
have no operand is the model's choice (log entry 14). -/
def Obligations.PseudoInstructionExpansions : Prop :=
  (∀ i e : AsmNum,
      assembleLine (.nco i e) =
        (([.num .setidiv i, .num .setediv e, .tag .nco] : List AsmLine).mapM assembleLine).map List.flatten) ∧
    (∀ dts : List AsmNum,
      assembleLine (.decode dts) =
        ((AsmLine.bare .start :: dts.map (AsmLine.num .feed) ++ [AsmLine.bare .finish]).mapM assembleLine).map List.flatten) ∧
      (∀ bits : List AsmNum,
        assembleLine (.emits bits) = ((bits.map (AsmLine.num .emit)).mapM assembleLine).map List.flatten) ∧
        ∀ (r : AsmNum) (t : AsmTag),
          assembleLine (.config r t) =
            (([.num .setrate r, .tag t] : List AsmLine).mapM assembleLine).map List.flatten

/-! The counter's top. -/

/-- R100, R216: a loop FEED, under either window, whose bits reach the counter's top emits those before it and raises
ArithmeticFault there; PHASE and PE keep their values. -/
def Obligations.CounterTopStopsLoopFeed : Prop :=
  ∀ (dt : Half) (s : State) (k : Nat) (e : Int), LoopRunning s → FloorStep dt s k e ∨ CentredStep dt s k e →
    2 ^ 64 ≤ zext s.bcProd + k + 1 →
    exec (.feed dt) s = .next (takeError .arithmetic
      (pushBits s ((List.replicate k false ++ [true]).take (2 ^ 64 - 1 - zext s.bcProd))))
end

