-- ==== Sys2Proof/Laws/Decode.lean ====
section
/-! SUPPORT. The fields of a command word as numbers (spec/30_encoding.md R70). -/

namespace Sys2Proof

theorem opc_firstWord (i : Instr) : opc (firstWord i) = opcodeOf i := BitVec.extractLsb'_append_eq_left

theorem arg_firstWord (i : Instr) : arg (firstWord i) = argOf i := BitVec.extractLsb'_append_eq_right

theorem toNat_opc (w : Word) : (opc w).toNat = w.toNat / 2 ^ 24 := by
  have := w.isLt
  simp only [opc, BitVec.extractLsb'_toNat, Nat.shiftRight_eq_div_pow]
  omega

theorem toNat_arg (w : Word) : (arg w).toNat = w.toNat % 2 ^ 24 := by
  simp [arg, BitVec.extractLsb'_toNat]

/-- A word's opcode is `n` exactly when its number lies in that opcode's range. -/
theorem opc_eq_iff (w : Word) (n : BitVec 8) : opc w = n ↔ w.toNat / 2 ^ 24 = n.toNat := by
  rw [← toNat_opc, BitVec.toNat_inj]

theorem toNat_firstWord (i : Instr) : (firstWord i).toNat = (opcodeOf i).toNat * 2 ^ 24 + (argOf i).toNat := by
  rw [firstWord, BitVec.toNat_append, Nat.shiftLeft_eq, Nat.mul_comm, Nat.two_pow_add_eq_or_of_lt (argOf i).isLt]

theorem ifZero_eq_instr {n : Nat} (mbz : BitVec n) (i j : Instr) : ifZero mbz i = .instr j ↔ mbz = 0 ∧ i = j := by
  unfold ifZero; split <;> simp_all

theorem ifZero_ne_unassigned {n : Nat} (mbz : BitVec n) (i : Instr) : ifZero mbz i ≠ .unassignedOpcode := by
  unfold ifZero; split <;> simp

theorem ifZero_eq_mustBeZero {n : Nat} (mbz : BitVec n) (i : Instr) : ifZero mbz i = .mustBeZero ↔ mbz ≠ 0 := by
  unfold ifZero; split <;> simp_all

/-- A field of a word is 0, as a number. -/
theorem extract_eq_zero (w : Word) (a n : Nat) : w.extractLsb' a n = 0 ↔ w.toNat / 2 ^ a % 2 ^ n = 0 := by
  rw [← BitVec.toNat_inj]; simp [BitVec.extractLsb'_toNat, Nat.shiftRight_eq_div_pow]

/-- The bytes of a word read back as the word (spec/20_memory.md R55). -/
theorem wordOfBytes_bytes (w : Word) :
    wordOfBytes (w.extractLsb' 0 8) (w.extractLsb' 8 8) (w.extractLsb' 16 8) (w.extractLsb' 24 8) = w := by
  apply BitVec.eq_of_getLsbD_eq
  intro j hj
  simp only [wordOfBytes, BitVec.getLsbD_append, BitVec.getLsbD_extractLsb']
  by_cases h1 : j < 8
  · simp [h1]
  · by_cases h2 : j < 16
    · have : j - 8 < 8 := by omega
      simp [h1, this]; congr 1; omega
    · have a : ¬j - 8 < 8 := by omega
      by_cases h3 : j < 24
      · have b : j - 8 - 8 < 8 := by omega
        simp [h1, a, b]; congr 1; omega
      · have b : ¬j - 8 - 8 < 8 := by omega
        have c : j - 8 - 8 - 8 < 8 := by omega
        simp [h1, a, b, c]; congr 1; omega

end Sys2Proof
end

