-- ==== Sys2Proof/Laws/Sparse.lean ====
section
/-! SUPPORT. Read after write, and the canonical form, for the sorted memories of Machine/Sparse.lean. -/

namespace Sys2Proof.Machine

open Sys2Proof

section Cells

variable {β : Type}

theorem mem_insertCell {m : List (Nat × β)} {a : Nat} {v : β} {c : Nat × β} (h : c ∈ insertCell m a v) :
    c = (a, v) ∨ c ∈ m := by
  induction m with
  | nil => simpa [insertCell] using h
  | cons d rest ih =>
    obtain ⟨b, w⟩ := d
    simp only [insertCell] at h
    split at h
    · simpa using h
    · split at h
      · rcases List.mem_cons.mp h with h | h
        · exact .inl h
        · exact .inr (List.mem_cons_of_mem _ h)
      · rcases List.mem_cons.mp h with h | h
        · exact .inr (h ▸ List.mem_cons_self)
        · exact (ih h).imp id (List.mem_cons_of_mem _)

theorem mem_of_mem_eraseCell {m : List (Nat × β)} {a : Nat} {c : Nat × β} (h : c ∈ eraseCell m a) : c ∈ m := by
  induction m with
  | nil => simp [eraseCell] at h
  | cons d rest ih =>
    obtain ⟨b, w⟩ := d
    simp only [eraseCell] at h
    split at h
    · exact List.mem_cons_of_mem _ h
    · rcases List.mem_cons.mp h with h | h
      · exact h ▸ List.mem_cons_self
      · exact List.mem_cons_of_mem _ (ih h)

theorem insertCell_rising {m : List (Nat × β)} (h : Rising m) (a : Nat) (v : β) : Rising (insertCell m a v) := by
  induction m with
  | nil => simp [insertCell]
  | cons d rest ih =>
    obtain ⟨b, w⟩ := d
    obtain ⟨hb, hr⟩ := List.pairwise_cons.mp h
    simp only [insertCell]
    split
    · refine List.pairwise_cons.mpr ⟨fun c hc => ?_, h⟩
      rcases List.mem_cons.mp hc with rfl | hc
      · assumption
      · have := hb c hc; simp at *; omega
    · split
      · subst_vars; exact List.pairwise_cons.mpr ⟨hb, hr⟩
      · refine List.pairwise_cons.mpr ⟨fun c hc => ?_, ih hr⟩
        rcases mem_insertCell hc with rfl | hc
        · simp; omega
        · exact hb c hc

theorem eraseCell_rising {m : List (Nat × β)} (h : Rising m) (a : Nat) : Rising (eraseCell m a) := by
  induction m with
  | nil => simp [eraseCell]
  | cons d rest ih =>
    obtain ⟨b, w⟩ := d
    obtain ⟨hb, hr⟩ := List.pairwise_cons.mp h
    simp only [eraseCell]
    split
    · exact hr
    · exact List.pairwise_cons.mpr ⟨fun c hc => hb c (mem_of_mem_eraseCell hc), ih hr⟩

/-- Read after write. -/
theorem lookupCell_insertCell (m : List (Nat × β)) (a j : Nat) (v : β) :
    lookupCell (insertCell m a v) j = if j = a then some v else lookupCell m j := by
  induction m with
  | nil => simp [insertCell, lookupCell]
  | cons d rest ih =>
    obtain ⟨b, w⟩ := d
    simp only [insertCell]
    split
    · simp [lookupCell]
    · split
      · subst_vars; simp only [lookupCell]; split <;> rfl
      · simp only [lookupCell, ih]; split <;> split <;> first | rfl | omega

theorem lookupCell_eq_none_of_lt {m : List (Nat × β)} {a : Nat} (h : ∀ c ∈ m, a < c.1) : lookupCell m a = none := by
  induction m with
  | nil => rfl
  | cons d rest ih =>
    have hd := h d List.mem_cons_self
    simp only [lookupCell, if_neg (by omega : a ≠ d.1)]
    exact ih fun c hc => h c (List.mem_cons_of_mem _ hc)

/-- Read after removal, in the canonical form. -/
theorem lookupCell_eraseCell {m : List (Nat × β)} (h : Rising m) (a j : Nat) :
    lookupCell (eraseCell m a) j = if j = a then none else lookupCell m j := by
  induction m with
  | nil => simp [eraseCell, lookupCell]
  | cons d rest ih =>
    obtain ⟨b, w⟩ := d
    obtain ⟨hb, hr⟩ := List.pairwise_cons.mp h
    simp only [eraseCell]
    split
    · subst_vars
      split
      · subst_vars; exact lookupCell_eq_none_of_lt hb
      · simp [lookupCell, *]
    · simp only [lookupCell, ih hr]; split <;> split <;> first | rfl | omega

theorem mem_of_lookupCell {m : List (Nat × β)} {a : Nat} {v : β} (h : lookupCell m a = some v) : (a, v) ∈ m := by
  induction m with
  | nil => simp [lookupCell] at h
  | cons d rest ih =>
    obtain ⟨b, w⟩ := d
    simp only [lookupCell] at h
    split at h
    · simp_all
    · exact List.mem_cons_of_mem _ (ih h)

end Cells

/-- The cleared buffer is canonical. -/
theorem bitMem_nil_wf : BitMem.wf [] := ⟨List.Pairwise.nil, by simp⟩

/-- Every buffer write keeps the canonical form. -/
theorem writeBit_wf {m : BitMem} (h : BitMem.wf m) (j : Nat) (v : Bool) : BitMem.wf (writeBit m j v) := by
  cases v with
  | false => exact ⟨eraseCell_rising h.1 j, fun c hc => h.2 c (mem_of_mem_eraseCell hc)⟩
  | true =>
    refine ⟨insertCell_rising h.1 j true, fun c hc => ?_⟩
    rcases mem_insertCell hc with rfl | hc
    · rfl
    · exact h.2 c hc

/-- Every sink write keeps the canonical form. -/
theorem insertCell_wf {m : SinkMem} (h : SinkMem.wf m) (a : Nat) (v : Byte) : SinkMem.wf (insertCell m a v) :=
  insertCell_rising h a v

/-- A bit read after a bit write (R51), in the canonical form. -/
theorem readBit_writeBit {m : BitMem} (h : BitMem.wf m) (a j : Nat) (v : Bool) :
    readBit (writeBit m a v) j = if j = a then v else readBit m j := by
  cases v with
  | false =>
    simp only [readBit, writeBit, Bool.false_eq_true, if_false, lookupCell_eraseCell h.1]
    split <;> rfl
  | true =>
    simp only [readBit, writeBit, if_true, lookupCell_insertCell]
    split <;> rfl

/-- A sink byte read after a sink write (R54). -/
theorem readSink_insertCell (m : SinkMem) (a j : Nat) (v : Byte) :
    readSink (insertCell m a v) j = if j = a then some v else readSink m j :=
  lookupCell_insertCell m a j v

/-- The memories of the reset state are canonical. -/
theorem reset_memory_wf : Memory.wf State.reset := by decide

end Sys2Proof.Machine
end

