-- ==== Sys2Proof/Laws/State.lean ====
section
/-! SUPPORT. What each named update of the state leaves in each field: one lemma per field per update. -/

namespace Sys2Proof.Machine

open Sys2Proof

@[simp] theorem bufWrite_params (s : State) (j : Nat) (v : Bool) : (bufWrite s j v).params = s.params := rfl
@[simp] theorem bufWrite_hostIn (s : State) (j : Nat) (v : Bool) : (bufWrite s j v).hostIn = s.hostIn := rfl
@[simp] theorem bufWrite_responses (s : State) (j : Nat) (v : Bool) : (bufWrite s j v).responses = s.responses := rfl
@[simp] theorem bufWrite_cp (s : State) (j : Nat) (v : Bool) : (bufWrite s j v).cp = s.cp := rfl
@[simp] theorem bufWrite_pend (s : State) (j : Nat) (v : Bool) : (bufWrite s j v).pend = s.pend := rfl
@[simp] theorem bufWrite_mode (s : State) (j : Nat) (v : Bool) : (bufWrite s j v).mode = s.mode := rfl
@[simp] theorem bufWrite_fault (s : State) (j : Nat) (v : Bool) : (bufWrite s j v).fault = s.fault := rfl
@[simp] theorem bufWrite_err (s : State) (j : Nat) (v : Bool) : (bufWrite s j v).err = s.err := rfl
@[simp] theorem bufWrite_cap (s : State) (j : Nat) (v : Bool) : (bufWrite s j v).cap = s.cap := rfl
@[simp] theorem bufWrite_buf (s : State) (j : Nat) (v : Bool) : (bufWrite s j v).buf = writeBit s.buf (maskAddr s.cap j) v := rfl
@[simp] theorem bufWrite_bcProd (s : State) (j : Nat) (v : Bool) : (bufWrite s j v).bcProd = s.bcProd := rfl
@[simp] theorem bufWrite_ovf (s : State) (j : Nat) (v : Bool) : (bufWrite s j v).ovf = s.ovf := rfl
@[simp] theorem bufWrite_rate (s : State) (j : Nat) (v : Bool) : (bufWrite s j v).rate = s.rate := rfl
@[simp] theorem bufWrite_period (s : State) (j : Nat) (v : Bool) : (bufWrite s j v).period = s.period := rfl
@[simp] theorem bufWrite_rateValid (s : State) (j : Nat) (v : Bool) : (bufWrite s j v).rateValid = s.rateValid := rfl
@[simp] theorem bufWrite_idiv (s : State) (j : Nat) (v : Bool) : (bufWrite s j v).idiv = s.idiv := rfl
@[simp] theorem bufWrite_idivValid (s : State) (j : Nat) (v : Bool) : (bufWrite s j v).idivValid = s.idivValid := rfl
@[simp] theorem bufWrite_ediv (s : State) (j : Nat) (v : Bool) : (bufWrite s j v).ediv = s.ediv := rfl
@[simp] theorem bufWrite_edivValid (s : State) (j : Nat) (v : Bool) : (bufWrite s j v).edivValid = s.edivValid := rfl
@[simp] theorem bufWrite_strat (s : State) (j : Nat) (v : Bool) : (bufWrite s j v).strat = s.strat := rfl
@[simp] theorem bufWrite_stratValid (s : State) (j : Nat) (v : Bool) : (bufWrite s j v).stratValid = s.stratValid := rfl
@[simp] theorem bufWrite_lidiv (s : State) (j : Nat) (v : Bool) : (bufWrite s j v).lidiv = s.lidiv := rfl
@[simp] theorem bufWrite_lediv (s : State) (j : Nat) (v : Bool) : (bufWrite s j v).lediv = s.lediv := rfl
@[simp] theorem bufWrite_phase (s : State) (j : Nat) (v : Bool) : (bufWrite s j v).phase = s.phase := rfl
@[simp] theorem bufWrite_pe (s : State) (j : Nat) (v : Bool) : (bufWrite s j v).pe = s.pe := rfl
@[simp] theorem bufWrite_result (s : State) (j : Nat) (v : Bool) : (bufWrite s j v).result = s.result := rfl
@[simp] theorem bufWrite_sink (s : State) (j : Nat) (v : Bool) : (bufWrite s j v).sink = s.sink := rfl
@[simp] theorem bufWrite_sinkLog (s : State) (j : Nat) (v : Bool) : (bufWrite s j v).sinkLog = s.sinkLog := rfl
@[simp] theorem bufWrite_sinkAnswers (s : State) (j : Nat) (v : Bool) : (bufWrite s j v).sinkAnswers = s.sinkAnswers := rfl

@[simp] theorem pushBit_params (s : State) (v : Bool) : (pushBit s v).params = s.params := rfl
@[simp] theorem pushBit_hostIn (s : State) (v : Bool) : (pushBit s v).hostIn = s.hostIn := rfl
@[simp] theorem pushBit_responses (s : State) (v : Bool) : (pushBit s v).responses = s.responses := rfl
@[simp] theorem pushBit_cp (s : State) (v : Bool) : (pushBit s v).cp = s.cp := rfl
@[simp] theorem pushBit_pend (s : State) (v : Bool) : (pushBit s v).pend = s.pend := rfl
@[simp] theorem pushBit_mode (s : State) (v : Bool) : (pushBit s v).mode = s.mode := rfl
@[simp] theorem pushBit_fault (s : State) (v : Bool) : (pushBit s v).fault = s.fault := rfl
@[simp] theorem pushBit_err (s : State) (v : Bool) : (pushBit s v).err = s.err := rfl
@[simp] theorem pushBit_cap (s : State) (v : Bool) : (pushBit s v).cap = s.cap := rfl
@[simp] theorem pushBit_buf (s : State) (v : Bool) : (pushBit s v).buf = writeBit s.buf (maskAddr s.cap (zext s.bcProd)) v := rfl
@[simp] theorem pushBit_bcProd (s : State) (v : Bool) : (pushBit s v).bcProd = s.bcProd + 1 := rfl
@[simp] theorem pushBit_ovf (s : State) (v : Bool) : (pushBit s v).ovf = (s.ovf || decide (zext s.cap ≤ zext s.bcProd)) := rfl
@[simp] theorem pushBit_rate (s : State) (v : Bool) : (pushBit s v).rate = s.rate := rfl
@[simp] theorem pushBit_period (s : State) (v : Bool) : (pushBit s v).period = s.period := rfl
@[simp] theorem pushBit_rateValid (s : State) (v : Bool) : (pushBit s v).rateValid = s.rateValid := rfl
@[simp] theorem pushBit_idiv (s : State) (v : Bool) : (pushBit s v).idiv = s.idiv := rfl
@[simp] theorem pushBit_idivValid (s : State) (v : Bool) : (pushBit s v).idivValid = s.idivValid := rfl
@[simp] theorem pushBit_ediv (s : State) (v : Bool) : (pushBit s v).ediv = s.ediv := rfl
@[simp] theorem pushBit_edivValid (s : State) (v : Bool) : (pushBit s v).edivValid = s.edivValid := rfl
@[simp] theorem pushBit_strat (s : State) (v : Bool) : (pushBit s v).strat = s.strat := rfl
@[simp] theorem pushBit_stratValid (s : State) (v : Bool) : (pushBit s v).stratValid = s.stratValid := rfl
@[simp] theorem pushBit_lidiv (s : State) (v : Bool) : (pushBit s v).lidiv = s.lidiv := rfl
@[simp] theorem pushBit_lediv (s : State) (v : Bool) : (pushBit s v).lediv = s.lediv := rfl
@[simp] theorem pushBit_phase (s : State) (v : Bool) : (pushBit s v).phase = s.phase := rfl
@[simp] theorem pushBit_pe (s : State) (v : Bool) : (pushBit s v).pe = s.pe := rfl
@[simp] theorem pushBit_result (s : State) (v : Bool) : (pushBit s v).result = s.result := rfl
@[simp] theorem pushBit_sink (s : State) (v : Bool) : (pushBit s v).sink = s.sink := rfl
@[simp] theorem pushBit_sinkLog (s : State) (v : Bool) : (pushBit s v).sinkLog = s.sinkLog := rfl
@[simp] theorem pushBit_sinkAnswers (s : State) (v : Bool) : (pushBit s v).sinkAnswers = s.sinkAnswers := rfl

@[simp] theorem clearBuffer_params (s : State) : (clearBuffer s).params = s.params := rfl
@[simp] theorem clearBuffer_hostIn (s : State) : (clearBuffer s).hostIn = s.hostIn := rfl
@[simp] theorem clearBuffer_responses (s : State) : (clearBuffer s).responses = s.responses := rfl
@[simp] theorem clearBuffer_cp (s : State) : (clearBuffer s).cp = s.cp := rfl
@[simp] theorem clearBuffer_pend (s : State) : (clearBuffer s).pend = s.pend := rfl
@[simp] theorem clearBuffer_mode (s : State) : (clearBuffer s).mode = s.mode := rfl
@[simp] theorem clearBuffer_fault (s : State) : (clearBuffer s).fault = s.fault := rfl
@[simp] theorem clearBuffer_err (s : State) : (clearBuffer s).err = s.err := rfl
@[simp] theorem clearBuffer_cap (s : State) : (clearBuffer s).cap = s.cap := rfl
@[simp] theorem clearBuffer_buf (s : State) : (clearBuffer s).buf = [] := rfl
@[simp] theorem clearBuffer_bcProd (s : State) : (clearBuffer s).bcProd = 0 := rfl
@[simp] theorem clearBuffer_ovf (s : State) : (clearBuffer s).ovf = false := rfl
@[simp] theorem clearBuffer_rate (s : State) : (clearBuffer s).rate = s.rate := rfl
@[simp] theorem clearBuffer_period (s : State) : (clearBuffer s).period = s.period := rfl
@[simp] theorem clearBuffer_rateValid (s : State) : (clearBuffer s).rateValid = s.rateValid := rfl
@[simp] theorem clearBuffer_idiv (s : State) : (clearBuffer s).idiv = s.idiv := rfl
@[simp] theorem clearBuffer_idivValid (s : State) : (clearBuffer s).idivValid = s.idivValid := rfl
@[simp] theorem clearBuffer_ediv (s : State) : (clearBuffer s).ediv = s.ediv := rfl
@[simp] theorem clearBuffer_edivValid (s : State) : (clearBuffer s).edivValid = s.edivValid := rfl
@[simp] theorem clearBuffer_strat (s : State) : (clearBuffer s).strat = s.strat := rfl
@[simp] theorem clearBuffer_stratValid (s : State) : (clearBuffer s).stratValid = s.stratValid := rfl
@[simp] theorem clearBuffer_lidiv (s : State) : (clearBuffer s).lidiv = s.lidiv := rfl
@[simp] theorem clearBuffer_lediv (s : State) : (clearBuffer s).lediv = s.lediv := rfl
@[simp] theorem clearBuffer_phase (s : State) : (clearBuffer s).phase = s.phase := rfl
@[simp] theorem clearBuffer_pe (s : State) : (clearBuffer s).pe = s.pe := rfl
@[simp] theorem clearBuffer_result (s : State) : (clearBuffer s).result = s.result := rfl
@[simp] theorem clearBuffer_sink (s : State) : (clearBuffer s).sink = s.sink := rfl
@[simp] theorem clearBuffer_sinkLog (s : State) : (clearBuffer s).sinkLog = s.sinkLog := rfl
@[simp] theorem clearBuffer_sinkAnswers (s : State) : (clearBuffer s).sinkAnswers = s.sinkAnswers := rfl

@[simp] theorem sinkStore_params (s : State) (a : Nat) (v : Byte) : (sinkStore s a v).params = s.params := rfl
@[simp] theorem sinkStore_hostIn (s : State) (a : Nat) (v : Byte) : (sinkStore s a v).hostIn = s.hostIn := rfl
@[simp] theorem sinkStore_responses (s : State) (a : Nat) (v : Byte) : (sinkStore s a v).responses = s.responses := rfl
@[simp] theorem sinkStore_cp (s : State) (a : Nat) (v : Byte) : (sinkStore s a v).cp = s.cp := rfl
@[simp] theorem sinkStore_pend (s : State) (a : Nat) (v : Byte) : (sinkStore s a v).pend = s.pend := rfl
@[simp] theorem sinkStore_mode (s : State) (a : Nat) (v : Byte) : (sinkStore s a v).mode = s.mode := rfl
@[simp] theorem sinkStore_fault (s : State) (a : Nat) (v : Byte) : (sinkStore s a v).fault = s.fault := rfl
@[simp] theorem sinkStore_err (s : State) (a : Nat) (v : Byte) : (sinkStore s a v).err = s.err := rfl
@[simp] theorem sinkStore_cap (s : State) (a : Nat) (v : Byte) : (sinkStore s a v).cap = s.cap := rfl
@[simp] theorem sinkStore_buf (s : State) (a : Nat) (v : Byte) : (sinkStore s a v).buf = s.buf := rfl
@[simp] theorem sinkStore_bcProd (s : State) (a : Nat) (v : Byte) : (sinkStore s a v).bcProd = s.bcProd := rfl
@[simp] theorem sinkStore_ovf (s : State) (a : Nat) (v : Byte) : (sinkStore s a v).ovf = s.ovf := rfl
@[simp] theorem sinkStore_rate (s : State) (a : Nat) (v : Byte) : (sinkStore s a v).rate = s.rate := rfl
@[simp] theorem sinkStore_period (s : State) (a : Nat) (v : Byte) : (sinkStore s a v).period = s.period := rfl
@[simp] theorem sinkStore_rateValid (s : State) (a : Nat) (v : Byte) : (sinkStore s a v).rateValid = s.rateValid := rfl
@[simp] theorem sinkStore_idiv (s : State) (a : Nat) (v : Byte) : (sinkStore s a v).idiv = s.idiv := rfl
@[simp] theorem sinkStore_idivValid (s : State) (a : Nat) (v : Byte) : (sinkStore s a v).idivValid = s.idivValid := rfl
@[simp] theorem sinkStore_ediv (s : State) (a : Nat) (v : Byte) : (sinkStore s a v).ediv = s.ediv := rfl
@[simp] theorem sinkStore_edivValid (s : State) (a : Nat) (v : Byte) : (sinkStore s a v).edivValid = s.edivValid := rfl
@[simp] theorem sinkStore_strat (s : State) (a : Nat) (v : Byte) : (sinkStore s a v).strat = s.strat := rfl
@[simp] theorem sinkStore_stratValid (s : State) (a : Nat) (v : Byte) : (sinkStore s a v).stratValid = s.stratValid := rfl
@[simp] theorem sinkStore_lidiv (s : State) (a : Nat) (v : Byte) : (sinkStore s a v).lidiv = s.lidiv := rfl
@[simp] theorem sinkStore_lediv (s : State) (a : Nat) (v : Byte) : (sinkStore s a v).lediv = s.lediv := rfl
@[simp] theorem sinkStore_phase (s : State) (a : Nat) (v : Byte) : (sinkStore s a v).phase = s.phase := rfl
@[simp] theorem sinkStore_pe (s : State) (a : Nat) (v : Byte) : (sinkStore s a v).pe = s.pe := rfl
@[simp] theorem sinkStore_result (s : State) (a : Nat) (v : Byte) : (sinkStore s a v).result = s.result := rfl
@[simp] theorem sinkStore_sink (s : State) (a : Nat) (v : Byte) : (sinkStore s a v).sink = insertCell s.sink a v := rfl
@[simp] theorem sinkStore_sinkLog (s : State) (a : Nat) (v : Byte) : (sinkStore s a v).sinkLog = s.sinkLog ++ [⟨a, v, true⟩] := rfl
@[simp] theorem sinkStore_sinkAnswers (s : State) (a : Nat) (v : Byte) : (sinkStore s a v).sinkAnswers = s.sinkAnswers := rfl

@[simp] theorem sinkReject_params (s : State) (a : Nat) (v : Byte) : (sinkReject s a v).params = s.params := rfl
@[simp] theorem sinkReject_hostIn (s : State) (a : Nat) (v : Byte) : (sinkReject s a v).hostIn = s.hostIn := rfl
@[simp] theorem sinkReject_responses (s : State) (a : Nat) (v : Byte) : (sinkReject s a v).responses = s.responses := rfl
@[simp] theorem sinkReject_cp (s : State) (a : Nat) (v : Byte) : (sinkReject s a v).cp = s.cp := rfl
@[simp] theorem sinkReject_pend (s : State) (a : Nat) (v : Byte) : (sinkReject s a v).pend = s.pend := rfl
@[simp] theorem sinkReject_mode (s : State) (a : Nat) (v : Byte) : (sinkReject s a v).mode = s.mode := rfl
@[simp] theorem sinkReject_fault (s : State) (a : Nat) (v : Byte) : (sinkReject s a v).fault = s.fault := rfl
@[simp] theorem sinkReject_err (s : State) (a : Nat) (v : Byte) : (sinkReject s a v).err = s.err := rfl
@[simp] theorem sinkReject_cap (s : State) (a : Nat) (v : Byte) : (sinkReject s a v).cap = s.cap := rfl
@[simp] theorem sinkReject_buf (s : State) (a : Nat) (v : Byte) : (sinkReject s a v).buf = s.buf := rfl
@[simp] theorem sinkReject_bcProd (s : State) (a : Nat) (v : Byte) : (sinkReject s a v).bcProd = s.bcProd := rfl
@[simp] theorem sinkReject_ovf (s : State) (a : Nat) (v : Byte) : (sinkReject s a v).ovf = s.ovf := rfl
@[simp] theorem sinkReject_rate (s : State) (a : Nat) (v : Byte) : (sinkReject s a v).rate = s.rate := rfl
@[simp] theorem sinkReject_period (s : State) (a : Nat) (v : Byte) : (sinkReject s a v).period = s.period := rfl
@[simp] theorem sinkReject_rateValid (s : State) (a : Nat) (v : Byte) : (sinkReject s a v).rateValid = s.rateValid := rfl
@[simp] theorem sinkReject_idiv (s : State) (a : Nat) (v : Byte) : (sinkReject s a v).idiv = s.idiv := rfl
@[simp] theorem sinkReject_idivValid (s : State) (a : Nat) (v : Byte) : (sinkReject s a v).idivValid = s.idivValid := rfl
@[simp] theorem sinkReject_ediv (s : State) (a : Nat) (v : Byte) : (sinkReject s a v).ediv = s.ediv := rfl
@[simp] theorem sinkReject_edivValid (s : State) (a : Nat) (v : Byte) : (sinkReject s a v).edivValid = s.edivValid := rfl
@[simp] theorem sinkReject_strat (s : State) (a : Nat) (v : Byte) : (sinkReject s a v).strat = s.strat := rfl
@[simp] theorem sinkReject_stratValid (s : State) (a : Nat) (v : Byte) : (sinkReject s a v).stratValid = s.stratValid := rfl
@[simp] theorem sinkReject_lidiv (s : State) (a : Nat) (v : Byte) : (sinkReject s a v).lidiv = s.lidiv := rfl
@[simp] theorem sinkReject_lediv (s : State) (a : Nat) (v : Byte) : (sinkReject s a v).lediv = s.lediv := rfl
@[simp] theorem sinkReject_phase (s : State) (a : Nat) (v : Byte) : (sinkReject s a v).phase = s.phase := rfl
@[simp] theorem sinkReject_pe (s : State) (a : Nat) (v : Byte) : (sinkReject s a v).pe = s.pe := rfl
@[simp] theorem sinkReject_result (s : State) (a : Nat) (v : Byte) : (sinkReject s a v).result = s.result := rfl
@[simp] theorem sinkReject_sink (s : State) (a : Nat) (v : Byte) : (sinkReject s a v).sink = s.sink := rfl
@[simp] theorem sinkReject_sinkLog (s : State) (a : Nat) (v : Byte) : (sinkReject s a v).sinkLog = s.sinkLog ++ [⟨a, v, false⟩] := rfl
@[simp] theorem sinkReject_sinkAnswers (s : State) (a : Nat) (v : Byte) : (sinkReject s a v).sinkAnswers = s.sinkAnswers := rfl

@[simp] theorem respond_params (s : State) (r : Word) (b : Bool) : (respond s r b).params = s.params := rfl
@[simp] theorem respond_hostIn (s : State) (r : Word) (b : Bool) : (respond s r b).hostIn = s.hostIn := rfl
@[simp] theorem respond_responses (s : State) (r : Word) (b : Bool) : (respond s r b).responses = s.responses ++ [⟨r, statusWord s b⟩] := rfl
@[simp] theorem respond_cp (s : State) (r : Word) (b : Bool) : (respond s r b).cp = s.cp := rfl
@[simp] theorem respond_pend (s : State) (r : Word) (b : Bool) : (respond s r b).pend = s.pend := rfl
@[simp] theorem respond_mode (s : State) (r : Word) (b : Bool) : (respond s r b).mode = s.mode := rfl
@[simp] theorem respond_fault (s : State) (r : Word) (b : Bool) : (respond s r b).fault = s.fault := rfl
@[simp] theorem respond_err (s : State) (r : Word) (b : Bool) : (respond s r b).err = s.err := rfl
@[simp] theorem respond_cap (s : State) (r : Word) (b : Bool) : (respond s r b).cap = s.cap := rfl
@[simp] theorem respond_buf (s : State) (r : Word) (b : Bool) : (respond s r b).buf = s.buf := rfl
@[simp] theorem respond_bcProd (s : State) (r : Word) (b : Bool) : (respond s r b).bcProd = s.bcProd := rfl
@[simp] theorem respond_ovf (s : State) (r : Word) (b : Bool) : (respond s r b).ovf = s.ovf := rfl
@[simp] theorem respond_rate (s : State) (r : Word) (b : Bool) : (respond s r b).rate = s.rate := rfl
@[simp] theorem respond_period (s : State) (r : Word) (b : Bool) : (respond s r b).period = s.period := rfl
@[simp] theorem respond_rateValid (s : State) (r : Word) (b : Bool) : (respond s r b).rateValid = s.rateValid := rfl
@[simp] theorem respond_idiv (s : State) (r : Word) (b : Bool) : (respond s r b).idiv = s.idiv := rfl
@[simp] theorem respond_idivValid (s : State) (r : Word) (b : Bool) : (respond s r b).idivValid = s.idivValid := rfl
@[simp] theorem respond_ediv (s : State) (r : Word) (b : Bool) : (respond s r b).ediv = s.ediv := rfl
@[simp] theorem respond_edivValid (s : State) (r : Word) (b : Bool) : (respond s r b).edivValid = s.edivValid := rfl
@[simp] theorem respond_strat (s : State) (r : Word) (b : Bool) : (respond s r b).strat = s.strat := rfl
@[simp] theorem respond_stratValid (s : State) (r : Word) (b : Bool) : (respond s r b).stratValid = s.stratValid := rfl
@[simp] theorem respond_lidiv (s : State) (r : Word) (b : Bool) : (respond s r b).lidiv = s.lidiv := rfl
@[simp] theorem respond_lediv (s : State) (r : Word) (b : Bool) : (respond s r b).lediv = s.lediv := rfl
@[simp] theorem respond_phase (s : State) (r : Word) (b : Bool) : (respond s r b).phase = s.phase := rfl
@[simp] theorem respond_pe (s : State) (r : Word) (b : Bool) : (respond s r b).pe = s.pe := rfl
@[simp] theorem respond_result (s : State) (r : Word) (b : Bool) : (respond s r b).result = r := rfl
@[simp] theorem respond_sink (s : State) (r : Word) (b : Bool) : (respond s r b).sink = s.sink := rfl
@[simp] theorem respond_sinkLog (s : State) (r : Word) (b : Bool) : (respond s r b).sinkLog = s.sinkLog := rfl
@[simp] theorem respond_sinkAnswers (s : State) (r : Word) (b : Bool) : (respond s r b).sinkAnswers = s.sinkAnswers := rfl

@[simp] theorem takeError_params (k : ErrKind) (s : State) : (takeError k s).params = s.params := rfl
@[simp] theorem takeError_hostIn (k : ErrKind) (s : State) : (takeError k s).hostIn = s.hostIn := rfl
@[simp] theorem takeError_responses (k : ErrKind) (s : State) : (takeError k s).responses = s.responses ++ [⟨0, statusWord { s with fault := true, err := some k } false⟩] := rfl
@[simp] theorem takeError_cp (k : ErrKind) (s : State) : (takeError k s).cp = s.cp := rfl
@[simp] theorem takeError_pend (k : ErrKind) (s : State) : (takeError k s).pend = s.pend := rfl
@[simp] theorem takeError_mode (k : ErrKind) (s : State) : (takeError k s).mode = s.mode := rfl
@[simp] theorem takeError_fault (k : ErrKind) (s : State) : (takeError k s).fault = true := rfl
@[simp] theorem takeError_err (k : ErrKind) (s : State) : (takeError k s).err = some k := rfl
@[simp] theorem takeError_cap (k : ErrKind) (s : State) : (takeError k s).cap = s.cap := rfl
@[simp] theorem takeError_buf (k : ErrKind) (s : State) : (takeError k s).buf = s.buf := rfl
@[simp] theorem takeError_bcProd (k : ErrKind) (s : State) : (takeError k s).bcProd = s.bcProd := rfl
@[simp] theorem takeError_ovf (k : ErrKind) (s : State) : (takeError k s).ovf = s.ovf := rfl
@[simp] theorem takeError_rate (k : ErrKind) (s : State) : (takeError k s).rate = s.rate := rfl
@[simp] theorem takeError_period (k : ErrKind) (s : State) : (takeError k s).period = s.period := rfl
@[simp] theorem takeError_rateValid (k : ErrKind) (s : State) : (takeError k s).rateValid = s.rateValid := rfl
@[simp] theorem takeError_idiv (k : ErrKind) (s : State) : (takeError k s).idiv = s.idiv := rfl
@[simp] theorem takeError_idivValid (k : ErrKind) (s : State) : (takeError k s).idivValid = s.idivValid := rfl
@[simp] theorem takeError_ediv (k : ErrKind) (s : State) : (takeError k s).ediv = s.ediv := rfl
@[simp] theorem takeError_edivValid (k : ErrKind) (s : State) : (takeError k s).edivValid = s.edivValid := rfl
@[simp] theorem takeError_strat (k : ErrKind) (s : State) : (takeError k s).strat = s.strat := rfl
@[simp] theorem takeError_stratValid (k : ErrKind) (s : State) : (takeError k s).stratValid = s.stratValid := rfl
@[simp] theorem takeError_lidiv (k : ErrKind) (s : State) : (takeError k s).lidiv = s.lidiv := rfl
@[simp] theorem takeError_lediv (k : ErrKind) (s : State) : (takeError k s).lediv = s.lediv := rfl
@[simp] theorem takeError_phase (k : ErrKind) (s : State) : (takeError k s).phase = s.phase := rfl
@[simp] theorem takeError_pe (k : ErrKind) (s : State) : (takeError k s).pe = s.pe := rfl
@[simp] theorem takeError_result (k : ErrKind) (s : State) : (takeError k s).result = 0 := rfl
@[simp] theorem takeError_sink (k : ErrKind) (s : State) : (takeError k s).sink = s.sink := rfl
@[simp] theorem takeError_sinkLog (k : ErrKind) (s : State) : (takeError k s).sinkLog = s.sinkLog := rfl
@[simp] theorem takeError_sinkAnswers (k : ErrKind) (s : State) : (takeError k s).sinkAnswers = s.sinkAnswers := rfl

@[simp] theorem refuse_params (s : State) : (refuse s).params = s.params := rfl
@[simp] theorem refuse_hostIn (s : State) : (refuse s).hostIn = s.hostIn := rfl
@[simp] theorem refuse_responses (s : State) : (refuse s).responses = s.responses ++ [⟨0, statusWord s true⟩] := rfl
@[simp] theorem refuse_cp (s : State) : (refuse s).cp = s.cp := rfl
@[simp] theorem refuse_pend (s : State) : (refuse s).pend = s.pend := rfl
@[simp] theorem refuse_mode (s : State) : (refuse s).mode = s.mode := rfl
@[simp] theorem refuse_fault (s : State) : (refuse s).fault = s.fault := rfl
@[simp] theorem refuse_err (s : State) : (refuse s).err = s.err := rfl
@[simp] theorem refuse_cap (s : State) : (refuse s).cap = s.cap := rfl
@[simp] theorem refuse_buf (s : State) : (refuse s).buf = s.buf := rfl
@[simp] theorem refuse_bcProd (s : State) : (refuse s).bcProd = s.bcProd := rfl
@[simp] theorem refuse_ovf (s : State) : (refuse s).ovf = s.ovf := rfl
@[simp] theorem refuse_rate (s : State) : (refuse s).rate = s.rate := rfl
@[simp] theorem refuse_period (s : State) : (refuse s).period = s.period := rfl
@[simp] theorem refuse_rateValid (s : State) : (refuse s).rateValid = s.rateValid := rfl
@[simp] theorem refuse_idiv (s : State) : (refuse s).idiv = s.idiv := rfl
@[simp] theorem refuse_idivValid (s : State) : (refuse s).idivValid = s.idivValid := rfl
@[simp] theorem refuse_ediv (s : State) : (refuse s).ediv = s.ediv := rfl
@[simp] theorem refuse_edivValid (s : State) : (refuse s).edivValid = s.edivValid := rfl
@[simp] theorem refuse_strat (s : State) : (refuse s).strat = s.strat := rfl
@[simp] theorem refuse_stratValid (s : State) : (refuse s).stratValid = s.stratValid := rfl
@[simp] theorem refuse_lidiv (s : State) : (refuse s).lidiv = s.lidiv := rfl
@[simp] theorem refuse_lediv (s : State) : (refuse s).lediv = s.lediv := rfl
@[simp] theorem refuse_phase (s : State) : (refuse s).phase = s.phase := rfl
@[simp] theorem refuse_pe (s : State) : (refuse s).pe = s.pe := rfl
@[simp] theorem refuse_result (s : State) : (refuse s).result = 0 := rfl
@[simp] theorem refuse_sink (s : State) : (refuse s).sink = s.sink := rfl
@[simp] theorem refuse_sinkLog (s : State) : (refuse s).sinkLog = s.sinkLog := rfl
@[simp] theorem refuse_sinkAnswers (s : State) : (refuse s).sinkAnswers = s.sinkAnswers := rfl

@[simp] theorem takeWords_params (n : Nat) (rest : List HostInput) (s : State) : (takeWords n rest s).params = s.params := rfl
@[simp] theorem takeWords_hostIn (n : Nat) (rest : List HostInput) (s : State) : (takeWords n rest s).hostIn = rest := rfl
@[simp] theorem takeWords_responses (n : Nat) (rest : List HostInput) (s : State) : (takeWords n rest s).responses = s.responses := rfl
@[simp] theorem takeWords_cp (n : Nat) (rest : List HostInput) (s : State) : (takeWords n rest s).cp = s.cp + n := rfl
@[simp] theorem takeWords_pend (n : Nat) (rest : List HostInput) (s : State) : (takeWords n rest s).pend = none := rfl
@[simp] theorem takeWords_mode (n : Nat) (rest : List HostInput) (s : State) : (takeWords n rest s).mode = s.mode := rfl
@[simp] theorem takeWords_fault (n : Nat) (rest : List HostInput) (s : State) : (takeWords n rest s).fault = s.fault := rfl
@[simp] theorem takeWords_err (n : Nat) (rest : List HostInput) (s : State) : (takeWords n rest s).err = s.err := rfl
@[simp] theorem takeWords_cap (n : Nat) (rest : List HostInput) (s : State) : (takeWords n rest s).cap = s.cap := rfl
@[simp] theorem takeWords_buf (n : Nat) (rest : List HostInput) (s : State) : (takeWords n rest s).buf = s.buf := rfl
@[simp] theorem takeWords_bcProd (n : Nat) (rest : List HostInput) (s : State) : (takeWords n rest s).bcProd = s.bcProd := rfl
@[simp] theorem takeWords_ovf (n : Nat) (rest : List HostInput) (s : State) : (takeWords n rest s).ovf = s.ovf := rfl
@[simp] theorem takeWords_rate (n : Nat) (rest : List HostInput) (s : State) : (takeWords n rest s).rate = s.rate := rfl
@[simp] theorem takeWords_period (n : Nat) (rest : List HostInput) (s : State) : (takeWords n rest s).period = s.period := rfl
@[simp] theorem takeWords_rateValid (n : Nat) (rest : List HostInput) (s : State) : (takeWords n rest s).rateValid = s.rateValid := rfl
@[simp] theorem takeWords_idiv (n : Nat) (rest : List HostInput) (s : State) : (takeWords n rest s).idiv = s.idiv := rfl
@[simp] theorem takeWords_idivValid (n : Nat) (rest : List HostInput) (s : State) : (takeWords n rest s).idivValid = s.idivValid := rfl
@[simp] theorem takeWords_ediv (n : Nat) (rest : List HostInput) (s : State) : (takeWords n rest s).ediv = s.ediv := rfl
@[simp] theorem takeWords_edivValid (n : Nat) (rest : List HostInput) (s : State) : (takeWords n rest s).edivValid = s.edivValid := rfl
@[simp] theorem takeWords_strat (n : Nat) (rest : List HostInput) (s : State) : (takeWords n rest s).strat = s.strat := rfl
@[simp] theorem takeWords_stratValid (n : Nat) (rest : List HostInput) (s : State) : (takeWords n rest s).stratValid = s.stratValid := rfl
@[simp] theorem takeWords_lidiv (n : Nat) (rest : List HostInput) (s : State) : (takeWords n rest s).lidiv = s.lidiv := rfl
@[simp] theorem takeWords_lediv (n : Nat) (rest : List HostInput) (s : State) : (takeWords n rest s).lediv = s.lediv := rfl
@[simp] theorem takeWords_phase (n : Nat) (rest : List HostInput) (s : State) : (takeWords n rest s).phase = s.phase := rfl
@[simp] theorem takeWords_pe (n : Nat) (rest : List HostInput) (s : State) : (takeWords n rest s).pe = s.pe := rfl
@[simp] theorem takeWords_result (n : Nat) (rest : List HostInput) (s : State) : (takeWords n rest s).result = s.result := rfl
@[simp] theorem takeWords_sink (n : Nat) (rest : List HostInput) (s : State) : (takeWords n rest s).sink = s.sink := rfl
@[simp] theorem takeWords_sinkLog (n : Nat) (rest : List HostInput) (s : State) : (takeWords n rest s).sinkLog = s.sinkLog := rfl
@[simp] theorem takeWords_sinkAnswers (n : Nat) (rest : List HostInput) (s : State) : (takeWords n rest s).sinkAnswers = s.sinkAnswers := rfl

@[simp] theorem holdFirst_params (w : Word) (rest : List HostInput) (s : State) : (holdFirst w rest s).params = s.params := rfl
@[simp] theorem holdFirst_hostIn (w : Word) (rest : List HostInput) (s : State) : (holdFirst w rest s).hostIn = rest := rfl
@[simp] theorem holdFirst_responses (w : Word) (rest : List HostInput) (s : State) : (holdFirst w rest s).responses = s.responses := rfl
@[simp] theorem holdFirst_cp (w : Word) (rest : List HostInput) (s : State) : (holdFirst w rest s).cp = s.cp + 1 := rfl
@[simp] theorem holdFirst_pend (w : Word) (rest : List HostInput) (s : State) : (holdFirst w rest s).pend = some w := rfl
@[simp] theorem holdFirst_mode (w : Word) (rest : List HostInput) (s : State) : (holdFirst w rest s).mode = s.mode := rfl
@[simp] theorem holdFirst_fault (w : Word) (rest : List HostInput) (s : State) : (holdFirst w rest s).fault = s.fault := rfl
@[simp] theorem holdFirst_err (w : Word) (rest : List HostInput) (s : State) : (holdFirst w rest s).err = s.err := rfl
@[simp] theorem holdFirst_cap (w : Word) (rest : List HostInput) (s : State) : (holdFirst w rest s).cap = s.cap := rfl
@[simp] theorem holdFirst_buf (w : Word) (rest : List HostInput) (s : State) : (holdFirst w rest s).buf = s.buf := rfl
@[simp] theorem holdFirst_bcProd (w : Word) (rest : List HostInput) (s : State) : (holdFirst w rest s).bcProd = s.bcProd := rfl
@[simp] theorem holdFirst_ovf (w : Word) (rest : List HostInput) (s : State) : (holdFirst w rest s).ovf = s.ovf := rfl
@[simp] theorem holdFirst_rate (w : Word) (rest : List HostInput) (s : State) : (holdFirst w rest s).rate = s.rate := rfl
@[simp] theorem holdFirst_period (w : Word) (rest : List HostInput) (s : State) : (holdFirst w rest s).period = s.period := rfl
@[simp] theorem holdFirst_rateValid (w : Word) (rest : List HostInput) (s : State) : (holdFirst w rest s).rateValid = s.rateValid := rfl
@[simp] theorem holdFirst_idiv (w : Word) (rest : List HostInput) (s : State) : (holdFirst w rest s).idiv = s.idiv := rfl
@[simp] theorem holdFirst_idivValid (w : Word) (rest : List HostInput) (s : State) : (holdFirst w rest s).idivValid = s.idivValid := rfl
@[simp] theorem holdFirst_ediv (w : Word) (rest : List HostInput) (s : State) : (holdFirst w rest s).ediv = s.ediv := rfl
@[simp] theorem holdFirst_edivValid (w : Word) (rest : List HostInput) (s : State) : (holdFirst w rest s).edivValid = s.edivValid := rfl
@[simp] theorem holdFirst_strat (w : Word) (rest : List HostInput) (s : State) : (holdFirst w rest s).strat = s.strat := rfl
@[simp] theorem holdFirst_stratValid (w : Word) (rest : List HostInput) (s : State) : (holdFirst w rest s).stratValid = s.stratValid := rfl
@[simp] theorem holdFirst_lidiv (w : Word) (rest : List HostInput) (s : State) : (holdFirst w rest s).lidiv = s.lidiv := rfl
@[simp] theorem holdFirst_lediv (w : Word) (rest : List HostInput) (s : State) : (holdFirst w rest s).lediv = s.lediv := rfl
@[simp] theorem holdFirst_phase (w : Word) (rest : List HostInput) (s : State) : (holdFirst w rest s).phase = s.phase := rfl
@[simp] theorem holdFirst_pe (w : Word) (rest : List HostInput) (s : State) : (holdFirst w rest s).pe = s.pe := rfl
@[simp] theorem holdFirst_result (w : Word) (rest : List HostInput) (s : State) : (holdFirst w rest s).result = s.result := rfl
@[simp] theorem holdFirst_sink (w : Word) (rest : List HostInput) (s : State) : (holdFirst w rest s).sink = s.sink := rfl
@[simp] theorem holdFirst_sinkLog (w : Word) (rest : List HostInput) (s : State) : (holdFirst w rest s).sinkLog = s.sinkLog := rfl
@[simp] theorem holdFirst_sinkAnswers (w : Word) (rest : List HostInput) (s : State) : (holdFirst w rest s).sinkAnswers = s.sinkAnswers := rfl

@[simp] theorem resetBlock_params (s : State) : (resetBlock s).params = s.params := rfl
@[simp] theorem resetBlock_hostIn (s : State) : (resetBlock s).hostIn = s.hostIn := rfl
@[simp] theorem resetBlock_responses (s : State) : (resetBlock s).responses = s.responses := rfl
@[simp] theorem resetBlock_cp (s : State) : (resetBlock s).cp = 0 := rfl
@[simp] theorem resetBlock_pend (s : State) : (resetBlock s).pend = none := rfl
@[simp] theorem resetBlock_mode (s : State) : (resetBlock s).mode = .idle := rfl
@[simp] theorem resetBlock_fault (s : State) : (resetBlock s).fault = false := rfl
@[simp] theorem resetBlock_err (s : State) : (resetBlock s).err = none := rfl
@[simp] theorem resetBlock_cap (s : State) : (resetBlock s).cap = 0 := rfl
@[simp] theorem resetBlock_buf (s : State) : (resetBlock s).buf = [] := rfl
@[simp] theorem resetBlock_bcProd (s : State) : (resetBlock s).bcProd = 0 := rfl
@[simp] theorem resetBlock_ovf (s : State) : (resetBlock s).ovf = false := rfl
@[simp] theorem resetBlock_rate (s : State) : (resetBlock s).rate = 0 := rfl
@[simp] theorem resetBlock_period (s : State) : (resetBlock s).period = 0 := rfl
@[simp] theorem resetBlock_rateValid (s : State) : (resetBlock s).rateValid = false := rfl
@[simp] theorem resetBlock_idiv (s : State) : (resetBlock s).idiv = 0 := rfl
@[simp] theorem resetBlock_idivValid (s : State) : (resetBlock s).idivValid = false := rfl
@[simp] theorem resetBlock_ediv (s : State) : (resetBlock s).ediv = 0 := rfl
@[simp] theorem resetBlock_edivValid (s : State) : (resetBlock s).edivValid = false := rfl
@[simp] theorem resetBlock_strat (s : State) : (resetBlock s).strat = 0 := rfl
@[simp] theorem resetBlock_stratValid (s : State) : (resetBlock s).stratValid = false := rfl
@[simp] theorem resetBlock_lidiv (s : State) : (resetBlock s).lidiv = 0 := rfl
@[simp] theorem resetBlock_lediv (s : State) : (resetBlock s).lediv = 0 := rfl
@[simp] theorem resetBlock_phase (s : State) : (resetBlock s).phase = 0 := rfl
@[simp] theorem resetBlock_pe (s : State) : (resetBlock s).pe = 0 := rfl
@[simp] theorem resetBlock_result (s : State) : (resetBlock s).result = 0 := rfl
@[simp] theorem resetBlock_sink (s : State) : (resetBlock s).sink = s.sink := rfl
@[simp] theorem resetBlock_sinkLog (s : State) : (resetBlock s).sinkLog = s.sinkLog := rfl
@[simp] theorem resetBlock_sinkAnswers (s : State) : (resetBlock s).sinkAnswers = s.sinkAnswers := rfl

end Sys2Proof.Machine
end

