-- ==== Sys2Proof/Laws/Ops.lean ====
section
/-! SUPPORT. One lemma for each shared operation that says everything it can do: bit reads and words, emissions, sink
writes, the range check, and the wrapper every command runs in. -/

namespace Sys2Proof.Machine

open Sys2Proof

/-! Bits and words. -/

/-- Bit `i` of a word built most significant bit first. -/
theorem getLsbD_bitsMsbFirst (f : Nat → Bool) (n i : Nat) :
    (bitsMsbFirst f n).getLsbD i = (decide (i < n) && f (n - 1 - i)) := by
  induction n generalizing i with
  | zero => simp [bitsMsbFirst]
  | succ n ih =>
    cases i with
    | zero => simp [bitsMsbFirst]
    | succ i => simp only [bitsMsbFirst, BitVec.getLsbD_concat_succ, ih]; congr 2 <;> simp; omega

/-- R52, R102: bit `31 - t` of word `k` is the bit at address `32k + t`. -/
theorem getLsbD_wordAt (s : State) (k i : Nat) :
    (wordAt s k).getLsbD i = (decide (i < 32) && bufRead s (32 * k + (31 - i))) :=
  getLsbD_bitsMsbFirst _ 32 i

/-- R10. -/
theorem getLsbD_rev8 (b : Byte) (i : Nat) : (rev8 b).getLsbD i = (decide (i < 8) && b.getLsbD (7 - i)) :=
  getLsbD_bitsMsbFirst _ 8 i

/-- R51 at a power of two: reducing by MASK is the remainder. -/
theorem maskAddr_two_pow {cap : Word} {k : Nat} (h : zext cap = 2 ^ k) (j : Nat) : maskAddr cap j = j % zext cap := by
  rw [maskAddr, h, Nat.and_two_pow_sub_one_eq_mod]

/-- A reduced address is below the capacity of an existing buffer. -/
theorem maskAddr_lt {cap : Word} (h : cap ≠ 0) (j : Nat) : maskAddr cap j < zext cap := by
  have : 0 < zext cap := Nat.pos_of_ne_zero fun h0 => h (BitVec.eq_of_toNat_eq (by simpa [zext] using h0))
  have : j &&& (zext cap - 1) ≤ zext cap - 1 := Nat.and_le_right
  unfold maskAddr; omega

/-- A reduced address is no greater than the address. -/
theorem maskAddr_le (cap : Word) (j : Nat) : maskAddr cap j ≤ j := Nat.and_le_left

/-- R103: the bit test of CREATE says that the capacity is a power of two. -/
theorem isPowerOfTwo_iff (c : Word) : isPowerOfTwo c = true ↔ ∃ k, zext c = 2 ^ k := by
  by_cases h0 : c = 0
  · subst h0
    refine ⟨fun h => absurd h (by decide), fun ⟨k, hk⟩ => ?_⟩
    have : 0 < 2 ^ k := by positivity
    simp only [zext, BitVec.ofNat_eq_ofNat, BitVec.toNat_zero] at hk
    omega
  · have hn : c.toNat ≠ 0 := fun h => h0 (BitVec.eq_of_toNat_eq (by simpa using h))
    have hsub : (c - 1).toNat = c.toNat - 1 := by
      have := c.isLt
      have h1 : (1 : Word).toNat = 1 := rfl
      rw [BitVec.toNat_sub, h1]
      omega
    rw [isPowerOfTwo, Bool.and_eq_true, bne_iff_ne, beq_iff_eq, zext, ← Nat.isPowerOfTwo,
      ← Nat.and_sub_one_eq_zero_iff_isPowerOfTwo hn, ← hsub, ← BitVec.toNat_and]
    exact ⟨fun h => by rw [h.2]; rfl, fun h => ⟨h0, BitVec.eq_of_toNat_eq (by simpa using h)⟩⟩

/-! Sequencing. -/

@[simp] theorem Res.val_bind {α β : Type} (a : α) (s : State) (f : α → State → Res β) : (Res.val a s).bind f = f a s := rfl

@[simp] theorem Res.raised_bind {α β : Type} (k : ErrKind) (s : State) (f : α → State → Res β) :
    (Res.raised k s : Res α).bind f = .raised k s := rfl

@[simp] theorem Res.stuck_bind {α β : Type} (e : Fault) (f : α → State → Res β) :
    (Res.stuck e : Res α).bind f = .stuck e := rfl

theorem Res.bind_assoc {α β γ : Type} (r : Res α) (f : α → State → Res β) (g : β → State → Res γ) :
    (r.bind f).bind g = r.bind fun a s => (f a s).bind g := by cases r <;> rfl

/-! Emissions. -/

@[simp] theorem pushBits_nil (s : State) : pushBits s [] = s := rfl

@[simp] theorem pushBits_cons (s : State) (v : Bool) (bits : List Bool) :
    pushBits s (v :: bits) = pushBits (pushBit s v) bits := rfl

theorem pushBits_append (s : State) (a b : List Bool) : pushBits s (a ++ b) = pushBits (pushBits s a) b := by
  simp [pushBits, List.foldl_append]

/-- Emissions change OVF, BUF and BC_PROD alone. -/
theorem pushBits_eq (s : State) (bits : List Bool) :
    pushBits s bits =
      { s with ovf := (pushBits s bits).ovf, buf := (pushBits s bits).buf, bcProd := (pushBits s bits).bcProd } := by
  induction bits generalizing s with
  | nil => rfl
  | cons v rest ih => rw [pushBits_cons, ih]; rfl

theorem pushBits_bcProd (s : State) (bits : List Bool) :
    (pushBits s bits).bcProd = s.bcProd + BitVec.ofNat 64 bits.length := by
  induction bits generalizing s with
  | nil => simp
  | cons v rest ih => rw [pushBits_cons, ih, pushBit_bcProd]; apply BitVec.eq_of_toNat_eq; simp; omega

/-- The counter after emissions that stay below its top. -/
theorem zext_pushBits_bcProd {s : State} {bits : List Bool} (h : zext s.bcProd + bits.length < 2 ^ 64) :
    zext (pushBits s bits).bcProd = zext s.bcProd + bits.length := by
  simp only [zext, pushBits_bcProd, BitVec.toNat_add, BitVec.toNat_ofNat] at *
  omega

/-- The counter after one emission below its top. -/
theorem zext_pushBit_bcProd {s : State} {v : Bool} (h : zext s.bcProd + 1 < 2 ^ 64) :
    zext (pushBit s v).bcProd = zext s.bcProd + 1 := zext_pushBits_bcProd (bits := [v]) h

/-- `EmitBit` below the counter's top (R100). -/
theorem emitBit_of_lt {s : State} (h : zext s.bcProd + 1 < 2 ^ 64) (v : Bool) : emitBit v s = .val () (pushBit s v) :=
  if_neg (by omega)

/-- `EmitBit` at the counter's top (R100, R216). -/
theorem emitBit_of_top {s : State} (h : zext s.bcProd = 2 ^ 64 - 1) (v : Bool) : emitBit v s = .raised .arithmetic s :=
  if_pos h

/-- A run of emissions: all of them, or those up to the counter's top and then ArithmeticFault. -/
theorem emitBits_eq (bits : List Bool) (s : State) :
    emitBits bits s =
      if zext s.bcProd + bits.length < 2 ^ 64 then .val () (pushBits s bits)
      else .raised .arithmetic (pushBits s (bits.take (2 ^ 64 - 1 - zext s.bcProd))) := by
  induction bits generalizing s with
  | nil =>
    have h : zext s.bcProd + ([] : List Bool).length < 2 ^ 64 := s.bcProd.isLt
    rw [if_pos h]; rfl
  | cons v rest ih =>
    have hlt : zext s.bcProd < 2 ^ 64 := s.bcProd.isLt
    by_cases htop : zext s.bcProd = 2 ^ 64 - 1
    · rw [emitBits, emitBit_of_top htop, Res.raised_bind, if_neg (by simp; omega)]
      simp [htop]
    · have h1 : zext (pushBit s v).bcProd = zext s.bcProd + 1 :=
        zext_pushBits_bcProd (bits := [v]) (by simp; omega)
      rw [emitBits, emitBit_of_lt (by omega), Res.val_bind, ih, h1]
      have hk : 2 ^ 64 - 1 - zext s.bcProd = (2 ^ 64 - 1 - (zext s.bcProd + 1)) + 1 := by omega
      simp only [List.length_cons, pushBits_cons, hk, List.take_succ_cons]
      congr 1
      simp only [eq_iff_iff]; omega

/-! The sink. -/

/-- The effect of writes that are all acknowledged *done*. -/
def sinkStores (s : State) (ws : List (Nat × Byte)) : State := ws.foldl (fun t w => sinkStore t w.1 w.2) s

/-- Sink writes change the sink, its log and the answers to come alone. -/
theorem sinkStores_eq (s : State) (ws : List (Nat × Byte)) :
    sinkStores s ws = { s with sink := (sinkStores s ws).sink, sinkLog := (sinkStores s ws).sinkLog } := by
  induction ws generalizing s with
  | nil => rfl
  | cons w rest ih =>
    show sinkStores (sinkStore s w.1 w.2) rest = _
    rw [ih]; rfl

/-- Whether the sink answers a write to address `a` with a failure (R54): the address is beyond it, or the next answer is
*failed*. -/
def WriteFails (s : State) (a : Nat) : Prop := s.params.sinkSize ≤ a ∨ s.sinkAnswers[0]? = some .failed

/-- One `SinkWrite` (R54): stored, failed, or waiting for ever. -/
theorem sinkWrite_cases (a : Nat) (v : Byte) (s : State) :
    (a < s.params.sinkSize ∧ (∀ x ∈ s.sinkAnswers.take 1, x = .acked) ∧
        sinkWrite a v s = .val () (sinkStore { s with sinkAnswers := s.sinkAnswers.drop 1 } a v)) ∨
      (WriteFails s a ∧ ∃ m ≤ 1,
        sinkWrite a v s = .raised .io (sinkReject { s with sinkAnswers := s.sinkAnswers.drop m } a v)) ∨
        sinkWrite a v s = .stuck .sinkNeverAcknowledges := by
  unfold sinkWrite WriteFails
  split
  · exact .inr (.inl ⟨.inl ‹_›, 0, by omega, rfl⟩)
  · split
    · rename_i h
      have hs : { s with sinkAnswers := s.sinkAnswers.drop 1 } = s := by rw [h, List.drop_nil, ← h]
      exact .inl ⟨by omega, by simp [h], by rw [hs]⟩
    · exact .inl ⟨by omega, by simp [*], by simp [*]⟩
    · exact .inr (.inl ⟨.inr (by simp [*]), 1, le_rfl, by simp [*]⟩)
    · exact .inr (.inr rfl)

/-- A run of sink writes (R188, R189): all are stored, each taking one answer; or a front is, and the write after it
failed; or one of them hangs. -/
theorem sinkWrites_cases (ws : List (Nat × Byte)) (s : State) :
    ((∀ w ∈ ws, w.1 < s.params.sinkSize) ∧
        sinkWrites ws s = .val () (sinkStores { s with sinkAnswers := s.sinkAnswers.drop ws.length } ws)) ∨
      (∃ front a v back, ∃ m ≤ front.length + 1, ws = front ++ (a, v) :: back ∧
        (∀ w ∈ front, w.1 < s.params.sinkSize) ∧ (∀ x ∈ s.sinkAnswers.take front.length, x = .acked) ∧
          (s.params.sinkSize ≤ a ∨ s.sinkAnswers[front.length]? = some .failed) ∧
            sinkWrites ws s =
              .raised .io (sinkReject (sinkStores { s with sinkAnswers := s.sinkAnswers.drop m } front) a v)) ∨
          sinkWrites ws s = .stuck .sinkNeverAcknowledges := by
  induction ws generalizing s with
  | nil => exact .inl ⟨by simp, rfl⟩
  | cons w rest ih =>
    obtain ⟨a, v⟩ := w
    obtain ⟨hlt, hack, h⟩ | ⟨hfail, m, hm, h⟩ | h := sinkWrite_cases a v s
    · obtain ⟨hw, hr⟩ | ⟨front, a', v', back, m, hm, rfl, hw, ha, hfail, hr⟩ | hr :=
        ih (sinkStore { s with sinkAnswers := s.sinkAnswers.drop 1 } a v)
      · refine .inl ⟨List.forall_mem_cons.mpr ⟨hlt, hw⟩, ?_⟩
        rw [sinkWrites, h, Res.val_bind, hr]
        simp only [sinkStore_sinkAnswers, List.drop_drop, List.length_cons, Nat.add_comm]
        rfl
      · refine .inr (.inl ⟨(a, v) :: front, a', v', back, m + 1, by simp only [List.length_cons]; omega, rfl,
          List.forall_mem_cons.mpr ⟨hlt, hw⟩, ?_, ?_, ?_⟩)
        · cases hs : s.sinkAnswers with
          | nil => simp
          | cons x answers =>
            simp only [hs, sinkStore_sinkAnswers, List.drop_succ_cons, List.drop_zero, List.take_succ_cons,
              List.take_zero, List.mem_singleton, forall_eq] at ha hack
            simpa [hack] using ha
        · simpa [Nat.add_comm] using hfail
        · rw [sinkWrites, h, Res.val_bind, hr]
          simp only [sinkStore_sinkAnswers, List.drop_drop, Nat.add_comm]
          rfl
      · exact .inr (.inr (by rw [sinkWrites, h, Res.val_bind, hr]))
    · exact .inr (.inl ⟨[], a, v, rest, m, by simpa using hm, rfl, by simp, by simp, hfail,
        by rw [sinkWrites, h]; rfl⟩)
    · exact .inr (.inr (by rw [sinkWrites, h]; rfl))

/-! The wrapper of every command. -/

/-- What a command other than RESET can answer: a refusal in the fault state (R218), its result, or its error (R217). -/
theorem runCommand_next {body : State → Res Word} {s t : State} (h : runCommand body s = .next t) :
    (s.fault = true ∧ t = refuse s) ∨
      (s.fault = false ∧ ∃ r u, body s = .val r u ∧ t = respond u r false) ∨
        (s.fault = false ∧ ∃ k u, body s = .raised k u ∧ t = takeError k u) := by
  unfold runCommand at h
  by_cases hf : s.fault = true
  · rw [if_pos hf] at h; exact .inl ⟨hf, by cases h; rfl⟩
  · rw [if_neg hf] at h
    have hf : s.fault = false := by simpa using hf
    cases hb : body s with
    | val r u => rw [hb] at h; cases h; exact .inr (.inl ⟨hf, r, u, rfl, rfl⟩)
    | raised k u => rw [hb] at h; cases h; exact .inr (.inr ⟨hf, k, u, rfl, rfl⟩)
    | stuck f => rw [hb] at h; cases h

theorem runCommand_fault {body : State → Res Word} {s : State} (h : s.fault = true) :
    runCommand body s = .next (refuse s) := if_pos h

theorem runCommand_ok {body : State → Res Word} {s : State} (h : s.fault = false) :
    runCommand body s = complete (body s) := by simp [runCommand, h]

end Sys2Proof.Machine
end

