-- ==== Sys2Proof/Laws/FluxDecode.lean ====
section
/-! SUPPORT. What the loop and the fixed window can do: the rounds of step 2 (spec/42_decode.md R142, R148), and the
shape of every FEED. -/

namespace Sys2Proof.Machine

open Sys2Proof Sys2Proof.Safety

/-- With a positive `PE` and enough fuel, step 2 under FLOOR ends below `PE`. -/
theorem floorRun_lt {pe p e : Int} {fuel : Nat} {s t : State} (hpe : 1 ≤ pe) (hf : p.toNat ≤ fuel)
    (h : floorRun pe fuel p s = .val e t) : e < pe := by
  induction fuel generalizing p s with
  | zero => cases h; omega
  | succ n ih =>
    rw [floorRun] at h
    split at h
    · cases hb : emitBit false s with
      | val u t' => rw [hb] at h; exact ih (by omega) h
      | raised k t' => rw [hb] at h; cases h
      | stuck f => rw [hb] at h; cases h
    · cases h; omega

/-- With a positive `PE` and enough fuel, step 2 under CENTRED ends with the edge in its cell. -/
theorem centredRun_lt {pe p e : Int} {fuel : Nat} {s t : State} (hpe : 1 ≤ pe) (hf : p.toNat < fuel)
    (h : centredRun pe fuel p s = .val e t) : 2 * e < pe := by
  induction fuel generalizing p s with
  | zero => omega
  | succ n ih =>
    rw [centredRun] at h
    unfold chk at h
    split at h
    · simp only [Res.val_bind] at h
      split at h
      · cases h; assumption
      · cases hb : emitBit false s with
        | val u t' => rw [hb] at h; exact ih (by omega) h
        | raised k t' => rw [hb] at h; cases h
        | stuck f => rw [hb] at h; cases h
    · cases h

/-- Step 2 under FLOOR, round by round, is `floor(p / PE)` zeros (none below `PE`), leaving the remainder. -/
theorem floorRun_eq {pe : Int} (hpe : 1 ≤ pe) (fuel : Nat) (p : Int) (s : State) (hf : p.toNat ≤ fuel) :
    floorRun pe fuel p s =
      (emitBits (List.replicate (p / pe).toNat false) s).bind fun _ s => .val (p - (p / pe).toNat * pe) s := by
  induction fuel generalizing p s with
  | zero =>
    have hk : (p / pe).toNat = 0 := by
      rcases lt_or_ge p 0 with h | h
      · have := Int.ediv_neg_of_neg_of_pos h (by omega : 0 < pe); omega
      · rw [Int.ediv_eq_zero_of_lt h (by omega)]; rfl
    simp [floorRun, hk, emitBits]
  | succ n ih =>
    rw [floorRun]
    split
    · have hdiv : p / pe = (p - pe) / pe + 1 := by
        rw [Int.sub_ediv_of_dvd _ (dvd_refl pe), Int.ediv_self (by omega)]; omega
      have hnn : 0 ≤ (p - pe) / pe := Int.ediv_nonneg (by omega) (by omega)
      have hk : (p / pe).toNat = ((p - pe) / pe).toNat + 1 := by omega
      rw [hk, List.replicate_succ, emitBits, Res.bind_assoc]
      congr 1
      funext _ t
      rw [ih (p - pe) t (by omega)]
      congr 1
      funext _ u
      congr 1
      push_cast
      ring
    · have hk : (p / pe).toNat = 0 := by
        rcases lt_or_ge p 0 with h | h
        · have := Int.ediv_neg_of_neg_of_pos h (by omega : 0 < pe); omega
        · rw [Int.ediv_eq_zero_of_lt h (by omega)]; rfl
      simp [hk, emitBits]

/-- Below `PE` step 2 under FLOOR does nothing, whatever `PE` is. -/
theorem floorRun_of_lt {pe p : Int} (h : p < pe) (fuel : Nat) (s : State) : floorRun pe fuel p s = .val p s := by
  cases fuel with
  | zero => rfl
  | succ n => exact if_neg (by omega)

theorem chk_cases (v : Int) (s : State) :
    (fitsSigned s.params.wAcc v = true ∧ chk v s = .val v s) ∨ chk v s = .raised .arithmetic s := by
  unfold chk; split
  · exact .inl ⟨‹_›, rfl⟩
  · exact .inr rfl

/-- Step 2 under FLOOR emits at most `floor(p / PE)` zeros, and then answers or meets the counter's top. -/
theorem floorRun_cases {pe : Int} (hpe : 1 ≤ pe) (fuel : Nat) (p : Int) (s : State) :
    ∃ n ≤ (p / pe).toNat, zext s.bcProd + n < 2 ^ 64 ∧
      ((∃ e, floorRun pe fuel p s = .val e (pushBits s (List.replicate n false))) ∨
        floorRun pe fuel p s = .raised .arithmetic (pushBits s (List.replicate n false))) := by
  induction fuel generalizing p s with
  | zero => exact ⟨0, Nat.zero_le _, s.bcProd.isLt, .inl ⟨p, rfl⟩⟩
  | succ fuel ih =>
    rw [floorRun]
    split
    · by_cases htop : zext s.bcProd = 2 ^ 64 - 1
      · exact ⟨0, Nat.zero_le _, s.bcProd.isLt, .inr (by rw [emitBit_of_top htop]; rfl)⟩
      · have hlt : zext s.bcProd < 2 ^ 64 := s.bcProd.isLt
        have hdiv : p / pe = (p - pe) / pe + 1 := by
          rw [Int.sub_ediv_of_dvd _ (dvd_refl pe), Int.ediv_self (by omega)]; omega
        have hnn : 0 ≤ (p - pe) / pe := Int.ediv_nonneg (by omega) (by omega)
        obtain ⟨n, hn, hb, h⟩ := ih (p - pe) (pushBit s false)
        rw [zext_pushBit_bcProd (by omega)] at hb
        rw [emitBit_of_lt (by omega), Res.val_bind]
        exact ⟨n + 1, by omega, by omega, h⟩
    · exact ⟨0, Nat.zero_le _, s.bcProd.isLt, .inl ⟨p, rfl⟩⟩

/-- Step 2 under CENTRED, the same: a zero is emitted only while a whole period is left. -/
theorem centredRun_cases {pe : Int} (hpe : 1 ≤ pe) (fuel : Nat) (p : Int) (s : State) :
    ∃ n ≤ (p / pe).toNat, zext s.bcProd + n < 2 ^ 64 ∧
      ((∃ e, centredRun pe fuel p s = .val e (pushBits s (List.replicate n false))) ∨
        centredRun pe fuel p s = .raised .arithmetic (pushBits s (List.replicate n false))) := by
  induction fuel generalizing p s with
  | zero => exact ⟨0, Nat.zero_le _, s.bcProd.isLt, .inl ⟨p, rfl⟩⟩
  | succ fuel ih =>
    rw [centredRun]
    obtain ⟨-, hc⟩ | hc := chk_cases (p - pe) s <;> rw [hc]
    · rw [Res.val_bind]
      split
      · exact ⟨0, Nat.zero_le _, s.bcProd.isLt, .inl ⟨p - pe, rfl⟩⟩
      · by_cases htop : zext s.bcProd = 2 ^ 64 - 1
        · exact ⟨0, Nat.zero_le _, s.bcProd.isLt, .inr (by rw [emitBit_of_top htop]; rfl)⟩
        · have hlt : zext s.bcProd < 2 ^ 64 := s.bcProd.isLt
          have hdiv : p / pe = (p - pe) / pe + 1 := by
            rw [Int.sub_ediv_of_dvd _ (dvd_refl pe), Int.ediv_self (by omega)]; omega
          have hnn : 0 ≤ (p - pe) / pe := Int.ediv_nonneg (by omega) (by omega)
          obtain ⟨n, hn, hb, h⟩ := ih (p - pe) (pushBit s false)
          rw [zext_pushBit_bcProd (by omega)] at hb
          rw [emitBit_of_lt (by omega), Res.val_bind]
          exact ⟨n + 1, by omega, by omega, h⟩
    · exact ⟨0, Nat.zero_le _, s.bcProd.isLt, .inr rfl⟩

/-- What step 2 of a loop FEED can do from the advanced phase `p`: at most the whole periods in `p` as zeros, none when
PE is not positive, and then an answer or ArithmeticFault. -/
def ZeroRun (r : Res Int) (p : Int) (s : State) : Prop :=
  ∃ n ≤ if 1 ≤ s.pe then (p / s.pe).toNat else 0, zext s.bcProd + n < 2 ^ 64 ∧
    ((∃ e, r = .val e (pushBits s (List.replicate n false))) ∨
      r = .raised .arithmetic (pushBits s (List.replicate n false)))

theorem ZeroRun.ofVal (e p : Int) (s : State) : ZeroRun (.val e s) p s :=
  ⟨0, Nat.zero_le _, s.bcProd.isLt, .inl ⟨e, rfl⟩⟩

theorem ZeroRun.ofRaise (p : Int) (s : State) : ZeroRun (.raised .arithmetic s) p s :=
  ⟨0, Nat.zero_le _, s.bcProd.isLt, .inr rfl⟩

/-- What steps 2 and 3 can do: the zeros of step 2 and a 1, or a front of those bits and ArithmeticFault. -/
def EdgeRun (r : Res Int) (p : Int) (s : State) : Prop :=
  ∃ bits, ZerosThenOne bits ∧ bits.length ≤ (if 1 ≤ s.pe then (p / s.pe).toNat else 0) + 1 ∧
    zext s.bcProd + bits.length < 2 ^ 64 ∧
      ((∃ e, r = .val e (pushBits s bits)) ∨ r = .raised .arithmetic (pushBits s bits))

/-- Step 3 after step 2 (R142, R148). -/
theorem ZeroRun.edge {r : Res Int} {p : Int} {s : State} (h : ZeroRun r p s) :
    EdgeRun (r.bind fun e t => (emitBit true t).bind fun _ u => .val e u) p s := by
  obtain ⟨n, hn, hb, ⟨e, rfl⟩ | rfl⟩ := h
  · have hz := zext_pushBits_bcProd (s := s) (bits := List.replicate n false) (by simpa using hb)
    rw [List.length_replicate] at hz
    rw [Res.val_bind]
    by_cases htop : zext s.bcProd + n = 2 ^ 64 - 1
    · rw [emitBit_of_top (by omega)]
      exact ⟨_, ⟨n, .inl rfl⟩, by simp only [List.length_replicate]; omega, by simpa using hb, .inr rfl⟩
    · rw [emitBit_of_lt (by omega)]
      refine ⟨_, ⟨n, .inr rfl⟩, ?_, ?_, .inl ⟨e, by rw [pushBits_append]; rfl⟩⟩ <;>
        (simp only [List.length_append, List.length_replicate, List.length_singleton]; omega)
  · exact ⟨_, ⟨n, .inl rfl⟩, by simp only [List.length_replicate]; omega, by simpa using hb, .inr rfl⟩

theorem EdgeRun.ofRaise (p : Int) (s : State) : EdgeRun (.raised .arithmetic s) p s :=
  ⟨[], ⟨0, .inl rfl⟩, Nat.zero_le _, s.bcProd.isLt, .inr rfl⟩

theorem floorWindow_cases (dt : Nat) (p : Int) (s : State) : EdgeRun (floorWindow dt p s) p s := by
  unfold floorWindow
  split
  · exact .ofRaise p s
  · rename_i hguard
    refine ZeroRun.edge ?_
    split
    · exact .ofVal p p s
    · by_cases hpe : 1 ≤ s.pe
      · simpa only [ZeroRun, if_pos hpe] using floorRun_cases hpe p.toNat p s
      · rw [floorRun_of_lt (by omega)]; exact .ofVal p p s

theorem centredWindow_cases (dt : Nat) (p : Int) (s : State) : EdgeRun (centredWindow dt p s) p s := by
  unfold centredWindow
  split
  · exact .ofRaise p s
  · rename_i hguard
    refine ZeroRun.edge ?_
    split
    · obtain ⟨-, h⟩ | h := chk_cases (p - s.pe) s <;> rw [h]
      · exact .ofVal _ p s
      · exact .ofRaise p s
    · by_cases hpe : 1 ≤ s.pe
      · simpa only [ZeroRun, if_pos hpe] using centredRun_cases hpe (p.toNat + 1) p s
      · rw [centredRun]
        obtain ⟨-, h⟩ | h := chk_cases (p - s.pe) s <;> rw [h]
        · rw [Res.val_bind, if_pos (by omega)]; exact .ofVal _ p s
        · exact .ofRaise p s

/-- Step 4 answers an in-range phase for an in-range quotient, or raises. -/
theorem carriedPhase_cases (e q : Int) (s : State) (hq : fitsSigned s.params.wAcc q = true) :
    (∃ np, fitsSigned s.params.wAcc np = true ∧ carriedPhase e q s = .val np s) ∨
      carriedPhase e q s = .raised .arithmetic s := by
  unfold carriedPhase; split
  · exact .inl ⟨q, hq, rfl⟩
  · rcases chk_cases (e - q) s with ⟨h, h'⟩ | h
    · exact .inl ⟨_, h, h'⟩
    · exact .inr h

/-- Steps 4 and 5 commit in-range values to PHASE and PE, or raise and change nothing. -/
theorem loopCorrect_cases (e : Int) (s : State) :
    (∃ np npe, fitsSigned s.params.wAcc np = true ∧ fitsSigned s.params.wAcc npe = true ∧
        loopCorrect e s = .val () { s with phase := np, pe := npe }) ∨
      loopCorrect e s = .raised .arithmetic s := by
  unfold loopCorrect
  rcases chk_cases (tdiv e (sext s.lediv)) s with ⟨hq, h⟩ | h <;> rw [h]
  · rw [Res.val_bind]
    rcases carriedPhase_cases e _ s hq with ⟨np, hnp, h⟩ | h <;> rw [h]
    · rw [Res.val_bind]
      rcases chk_cases (tdiv e (sext s.lidiv)) s with ⟨-, h⟩ | h <;> rw [h]
      · rw [Res.val_bind]
        rcases chk_cases (s.pe + tdiv e (sext s.lidiv)) s with ⟨hpe, h⟩ | h <;> rw [h]
        · exact .inl ⟨np, _, hnp, hpe, rfl⟩
        · exact .inr rfl
      · exact .inr rfl
    · exact .inr rfl
  · exact .inr rfl

/-- The bits a FEED emitted, or a front of them: their shape, how many they can be (R155), and that the counter held them. -/
structure FeedBits (dt : Nat) (s : State) (bits : List Bool) : Prop where
  shape : ZerosThenOne bits
  bound : bits.length ≤ feedBound dt s
  counted : zext s.bcProd + bits.length < 2 ^ 64

/-- A loop FEED emits its bits, then commits in-range PHASE and PE, or raises ArithmeticFault and leaves both. -/
theorem loopFeed_cases (dt : Nat) (s : State) (hs : s.strat ≠ tagFw) :
    ∃ bits, FeedBits dt s bits ∧
      ((∃ np npe, fitsSigned s.params.wAcc np = true ∧ fitsSigned s.params.wAcc npe = true ∧
          loopFeed dt s = .val () { pushBits s bits with phase := np, pe := npe }) ∨
        loopFeed dt s = .raised .arithmetic (pushBits s bits)) := by
  have hbound : feedBound dt s = (if 1 ≤ s.pe then ((s.phase + dt) / s.pe).toNat else 0) + 1 := if_neg hs
  unfold loopFeed
  obtain ⟨-, hc⟩ | hc := chk_cases (s.phase + dt) s <;> rw [hc]
  · have window : EdgeRun (phaseError dt (s.phase + dt) s) (s.phase + dt) s := by
      unfold phaseError; split
      · exact floorWindow_cases ..
      · exact centredWindow_cases ..
    obtain ⟨bits, hsh, hl, hb, ⟨e, h⟩ | h⟩ := window <;>
      refine ⟨bits, ⟨hsh, hbound ▸ hl, hb⟩, ?_⟩ <;> rw [Res.val_bind, h]
    · rw [Res.val_bind]
      have hp : (pushBits s bits).params = s.params := by rw [pushBits_eq]
      rcases loopCorrect_cases e (pushBits s bits) with ⟨np, npe, h1, h2, h3⟩ | h3
      · rw [hp] at h1 h2
        exact .inl ⟨np, npe, h1, h2, h3⟩
      · exact .inr h3
    · exact .inr rfl
  · exact ⟨[], ⟨⟨0, .inl rfl⟩, Nat.zero_le _, s.bcProd.isLt⟩, .inr rfl⟩

/-- A front of an interval's bits is zeros, and then a 1 or not yet. -/
theorem intervalBits_take (n k : Nat) : ZerosThenOne ((intervalBits n).take k) := by
  unfold intervalBits
  split
  · by_cases h : k ≤ n - 1
    · exact ⟨min k (n - 1), .inl (by rw [List.take_append_of_le_length (by simpa using h), List.take_replicate])⟩
    · exact ⟨n - 1, .inr (List.take_of_length_le (by simp; omega))⟩
  · exact ⟨0, .inl (by simp)⟩

theorem length_intervalBits (n : Nat) : (intervalBits n).length = n := by
  unfold intervalBits; split <;> simp <;> omega

/-- A fixed-window FEED emits the bits of its interval, and raises only at the counter's top (R150). -/
theorem fixedWindowFeed_cases (dt : Nat) (s : State) (hs : s.strat = tagFw) :
    ∃ bits, FeedBits dt s bits ∧
      (fixedWindowFeed dt s = .val () (pushBits s bits) ∨
        fixedWindowFeed dt s = .raised .arithmetic (pushBits s bits)) := by
  have hbound : feedBound dt s = windowCells dt (zext s.period) := if_pos hs
  have hlt : zext s.bcProd < 2 ^ 64 := s.bcProd.isLt
  have hlen := length_intervalBits (windowCells dt (zext s.period))
  unfold fixedWindowFeed
  rw [emitBits_eq]
  split
  · refine ⟨_, ⟨?_, by rw [hlen, hbound], ‹_›⟩, .inl rfl⟩
    simpa only [List.take_of_length_le hlen.le] using
      intervalBits_take (windowCells dt (zext s.period)) (windowCells dt (zext s.period))
  · refine ⟨_, ⟨intervalBits_take .., ?_, ?_⟩, .inr rfl⟩ <;> rw [List.length_take] <;> omega

end Sys2Proof.Machine
end

