-- ==== Sys2Proof/Laws/Exec.lean ====
section
/-! SUPPORT. Everything one command can do: the states its pseudocode can complete in (`Effect`), the states a `raise` can
leave (`Partial`), and the inversion of `exec` and of `step` into them. -/

namespace Sys2Proof.Machine

open Sys2Proof

/-- The states the pseudocode of a command other than RESET can complete in, from `s`. -/
inductive Effect (s : State) : Instr → State → Prop where
  | nop : Effect s .nop s
  | create (c : Word) (hm : s.mode ≠ .decoding) (hp : isPowerOfTwo c = true) (hc : zext c ≤ s.params.maxCapBits) :
      Effect s (.create c) (clearBuffer { s with cap := c, mode := .ready })
  | emit (v : Bool) (hm : s.mode = .ready) (hb : zext s.bcProd + 1 < 2 ^ 64) : Effect s (.emit v) (pushBit s v)
  | bitcount : Effect s .bitcount s
  | bitcounthi : Effect s .bitcounthi s
  | readword (k : Word) (hm : s.mode ≠ .idle) : Effect s (.readword k) s
  | setrate (r : Half) (hm : s.mode ≠ .decoding) (h0 : r ≠ 0) (hp : periodOfRate r ≠ 0) :
      Effect s (.setrate r) { s with rate := r, period := BitVec.ofNat 32 (periodOfRate r), rateValid := true }
  | setidiv (d : Word) (hm : s.mode ≠ .decoding) (h0 : d ≠ 0) :
      Effect s (.setidiv d) { s with idiv := d, idivValid := true }
  | setediv (d : Word) (hm : s.mode ≠ .decoding) (h0 : d ≠ 0) :
      Effect s (.setediv d) { s with ediv := d, edivValid := true }
  | select (t : Byte) (hm : s.mode ≠ .decoding) (ht : namesStrategy s.params t = true) :
      Effect s (.select t) { s with strat := t, stratValid := true }
  | start (li le : Word) (hi : s.mode ≠ .idle) (hd : s.mode ≠ .decoding) (hr : s.rateValid = true)
      (hs : s.stratValid = true) (hl : latchedDivisors s = some (li, le)) :
      Effect s .start
        (clearBuffer { s with lidiv := li, lediv := le, phase := 0, pe := zext s.period, mode := .decoding })
  | feedWindow (dt : Half) (bits : List Bool) (hm : s.mode = .decoding) (hs : s.strat = tagFw)
      (hb : FeedBits (zext dt) s bits) : Effect s (.feed dt) (pushBits s bits)
  | feedLoop (dt : Half) (bits : List Bool) (np npe : Int) (hm : s.mode = .decoding) (hs : s.strat ≠ tagFw)
      (hb : FeedBits (zext dt) s bits) (hp : fitsSigned s.params.wAcc np = true)
      (he : fitsSigned s.params.wAcc npe = true) :
      Effect s (.feed dt) { pushBits s bits with phase := np, pe := npe }
  | finish (hm : s.mode = .decoding) : Effect s .finish { s with mode := .decoded }
  | rdphase : Effect s .rdphase s
  | rdperiod : Effect s .rdperiod s
  | serialize (hm : s.mode = .ready ∨ s.mode = .decoded) (hr : s.rateValid = true) (ho : s.ovf = false)
      (hw : ∀ w ∈ imageWrites s, w.1 < s.params.sinkSize) :
      Effect s .serialize
        { sinkStores { s with sinkAnswers := s.sinkAnswers.drop (imageWrites s).length } (imageWrites s) with
          mode := .done }

/-- The errors a command's pseudocode can raise with the states they leave (spec/60_exceptions.md R217): the state before
the command, the bits a FEED emitted, or the sink bytes SERIALIZE wrote. -/
inductive Partial (s : State) : Instr → ErrKind → State → Prop where
  | unchanged (i : Instr) (k : ErrKind) : Partial s i k s
  | feed (dt : Half) (bits : List Bool) (hm : s.mode = .decoding) (hb : FeedBits (zext dt) s bits) :
      Partial s (.feed dt) .arithmetic (pushBits s bits)
  | serialize (front : List (Nat × Byte)) (a : Nat) (v : Byte) (back : List (Nat × Byte)) (m : Nat)
      (hm : s.mode = .ready ∨ s.mode = .decoded) (hl : m ≤ front.length + 1)
      (hw : imageWrites s = front ++ (a, v) :: back) (hf : ∀ w ∈ front, w.1 < s.params.sinkSize)
      (ha : ∀ x ∈ s.sinkAnswers.take front.length, x = .acked)
      (hx : s.params.sinkSize ≤ a ∨ s.sinkAnswers[front.length]? = some .failed) :
      Partial s .serialize .io
        (sinkReject (sinkStores { s with sinkAnswers := s.sinkAnswers.drop m } front) a v)

/-- The pseudocode of each command other than RESET. -/
def bodyOf : Instr → State → Res Word
  | .nop, s => .val 0 s
  | .reset, s => .val 0 s
  | .create c, s => createBody c s
  | .emit v, s => emitBody v s
  | .bitcount, s => .val (s.bcProd.extractLsb' 0 32) s
  | .bitcounthi, s => .val (s.bcProd.extractLsb' 32 32) s
  | .readword k, s => readwordBody k s
  | .setrate r, s => setrateBody r s
  | .setidiv d, s => setidivBody d s
  | .setediv d, s => setedivBody d s
  | .select t, s => selectBody t s
  | .start, s => startBody s
  | .feed dt, s => feedBody dt s
  | .finish, s => finishBody s
  | .rdphase, s => .val (lo32 s.phase) s
  | .rdperiod, s => .val (lo32 s.pe) s
  | .serialize, s => serializeBody s

/-- Every command other than RESET runs in the shared wrapper. -/
theorem exec_eq_runCommand (i : Instr) (s : State) (hi : i ≠ .reset) : exec i s = runCommand (bodyOf i) s := by
  cases i <;> first | rfl | exact absurd rfl hi

/-- A completed or raising body, for a command whose checks leave only the two ways `val` from `u` and `raised`. -/
def BodyFits (s : State) (i : Instr) (r : Res Word) : Prop :=
  (∃ w u, r = .val w u ∧ Effect s i u) ∨ (∃ k u, r = .raised k u ∧ Partial s i k u) ∨ ∃ f, r = .stuck f

theorem BodyFits.ofVal {s u : State} {i : Instr} (w : Word) (h : Effect s i u) : BodyFits s i (.val w u) :=
  .inl ⟨w, u, rfl, h⟩

theorem BodyFits.ofRaise (s : State) (i : Instr) (k : ErrKind) : BodyFits s i (.raised k s) :=
  .inr (.inl ⟨k, s, rfl, .unchanged i k⟩)

theorem createBody_fits (c : Word) (s : State) : BodyFits s (.create c) (createBody c s) := by
  unfold createBody
  split
  · exact .ofRaise ..
  · split
    · exact .ofRaise ..
    · split
      · exact .ofRaise ..
      · exact .ofVal 0 (.create c ‹_› (by simpa using ‹¬isPowerOfTwo c = false›) (by omega))

theorem emitBody_fits (v : Bool) (s : State) : BodyFits s (.emit v) (emitBody v s) := by
  unfold emitBody
  split
  · exact .ofRaise ..
  · have hm : s.mode = .ready := by simpa using ‹¬s.mode ≠ .ready›
    by_cases h : zext s.bcProd = 2 ^ 64 - 1
    · rw [emitBit_of_top h]; exact .ofRaise ..
    · have hlt : zext s.bcProd < 2 ^ 64 := s.bcProd.isLt
      rw [emitBit_of_lt (by omega)]
      exact .ofVal 0 (.emit v hm (by omega))

theorem setrateBody_fits (r : Half) (s : State) : BodyFits s (.setrate r) (setrateBody r s) := by
  unfold setrateBody
  split
  · exact .ofRaise ..
  · split
    · exact .ofRaise ..
    · split
      · exact .ofRaise ..
      · exact .ofVal _ (.setrate r ‹_› ‹_› ‹_›)

theorem setidivBody_fits (d : Word) (s : State) : BodyFits s (.setidiv d) (setidivBody d s) := by
  unfold setidivBody
  split
  · exact .ofRaise ..
  · split
    · exact .ofRaise ..
    · exact .ofVal _ (.setidiv d ‹_› ‹_›)

theorem setedivBody_fits (d : Word) (s : State) : BodyFits s (.setediv d) (setedivBody d s) := by
  unfold setedivBody
  split
  · exact .ofRaise ..
  · split
    · exact .ofRaise ..
    · exact .ofVal _ (.setediv d ‹_› ‹_›)

theorem selectBody_fits (t : Byte) (s : State) : BodyFits s (.select t) (selectBody t s) := by
  unfold selectBody
  split
  · exact .ofRaise ..
  · split
    · exact .ofRaise ..
    · exact .ofVal _ (.select t ‹_› (by simpa using ‹¬namesStrategy s.params t = false›))

theorem startBody_fits (s : State) : BodyFits s .start (startBody s) := by
  unfold startBody
  split
  · exact .ofRaise ..
  · rename_i hm
    split
    · exact .ofRaise ..
    · rename_i hv
      simp only [not_or, Bool.not_eq_false] at hm hv
      split
      · exact .ofRaise ..
      · exact .ofVal _ (.start _ _ hm.1 hm.2 hv.1 hv.2 ‹_›)

theorem feedBody_fits (dt : Half) (s : State) : BodyFits s (.feed dt) (feedBody dt s) := by
  unfold feedBody
  split
  · exact .ofRaise ..
  · have hm : s.mode = .decoding := by simpa using ‹¬s.mode ≠ .decoding›
    split
    · obtain ⟨bits, hb, h | h⟩ := fixedWindowFeed_cases (zext dt) s ‹_› <;> rw [h]
      · exact .ofVal _ (.feedWindow dt bits hm ‹_› hb)
      · exact .inr (.inl ⟨_, _, rfl, .feed dt bits hm hb⟩)
    · obtain ⟨bits, hb, ⟨np, npe, hp, he, h⟩ | h⟩ := loopFeed_cases (zext dt) s ‹_› <;> rw [h]
      · exact .ofVal _ (.feedLoop dt bits np npe hm ‹_› hb hp he)
      · exact .inr (.inl ⟨_, _, rfl, .feed dt bits hm hb⟩)

theorem finishBody_fits (s : State) : BodyFits s .finish (finishBody s) := by
  unfold finishBody
  split
  · exact .ofRaise ..
  · exact .ofVal _ (.finish (by simpa using ‹¬s.mode ≠ .decoding›))

theorem readwordBody_fits (k : Word) (s : State) : BodyFits s (.readword k) (readwordBody k s) := by
  unfold readwordBody
  split
  · exact .ofRaise ..
  · exact .ofVal _ (.readword k ‹_›)

theorem serializeBody_fits (s : State) : BodyFits s .serialize (serializeBody s) := by
  unfold serializeBody
  split
  · exact .ofRaise ..
  · rename_i hm
    have hm : s.mode = .ready ∨ s.mode = .decoded := by
      by_cases h : s.mode = .ready
      · exact .inl h
      · exact .inr (by simpa [h] using hm)
    split
    · exact .ofRaise ..
    · split
      · exact .ofRaise ..
      · rename_i hr ho
        simp only [Bool.not_eq_false, Bool.not_eq_true] at hr ho
        obtain ⟨hw, h⟩ | ⟨front, a, v, back, m, hl, hw, hf, ha, hx, h⟩ | h := sinkWrites_cases (imageWrites s) s <;>
          rw [h]
        · exact .ofVal _ (.serialize hm hr ho hw)
        · exact .inr (.inl ⟨_, _, rfl, .serialize front a v back m hm hl hw hf ha hx⟩)
        · exact .inr (.inr ⟨_, rfl⟩)

/-- Every command's pseudocode completes in an `Effect`, raises in a `Partial`, or is stuck. -/
theorem bodyOf_fits (i : Instr) (s : State) (hi : i ≠ .reset) : BodyFits s i (bodyOf i s) := by
  cases i with
  | nop => exact .ofVal _ .nop
  | reset => exact absurd rfl hi
  | create c => exact createBody_fits c s
  | emit v => exact emitBody_fits v s
  | bitcount => exact .ofVal _ .bitcount
  | bitcounthi => exact .ofVal _ .bitcounthi
  | readword k => exact readwordBody_fits k s
  | setrate r => exact setrateBody_fits r s
  | setidiv d => exact setidivBody_fits d s
  | setediv d => exact setedivBody_fits d s
  | select t => exact selectBody_fits t s
  | start => exact startBody_fits s
  | feed dt => exact feedBody_fits dt s
  | finish => exact finishBody_fits s
  | rdphase => exact .ofVal _ .rdphase
  | rdperiod => exact .ofVal _ .rdperiod
  | serialize => exact serializeBody_fits s

/-- What a command answers when it answers a next state: RESET; a refusal; its effect and response; or its error. -/
theorem exec_next {i : Instr} {s t : State} (h : exec i s = .next t) :
    (i = .reset ∧ t = respond (resetBlock s) 0 false) ∨
      (i ≠ .reset ∧ s.fault = true ∧ t = refuse s) ∨
        (i ≠ .reset ∧ s.fault = false ∧ ∃ r u, Effect s i u ∧ t = respond u r false) ∨
          (i ≠ .reset ∧ s.fault = false ∧ ∃ k u, Partial s i k u ∧ t = takeError k u) := by
  by_cases hi : i = .reset
  · subst hi; cases h; exact .inl ⟨rfl, rfl⟩
  · rw [exec_eq_runCommand i s hi] at h
    obtain ⟨hf, rfl⟩ | ⟨hf, r, u, hb, rfl⟩ | ⟨hf, k, u, hb, rfl⟩ := runCommand_next h
    · exact .inr (.inl ⟨hi, hf, rfl⟩)
    · obtain ⟨w, u', hv, he⟩ | ⟨k, u', hv, -⟩ | ⟨f, hv⟩ := bodyOf_fits i s hi <;> rw [hb] at hv <;> cases hv
      exact .inr (.inr (.inl ⟨hi, hf, r, u, he, rfl⟩))
    · obtain ⟨w, u', hv, -⟩ | ⟨k', u', hv, hp⟩ | ⟨f, hv⟩ := bodyOf_fits i s hi <;> rw [hb] at hv <;> cases hv
      exact .inr (.inr (.inr ⟨hi, hf, k, u, hp, rfl⟩))

/-- A long command's first word is held only when it is long; every other fetch leaves the block alone but for the
port, PEND and CP, or resets it. -/
theorem fetch_cases (s : State) :
    (fetch s = .noCommand s) ∨ (∃ rest, fetch s = .noCommand (hardwareReset rest s)) ∨
      (∃ w rest, isLong w = true ∧ fetch s = .noCommand (holdFirst w rest s)) ∨
        ∃ d n rest, fetch s = .command d (takeWords n rest s) := by
  unfold fetch
  split
  · exact .inl rfl
  · exact .inr (.inl ⟨_, rfl⟩)
  · split
    · exact .inr (.inr (.inr ⟨_, _, _, rfl⟩))
    · split
      · split
        · exact .inr (.inr (.inr ⟨_, _, _, rfl⟩))
        · exact .inr (.inr (.inl ⟨_, _, ‹_›, rfl⟩))
        · exact .inr (.inr (.inl ⟨_, _, ‹_›, rfl⟩))
      · exact .inr (.inr (.inr ⟨_, _, _, rfl⟩))

/-- What a step that answers a next state did: waited, reset, held a word, ran a command, or met an illegal one. -/
theorem step_next {s t : State} (h : step s = .next t) :
    t = s ∨ (∃ rest, t = hardwareReset rest s) ∨ (∃ w rest, isLong w = true ∧ t = holdFirst w rest s) ∨
      ∃ n rest, (∃ i, exec i (takeWords n rest s) = .next t) ∨ illegalCommand (takeWords n rest s) = .next t := by
  unfold step at h
  obtain hf | ⟨rest, hf⟩ | ⟨w, rest, hl, hf⟩ | ⟨d, n, rest, hf⟩ := fetch_cases s <;> rw [hf] at h
  · cases h; exact .inl rfl
  · cases h; exact .inr (.inl ⟨rest, rfl⟩)
  · cases h; exact .inr (.inr (.inl ⟨w, rest, hl, rfl⟩))
  · refine .inr (.inr (.inr ⟨n, rest, ?_⟩))
    cases d with
    | instr i => exact .inl ⟨i, h⟩
    | unassignedOpcode => exact .inr h
    | mustBeZero => exact .inr h

/-- An illegal command is refused in the fault state and otherwise raises IllegalCommand (R215, R220). -/
theorem illegalCommand_next {s t : State} (h : illegalCommand s = .next t) :
    (s.fault = true ∧ t = refuse s) ∨ (s.fault = false ∧ t = takeError .illegalCommand s) := by
  obtain h | ⟨-, r, u, hb, -⟩ | ⟨hf, k, u, hb, rfl⟩ := runCommand_next h
  · exact .inl h
  · cases hb
  · cases hb; exact .inr ⟨hf, rfl⟩

end Sys2Proof.Machine
end

