-- ==== Sys2Proof/Laws/PerInstr.lean ====
section
/-! SUPPORT. The per-instruction family `Fields`: every command's opcode is in the map (spec/30_encoding.md R75), and its
ARG field sets no must-be-zero bit (R73, R74). -/

namespace Sys2Proof.Laws.Fields

open Sys2Proof Sys2Proof.Safety

/-- R74, R75: an assigned opcode, and an ARG field within the operand bits. -/
def Statement (i : Instr) : Prop :=
  (opcodeOf i).toNat ∈ assignedOpcodes ∧ (argOf i).toNat < 2 ^ operandBits (opcodeOf i).toNat

theorem nop : Statement .nop := ⟨by simp [assignedOpcodes, opcodeOf], by simp [argOf]⟩

theorem reset : Statement .reset := ⟨by simp [assignedOpcodes, opcodeOf], by simp [argOf]⟩

theorem create (capLit : Word) : Statement (.create capLit) := ⟨by simp [assignedOpcodes, opcodeOf], by simp [argOf]⟩

theorem emit (v : Bool) : Statement (.emit v) := ⟨by simp [assignedOpcodes, opcodeOf], by cases v <;> decide⟩

theorem bitcount : Statement .bitcount := ⟨by simp [assignedOpcodes, opcodeOf], by simp [argOf]⟩

theorem bitcounthi : Statement .bitcounthi := ⟨by simp [assignedOpcodes, opcodeOf], by simp [argOf]⟩

theorem readword (idx : Word) : Statement (.readword idx) := ⟨by simp [assignedOpcodes, opcodeOf], by simp [argOf]⟩

/-- A zero-extended field keeps its number. -/
theorem toNat_field {n : Nat} (f : BitVec n) (h : n ≤ 24) : (f.setWidth 24).toNat < 2 ^ n := by
  rw [BitVec.toNat_setWidth_of_le h]; exact f.isLt

theorem setrate (rate : Half) : Statement (.setrate rate) := ⟨by simp [assignedOpcodes, opcodeOf], toNat_field rate (by decide)⟩

theorem setidiv (div : Word) : Statement (.setidiv div) := ⟨by simp [assignedOpcodes, opcodeOf], by simp [argOf]⟩

theorem setediv (div : Word) : Statement (.setediv div) := ⟨by simp [assignedOpcodes, opcodeOf], by simp [argOf]⟩

theorem select (tag : Byte) : Statement (.select tag) := ⟨by simp [assignedOpcodes, opcodeOf], toNat_field tag (by decide)⟩

theorem start : Statement .start := ⟨by simp [assignedOpcodes, opcodeOf], by simp [argOf]⟩

theorem feed (dt : Half) : Statement (.feed dt) := ⟨by simp [assignedOpcodes, opcodeOf], toNat_field dt (by decide)⟩

theorem finish : Statement .finish := ⟨by simp [assignedOpcodes, opcodeOf], by simp [argOf]⟩

theorem rdphase : Statement .rdphase := ⟨by simp [assignedOpcodes, opcodeOf], by simp [argOf]⟩

theorem rdperiod : Statement .rdperiod := ⟨by simp [assignedOpcodes, opcodeOf], by simp [argOf]⟩

theorem serialize : Statement .serialize := ⟨by simp [assignedOpcodes, opcodeOf], by simp [argOf]⟩

end Sys2Proof.Laws.Fields
end

