-- ==== Sys2Proof/Tests/Slice0.lean ====
section
/-! SUPPORT. Tests: the static checks, decoding of words written out from spec/30_encoding.md, one-step vectors of
spec/95_test_vectors.md, and for every statement with hypotheses a state and operands that meet them. -/

namespace Sys2Proof.Tests

open Sys2Proof Sys2Proof.Machine Sys2Proof.Safety

/-! Helpers. -/

/-- The default parameters with a sink of 2048 bytes. -/
def someParams : Params := { Params.standard with sinkSize := 2048 }

/-- The reset state of a block with those parameters. -/
def fresh : State := { State.reset with params := someParams }

/-- A block with a 32-bit buffer and bit rate 360 (PERIOD 100), in a mode. -/
def block (m : Mode) : State :=
  { fresh with mode := m, cap := 32, rate := 360, period := 100, rateValid := true }

/-- A running fixed-window decode. -/
def windowed : State := { block .decoding with strat := 1, stratValid := true, pe := 100 }

/-- A running loop decode with divisors 4 and 4, PHASE 12 and PE 100. -/
def looping : State :=
  { block .decoding with
    stratValid := true, idiv := 4, idivValid := true, ediv := 4, edivValid := true, lidiv := 4, lediv := 4
    phase := 12, pe := 100 }

/-- The same with the centred window. -/
def centring : State := { looping with params := { someParams with loopWindow := .centred } }

/-- A block in the fault state. -/
def faulted : State := { block .ready with fault := true, err := some .sequence }

/-- The last response of an outcome. -/
def answer : Host.Outcome State Fault Refusal → Option Response
  | .next t => t.responses.getLast?
  | .fault _ => none
  | .refused _ => none

/-- The next state of an outcome, or a default. -/
def after (o : Host.Outcome State Fault Refusal) : State :=
  match o with
  | .next t => t
  | .fault _ => fresh
  | .refused _ => fresh

/-! The static checks (R6, R79, R149): an ill-formed term for each. -/

theorem test_wf_max_cap_not_power : ({ someParams with maxCapBits := 12 } : Params).legal = false := by decide
theorem test_wf_max_cap_too_large : ({ someParams with maxCapBits := 2 ^ 32 } : Params).legal = false := by decide
theorem test_wf_wacc_too_small : ({ someParams with wAcc := 31 } : Params).legal = false := by decide
theorem test_wf_wacc_too_large : ({ someParams with wAcc := 65 } : Params).legal = false := by decide
theorem test_wf_preset_zero_integral : ({ someParams with presetTable := [⟨"P", 0, 4⟩] } : Params).legal = false := by decide
theorem test_wf_preset_zero_error : ({ someParams with presetTable := [⟨"P", 4, 0⟩] } : Params).legal = false := by decide
theorem test_wf_too_many_presets :
    ({ someParams with presetTable := List.replicate 127 ⟨"P", 1, 1⟩ } : Params).legal = false := by
  simp [Params.legal]
theorem test_wf_standard_legal : someParams.legal = true := by decide
theorem test_wf_operand_too_wide : (AsmLine.num .feed (.dec 65536)).wf = false := by decide
theorem test_wf_hex_too_wide : (AsmLine.num .select (.hex 0x100)).wf = false := by decide
theorem test_wf_sign_on_unsigned : (AsmLine.num .feed (.signed true 1)).wf = false := by decide
theorem test_wf_signed_out_of_range : (AsmLine.num .setidiv (.signed true 2147483649)).wf = false := by decide
theorem test_wf_signed_decimal_out_of_range : (AsmLine.num .setidiv (.dec 2147483648)).wf = false := by decide
theorem test_wf_operand_missing : (AsmLine.bare .emit).wf = false := by decide
theorem test_wf_operand_unexpected : (AsmLine.num .nop (.dec 0)).wf = false := by decide
theorem test_wf_preset_tag_too_large : (AsmLine.tag (.preset 254)).wf = false := by decide
theorem test_wf_nco_out_of_range : (AsmLine.nco (.dec 1) (.dec 2147483648)).wf = false := by decide
theorem test_wf_decode_sample_too_wide : (AsmLine.decode [.dec 1, .dec 65536]).wf = false := by decide
theorem test_wf_emits_not_a_bit : (AsmLine.emits [.dec 0, .dec 2]).wf = false := by decide
theorem test_wf_config_rate_too_wide : (AsmLine.config (.dec 65536) .fw).wf = false := by decide
theorem test_wf_config_tag_too_large : (AsmLine.config (.dec 1) (.preset 300)).wf = false := by decide

/-! Decoding (R70 to R78): a word of every command, from its row of the map. -/

theorem test_decode_control :
    decodeCommand 0x00000000 0 = .instr .nop ∧ decodeCommand 0x01000000 0 = .instr .reset := by decide

theorem test_decode_buffer :
    decodeCommand 0x10000000 0x00000040 = .instr (.create 64) ∧ decodeCommand 0x11000001 0 = .instr (.emit true) ∧
      decodeCommand 0x11000000 0 = .instr (.emit false) ∧ decodeCommand 0x12000000 0 = .instr .bitcount ∧
        decodeCommand 0x13000000 0 = .instr .bitcounthi ∧
          decodeCommand 0x14000000 0xFFFFFFFF = .instr (.readword 0xFFFFFFFF) := by decide

theorem test_decode_strategy :
    decodeCommand 0x20000168 0 = .instr (.setrate 360) ∧ decodeCommand 0x21000000 0x10 = .instr (.setidiv 16) ∧
      decodeCommand 0x22000000 0xFFFFFFFD = .instr (.setediv (-3)) ∧
        decodeCommand 0x230000FF 0 = .instr (.select 0xFF) := by decide

theorem test_decode_decode :
    decodeCommand 0x30000000 0 = .instr .start ∧ decodeCommand 0x3100FFFF 0 = .instr (.feed 0xFFFF) ∧
      decodeCommand 0x32000000 0 = .instr .finish ∧ decodeCommand 0x33000000 0 = .instr .rdphase ∧
        decodeCommand 0x34000000 0 = .instr .rdperiod := by decide

theorem test_decode_serialize : decodeCommand 0x40000000 0 = .instr .serialize := by decide

/-- V2.2, V2.4, V2.6, V2.8, V2.9, V2.13, V2.16: the lowest must-be-zero bit. -/
theorem test_decode_must_be_zero :
    decodeCommand 0x00000001 0 = .mustBeZero ∧ decodeCommand 0x11000002 0 = .mustBeZero ∧
      decodeCommand 0x20010000 0 = .mustBeZero ∧ decodeCommand 0x23000100 0 = .mustBeZero ∧
        decodeCommand 0x31010000 0 = .mustBeZero ∧ decodeCommand 0x10000005 7 = .mustBeZero ∧
          decodeCommand 0x01000001 0 = .mustBeZero := by decide

/-- V2.10 to V2.12: opcodes at the edges of the map. -/
theorem test_decode_unassigned :
    decodeCommand 0x41000000 0 = .unassignedOpcode ∧ decodeCommand 0xFF000000 0 = .unassignedOpcode ∧
      decodeCommand 0x02000000 0 = .unassignedOpcode ∧ decodeCommand 0x0F000000 0 = .unassignedOpcode ∧
        decodeCommand 0x15000000 0 = .unassignedOpcode ∧ decodeCommand 0x24000000 0 = .unassignedOpcode ∧
          decodeCommand 0x35000000 0 = .unassignedOpcode := by decide

/-- R55: the bytes of CREATE 32, lowest address first, then a NOP's first byte left over. -/
theorem test_decode_bytes :
    decodeBytes [0x00, 0x00, 0x00, 0x10, 0x20, 0x00, 0x00, 0x00, 0x00] = .command (.instr (.create 32)) [0x00] ∧
      decodeBytes [0x00, 0x00, 0x00, 0x10, 0x20] = .incomplete := by decide

theorem test_table_word :
    decodeTableWord 64 0x4010000001 = none ∧ decodeTableWord 64 0x4010000000 = some (.create 64) ∧
      decodeTableWord 32 0x31000064 = some (.feed 100) := by decide

theorem test_fetch_word :
    answer (step (State.reset.withFetchWord 32 0x20000168)) = some ⟨0x64, 0x0200⟩ ∧
      answer (step (State.reset.withFetchWord 64 0x2010000000)) = some ⟨0, 0x0001⟩ ∧
        answer (step (State.reset.withFetchWord 32 0x41000000)) = some ⟨0, 0x0058⟩ := by decide

/-! One step of each command (spec/95_test_vectors.md). -/

/-- V2.1, V8.7. -/
theorem test_nop : answer (exec .nop fresh) = some ⟨0, 0⟩ := by decide
theorem test_nop_refused : answer (exec .nop faulted) = some ⟨0, 0x2249⟩ := by decide

/-- V8.4: RESET leaves the fault state. -/
theorem test_reset : answer (exec .reset faulted) = some ⟨0, 0⟩ := by decide
theorem test_reset_clears_pending : (after (exec .reset looping)).pe = 0 := by decide

/-- V3.1: 2^24 is accepted, 2^25 and 3 are not. -/
theorem test_create : answer (exec (.create 0x01000000) fresh) = some ⟨0, 0x0001⟩ := by decide
theorem test_create_rejects :
    answer (exec (.create 0x02000000) fresh) = some ⟨0, 0x0018⟩ ∧ answer (exec (.create 3) fresh) = some ⟨0, 0x0018⟩ := by
  decide

/-- V3.5: the ninth bit of an 8-bit buffer sets OVF. -/
theorem test_emit_wraps :
    answer (exec (.emit true) { fresh with mode := .ready, cap := 8, bcProd := 8 }) = some ⟨0, 0x0101⟩ := by decide

/-- V3.9, V3.3. -/
theorem test_emit_rejects :
    answer (exec (.emit true) { fresh with mode := .ready, cap := 8, bcProd := -1 }) = some ⟨0, 0x0069⟩ ∧
      answer (exec (.emit true) fresh) = some ⟨0, 0x0048⟩ := by decide

theorem test_bitcount :
    answer (exec .bitcount { block .decoded with bcProd := 0x500000022 }) = some ⟨0x22, 0x0203⟩ := by decide

theorem test_bitcounthi :
    answer (exec .bitcounthi { block .decoded with bcProd := 0x500000022 }) = some ⟨5, 0x0203⟩ := by decide

/-- V3.5: an 8-bit buffer repeats in a word. -/
theorem test_readword :
    answer (exec (.readword 5)
      { fresh with
        mode := .ready, cap := 8, bcProd := 10, ovf := true
        buf := [(0, true), (1, true), (2, true), (4, true), (6, true)] }) = some ⟨0xEAEAEAEA, 0x0101⟩ := by decide

/-- V3.8. -/
theorem test_readword_idle : answer (exec (.readword 0) fresh) = some ⟨0, 0x0048⟩ := by decide

/-- V4.1. -/
theorem test_setrate :
    answer (exec (.setrate 7) fresh) = some ⟨5142, 0x0200⟩ ∧ answer (exec (.setrate 36000) fresh) = some ⟨1, 0x0200⟩ := by
  decide
theorem test_setrate_rejects :
    answer (exec (.setrate 0) fresh) = some ⟨0, 0x0018⟩ ∧ answer (exec (.setrate 36001) fresh) = some ⟨0, 0x0018⟩ := by
  decide

/-- V4.3. -/
theorem test_setidiv :
    answer (exec (.setidiv 0x80000000) fresh) = some ⟨0, 0x0800⟩ ∧ answer (exec (.setidiv 0) fresh) = some ⟨0, 0x0018⟩ := by
  decide
theorem test_setediv :
    answer (exec (.setediv 0xFFFFFFFF) fresh) = some ⟨0, 0x1000⟩ ∧ answer (exec (.setediv 0) fresh) = some ⟨0, 0x0018⟩ := by
  decide

/-- V4.5, with an empty table and with one entry. -/
theorem test_select :
    answer (exec (.select 1) fresh) = some ⟨0, 0x0400⟩ ∧ answer (exec (.select 2) fresh) = some ⟨0, 0x0018⟩ := by decide
theorem test_select_preset :
    answer (exec (.select 2) { fresh with params := { someParams with presetTable := [⟨"P0", 16, 4⟩] } }) =
      some ⟨0, 0x0400⟩ := by decide

/-- V5.16. -/
theorem test_start :
    answer (exec .start { block .ready with strat := 1, stratValid := true }) = some ⟨0, 0x0602⟩ := by decide
theorem test_start_incomplete : answer (exec .start (block .ready)) = some ⟨0, 0x0219⟩ := by decide

/-- V5.13 at PERIOD 100: 250 is three bitcells, 49 is none. -/
theorem test_feed_window :
    answer (exec (.feed 250) windowed) = some ⟨3, 0x0602⟩ ∧ answer (exec (.feed 49) windowed) = some ⟨0, 0x0602⟩ := by decide

/-- V5.2, last row, from PHASE 0; and V5.15, fifth row, CENTRED, from PHASE 9 and PE 133. -/
theorem test_feed_loop :
    (after (exec (.feed 250) { looping with phase := 0 })).phase = 12 ∧
      (after (exec (.feed 250) { looping with phase := 0 })).pe = 112 ∧
        (after (exec (.feed 250) { centring with phase := 9, pe := 133 })).phase = -1 ∧
          (after (exec (.feed 250) { centring with phase := 9, pe := 133 })).pe = 132 := by decide

/-- V5.18. -/
theorem test_finish : answer (exec .finish { windowed with bcProd := 4 }) = some ⟨4, 0x0603⟩ := by decide

/-- R152: PHASE -50 reads 0xFFFFFFCE. -/
theorem test_rdphase : answer (exec .rdphase { block .decoded with phase := -50 }) = some ⟨0xFFFFFFCE, 0x0203⟩ := by decide
theorem test_rdperiod : answer (exec .rdperiod { block .decoded with pe := 116 }) = some ⟨116, 0x0203⟩ := by decide

/-- P2: the word 0x80F001AA and two more bits. -/
def written : State :=
  { block .ready with
    cap := 64, bcProd := 34
    buf := [0, 8, 9, 10, 11, 23, 24, 26, 28, 30, 32, 33].map fun j => (j, true) }

theorem test_serialize :
    (after (exec .serialize written)).sink.drop 24 = [(0x400, 0x01), (0x401, 0x0F), (0x402, 0x80), (0x403, 0x55)] ∧
      answer (exec .serialize written) = some ⟨5, 0x0204⟩ := by decide

/-- P4: overflow raises CapacityError. -/
theorem test_serialize_overflow :
    answer (exec .serialize { block .decoded with bcProd := 33, ovf := true }) = some ⟨0, 0x032B⟩ := by decide

/-- R73, R79: a source line with a comment. -/
theorem test_assemble_text :
    assembleWords ["NCO -3, 7 ; tuned".toList, "".toList, "SELECT PRESET0".toList] =
      some [0x21000000, 0xFFFFFFFD, 0x22000000, 7, 0x23000000, 0x23000002] := by decide

/-! Witnesses: for every statement with hypotheses, a state and operands that meet them together. -/

theorem test_hyps_EncodeOfDecodeIsIdentity :
    decodeCommand 0x31000064 0 = .instr (.feed 100) ∧ isLong 0x31000064 = false ∧
      decodeCommand 0x14000000 7 = .instr (.readword 7) ∧ isLong 0x14000000 = true := by decide

/-- A short word, a long word with its literal, and a literal for a pending word. -/
theorem test_hyps_StepRunsDecodedCommand :
    (fresh.pend = none ∧ isLong 0x12000000 = false ∧ decodeCommand 0x12000000 0 = .instr .bitcount) ∧
      (isLong 0x10000000 = true ∧ decodeCommand 0x10000000 32 = .instr (.create 32)) ∧
        { fresh with pend := some 0x10000000, hostIn := [.word 32] }.pend = some 0x10000000 := by decide

/-- An unassigned opcode; the lowest must-be-zero bit of FEED; and of a long command. -/
theorem test_hyps_IllegalWordRaisesIllegalCommand :
    fresh.fault = false ∧ fresh.pend = none ∧ zext (0x41000000 : Word) / 2 ^ 24 ∉ assignedOpcodes ∧
      isLong 0x41000000 = false ∧
        zext (0x31010000 : Word) % 2 ^ 24 / 2 ^ operandBits (zext (0x31010000 : Word) / 2 ^ 24) ≠ 0 ∧
          isLong 0x10000005 = true ∧
            zext (0x10000005 : Word) % 2 ^ 24 / 2 ^ operandBits (zext (0x10000005 : Word) / 2 ^ 24) ≠ 0 ∧
              { fresh with pend := some 0x10000005, hostIn := [.word 7] }.pend = some 0x10000005 := by decide

theorem test_hyps_LiteralMayArriveLater :
    fresh.pend = none ∧ { fresh with hostIn := [.word 0x14000000] }.hostIn = [.word 0x14000000] ∧
      isLong 0x14000000 = true := by decide

theorem test_hyps_HardwareResetEstablishesResetState :
    { looping with hostIn := [.resetPulse] }.hostIn = .resetPulse :: [] := rfl

/-- Nothing pending, and CREATE pending, which takes the first RESET word as its literal (V8.5). -/
theorem test_hyps_TwoResetWordsResynchronise :
    PendingInv { fresh with hostIn := [.word 0x01000000, .word 0x01000000] } ∧
      PendingInv { fresh with pend := some 0x10000000, hostIn := [.word 0x01000000, .word 0x01000000] } := by
  constructor
  · intro w h; cases h
  · intro w h; cases h; decide

/-- A step without a command, and one with. -/
theorem test_hyps_OneResponsePerCommand :
    step fresh = .next fresh ∧
      ∃ t, step { faulted with hostIn := [.word 0x12000000] } = .next t := ⟨rfl, _, rfl⟩

theorem test_hyps_FaultStateRefuses :
    faulted.fault = true ∧ Instr.serialize ≠ .reset ∧ faulted.pend = none ∧ isLong 0x14000000 = true := by decide

/-- Refused; left by a reset pulse; left by RESET. -/
theorem test_hyps_OnlyResetLeavesFaultState :
    faulted.fault = true ∧ (∃ t, step { faulted with hostIn := [.word 0x40000000] } = .next t) ∧
      (∃ t, step { faulted with hostIn := [.resetPulse] } = .next t) ∧
        ∃ t, step { faulted with hostIn := [.word 0x01000000] } = .next t :=
  ⟨rfl, ⟨_, rfl⟩, ⟨_, rfl⟩, ⟨_, rfl⟩⟩

theorem test_hyps_SequenceErrorExactlyOutsideLegalModes :
    windowed.fault = false ∧ legalMode .start windowed.mode = false ∧ legalMode (.feed 0) windowed.mode = true ∧
      windowed.err = none ∧ ∃ t, exec (.feed 0) windowed = .next t :=
  ⟨rfl, rfl, rfl, rfl, _, rfl⟩

theorem fresh_config : ConfigInv fresh := ⟨by decide, by decide, by decide, by decide⟩

theorem block_config : ConfigInv (block .ready) := ⟨by decide, by decide, by decide, by decide⟩

/-- Each cause of the table at its boundary, beside an operand without cause. -/
theorem test_hyps_ConfigurationErrorCauses :
    fresh.fault = false ∧ fresh.err = none ∧ fresh.params.legal = true ∧ ConfigInv fresh ∧
      configCause (.create 0x02000000) fresh ∧ ¬configCause (.create 0x01000000) fresh ∧
        configCause (.setrate 0) fresh ∧ configCause (.setrate 36001) fresh ∧ ¬configCause (.setrate 36000) fresh ∧
          configCause (.setidiv 0) fresh ∧ ¬configCause (.setediv (-1)) fresh ∧ configCause (.select 2) fresh ∧
            ¬configCause (.select 1) fresh ∧ ConfigInv (block .ready) ∧ legalMode .start .ready = true ∧
              configCause .start (block .ready) ∧ ¬configCause .serialize (block .ready) := by
  refine ⟨rfl, rfl, by decide, fresh_config, .inr (by decide), ?_, .inl rfl, .inr (by decide), ?_, rfl, ?_, ?_, ?_,
    block_config, rfl, .inr (.inl rfl), ?_⟩
  · rintro (h | h)
    · exact h ⟨24, by decide⟩
    · exact absurd h (by decide)
  · unfold configCause; decide
  · unfold configCause; decide
  · unfold configCause; decide
  · intro h; exact h (.inr (.inl rfl))
  · unfold configCause; decide

/-- A decoded block whose buffer has overflowed. -/
def overflowed : State := { block .decoded with bcProd := 33, ovf := true }

/-- The plain raise, and a next state in which CapacityError was raised. -/
theorem test_hyps_CapacityErrorExactlyOnOverflow :
    overflowed.fault = false ∧ legalMode .serialize overflowed.mode = true ∧ overflowed.rateValid = true ∧
      overflowed.ovf = true ∧ overflowed.err = none ∧
        ∃ t, exec .serialize overflowed = .next t ∧ t.err = some .capacity :=
  ⟨rfl, rfl, rfl, rfl, rfl, _, rfl, rfl⟩

/-- A range fault: `dt = 100` emits a 1, and then PE leaves the range. -/
def topPeriod : State := { looping with phase := 0, pe := 2 ^ 31 - 1 }

/-- The second write of an image fails. -/
def secondFails : State := { block .ready with sinkAnswers := [.acked, .failed] }

/-- An unchanged state; the bit of a FEED, within the bound; and a front of one sink byte. -/
theorem test_hyps_PartialEffectsOfErrors :
    (∃ t, exec (.emit true) fresh = .next t ∧ t.fault = true) ∧
      ((after (exec (.feed 100) topPeriod)).err = some .arithmetic ∧
        (after (exec (.feed 100) topPeriod)).buf = [(0, true)] ∧ feedBound 100 topPeriod = 1) ∧
        (after (exec .serialize secondFails)).err = some .io ∧
          (after (exec .serialize secondFails)).sink = [(0, 0x48)] ∧
            (after (exec .serialize secondFails)).sinkLog = [⟨0, 0x48, true⟩, ⟨1, 0x58, false⟩] := by
  refine ⟨⟨_, rfl, rfl⟩, by decide, by decide⟩

theorem test_hyps_CreateMakesClearedBuffer :
    fresh.fault = false ∧ windowed.mode = .decoding ∧ fresh.mode ≠ .decoding ∧ (∃ k, zext (1 : Word) = 2 ^ k) ∧
      zext (1 : Word) ≤ fresh.params.maxCapBits ∧ fresh.params.maxCapBits < zext (0x80000000 : Word) ∧
        ¬∃ k, zext (0 : Word) = 2 ^ k := by
  refine ⟨rfl, rfl, by decide, ⟨0, rfl⟩, by decide, by decide, ?_⟩
  rintro ⟨k, h⟩
  have : 0 < 2 ^ k := by positivity
  simp [zext] at h
  omega

/-- A bit within the buffer, the wrapping bit, the counter's top, and another mode. -/
theorem test_hyps_EmitAppendsOneBit :
    (block .ready).fault = false ∧ fresh.mode ≠ .ready ∧ zext { block .ready with bcProd := -1 }.bcProd = 2 ^ 64 - 1 ∧
      zext { block .ready with bcProd := 32 }.bcProd ≠ 2 ^ 64 - 1 ∧ Memory.wf { block .ready with bcProd := 32 } := by
  decide

theorem test_hyps_CounterReads : { windowed with bcProd := -1 }.fault = false := rfl

theorem test_hyps_ReadwordReadsPhysicalWord :
    fresh.fault = false ∧ fresh.mode = .idle ∧ written.fault = false ∧ written.mode ≠ .idle ∧
      ∃ k, zext written.cap = 2 ^ k := ⟨rfl, rfl, rfl, by decide, 6, rfl⟩

theorem test_hyps_SetrateDerivesPeriod :
    fresh.fault = false ∧ windowed.mode = .decoding ∧ fresh.mode ≠ .decoding ∧ zext (0 : Half) = 0 ∧
      36000 < zext (36001 : Half) ∧ 1 ≤ zext (36000 : Half) ∧ zext (36000 : Half) ≤ 36000 ∧ 1 ≤ zext (1 : Half) := by
  decide

theorem test_hyps_DivisorsAreStored :
    fresh.fault = false ∧ windowed.mode = .decoding ∧ fresh.mode ≠ .decoding ∧ sext (0 : Word) = 0 ∧
      sext (0x80000000 : Word) ≠ 0 ∧ sext (1 : Word) ≠ 0 := by decide

/-- A block with one preset. -/
def withPreset : State := { fresh with params := { someParams with presetTable := [⟨"P0", 16, 4⟩] } }

/-- The last tag taken and the first refused. -/
theorem test_hyps_SelectTakesNamedTags :
    windowed.fault = false ∧ windowed.params.legal = true ∧ windowed.mode = .decoding ∧ withPreset.fault = false ∧
      withPreset.params.legal = true ∧ withPreset.mode ≠ .decoding ∧
        zext (2 : Byte) ≤ 1 + withPreset.params.presetTable.length ∧
          ¬zext (3 : Byte) ≤ 1 + withPreset.params.presetTable.length := by decide

/-- The hypotheses of the normal case of `StartInitialisesDecode`. -/
def startHyps (s : State) (li le : Word) : Prop :=
  s.fault = false ∧ s.mode ≠ .idle ∧ s.mode ≠ .decoding ∧ s.rateValid = true ∧ s.stratValid = true ∧
    zext s.strat < 0x80 ∧
      ((zext s.strat = 0 ∧ s.idivValid = true ∧ s.edivValid = true ∧ li = s.idiv ∧ le = s.ediv) ∨
        (zext s.strat = 1 ∧ li = 0 ∧ le = 0) ∨
          (2 ≤ zext s.strat ∧ ∃ p, s.params.presetTable[zext s.strat - 2]? = some p ∧ li = p.integralDiv ∧
            le = p.errorDiv))

/-- NCO with both divisors, FW, and the last tag of a table of one preset. -/
theorem test_hyps_StartInitialisesDecode :
    startHyps { looping with mode := .ready } 4 4 ∧ startHyps { windowed with mode := .done } 0 0 ∧
      startHyps
        { windowed with mode := .decoded, strat := 2, params := { someParams with presetTable := [⟨"P0", 16, 4⟩] } }
        16 4 :=
  ⟨⟨rfl, by decide, by decide, rfl, rfl, by decide, .inl (by decide)⟩,
    ⟨rfl, by decide, by decide, rfl, rfl, by decide, .inr (.inl (by decide))⟩,
    ⟨rfl, by decide, by decide, rfl, rfl, by decide, .inr (.inr ⟨by decide, _, rfl, rfl, rfl⟩)⟩⟩

/-- The errors of START: no buffer; no strategy; NCO without a divisor. -/
theorem test_hyps_StartInitialisesDecode_errors :
    fresh.fault = false ∧ fresh.mode = .idle ∧ (block .ready).mode ≠ .idle ∧ (block .ready).mode ≠ .decoding ∧
      (block .ready).stratValid = false ∧
        { looping with mode := .ready, edivValid := false }.rateValid = true ∧
          { looping with mode := .ready, edivValid := false }.stratValid = true ∧
            zext { looping with mode := .ready, edivValid := false }.strat = 0 ∧
              { looping with mode := .ready, edivValid := false }.edivValid = false := by decide

theorem test_hyps_FinishReturnsBitcellCount :
    fresh.fault = false ∧ fresh.mode ≠ .decoding ∧ windowed.fault = false ∧ windowed.mode = .decoding := by decide

theorem test_hyps_LoopRegisterReads : { looping with phase := -1 }.fault = false := rfl

/-- The hypotheses of `FixedWindowFeedEmitsInterval`. -/
def windowHyps (dt : Half) (s : State) (n : Nat) : Prop :=
  s.fault = false ∧ s.mode = .decoding ∧ s.strat = 0x01 ∧ 1 ≤ zext s.period ∧
    2 * n * zext s.period ≤ 2 * zext dt + zext s.period ∧ 2 * zext dt + zext s.period < 2 * (n + 1) * zext s.period

/-- 49 ticks are no bitcell, 50 and 149 are one, 150 are two, 65535 are 655 (V5.13). -/
theorem test_hyps_FixedWindowFeedEmitsInterval :
    windowHyps 49 windowed 0 ∧ windowHyps 50 windowed 1 ∧ windowHyps 149 windowed 1 ∧ windowHyps 150 windowed 2 ∧
      windowHyps 0xFFFF windowed 655 ∧ zext windowed.bcProd + 655 < 2 ^ 64 ∧
        windowHyps 100 { windowed with bcProd := -1 } 1 ∧ 2 ^ 64 ≤ zext { windowed with bcProd := -1 }.bcProd + 1 := by
  unfold windowHyps; decide

/-- From PHASE 12 and PE 100: `dt = 250` is two zeros and the error 62, `dt = 0` none and the error 12; and below a
non-positive PE no zero is emitted. -/
theorem test_hyps_FloorFeedTracks :
    LoopRunning looping ∧ (FloorStep 250 looping 2 62 ∧ LoopInRange looping 62) ∧
      (FloorStep 0 looping 0 12 ∧ LoopInRange looping 12) ∧ zext looping.bcProd + 2 + 1 < 2 ^ 64 ∧
        FloorStep 5 { looping with phase := -20, pe := -10 } 0 (-15) ∧
          LoopInRange { looping with phase := -20, pe := -10 } (-15) := by
  unfold FloorStep LoopRunning LoopInRange; decide

/-- From PHASE 12 and PE 100: `dt = 50` falls in the first cell, 250 in the third, 0 in the first. -/
theorem test_hyps_CentredFeedTracks :
    LoopRunning centring ∧ (CentredStep 50 centring 0 (-38) ∧ LoopInRange centring (-38)) ∧
      CentredStep 250 centring 2 (-38) ∧ (CentredStep 0 centring 0 (-88) ∧ LoopInRange centring (-88)) ∧
        zext centring.bcProd + 2 + 1 < 2 ^ 64 := by
  unfold LoopRunning CentredStep LoopInRange; decide

/-- P6's guard: PHASE 7, PE -4. -/
def guarded : State := { looping with phase := 7, pe := -4 }

/-- The same under the centred window. -/
def guardedCentred : State := { centring with phase := 7, pe := -4 }

/-- PHASE at its largest. -/
def topPhase : State := { looping with phase := 2 ^ 31 - 1 }

/-- `dt = 1` meets the guard under both windows, and takes the largest phase out of range. -/
theorem test_hyps_LoopFaultsBeforeAnyBit :
    (LoopRunning guarded ∧ zext (1 : Half) ≠ 0 ∧ guarded.pe ≤ 0 ∧ guarded.params.loopWindow = .floor ∧
        guarded.pe ≤ guarded.phase + zext (1 : Half)) ∧
      (LoopRunning guardedCentred ∧ guardedCentred.params.loopWindow ≠ .floor ∧
        guardedCentred.pe ≤ 2 * (guardedCentred.phase + zext (1 : Half) - guardedCentred.pe)) ∧
        (LoopRunning topPhase ∧ fitsSigned topPhase.params.wAcc (topPhase.phase + zext (1 : Half)) = false) ∧
          LoopRunning { guarded with phase := -20 } ∧ (-20 : Int) + zext (1 : Half) < guarded.pe ∧
            fitsSigned guarded.params.wAcc (-20 + zext (1 : Half)) = true ∧ zext guarded.bcProd + 1 < 2 ^ 64 := by
  unfold LoopRunning; decide

/-- Under the centred window, PE at its largest and divisors of -1: the correction of a negative error leaves the range. -/
def topPeriodCentred : State := { centring with phase := 0, pe := 2 ^ 31 - 1, lidiv := -1 }

/-- Under the centred window, a negative PHASE from which the first subtraction leaves the range. -/
def lowPhase : State := { centring with phase := -2 ^ 31, pe := 100 }

/-- A correction out of range under each window, and the first subtraction out of range. -/
theorem test_hyps_RangeFaultKeepsLoopRegisters :
    (LoopRunning topPeriod ∧ FloorStep 100 topPeriod 0 100 ∧ ¬LoopInRange topPeriod 100 ∧
        zext topPeriod.bcProd + 0 + 1 < 2 ^ 64) ∧
      (LoopRunning topPeriodCentred ∧ CentredStep 100 topPeriodCentred 0 (100 - (2 ^ 31 - 1)) ∧
        ¬LoopInRange topPeriodCentred (100 - (2 ^ 31 - 1)) ∧ zext topPeriodCentred.bcProd + 0 + 1 < 2 ^ 64) ∧
        LoopRunning lowPhase ∧ lowPhase.params.loopWindow = .centred ∧
          fitsSigned lowPhase.params.wAcc (lowPhase.phase + zext (99 : Half) - lowPhase.pe) = false := by
  refine ⟨?_, ?_, by unfold LoopRunning; decide⟩ <;>
    (unfold LoopRunning LoopInRange; first | (unfold FloorStep; decide) | (unfold CentredStep; decide))

/-- The counter one below its top. -/
def nearTop (s : State) : State := { s with bcProd := -2 }

/-- Two zeros and a 1 from one bit below the counter's top, under each window. -/
theorem test_hyps_CounterTopStopsLoopFeed :
    (LoopRunning (nearTop looping) ∧ FloorStep 250 (nearTop looping) 2 62 ∧
        2 ^ 64 ≤ zext (nearTop looping).bcProd + 2 + 1) ∧
      LoopRunning (nearTop centring) ∧ CentredStep 250 (nearTop centring) 2 (-38) ∧
        2 ^ 64 ≤ zext (nearTop centring).bcProd + 2 + 1 := by
  unfold LoopRunning FloorStep CentredStep; decide

theorem written_serializable : Serializable written := by unfold Serializable; decide

theorem test_hyps_SerializeWritesImage : Serializable written := written_serializable

/-- The first write after the header fails. -/
def failing : State := { written with sinkAnswers := List.replicate 20 .acked ++ [.failed] }

theorem test_hyps_FailedWriteRaisesIoError_answer :
    failing.fault = false ∧ failing.mode = .ready ∧ failing.rateValid = true ∧ failing.ovf = false ∧
      imageWrites failing = (imageWrites failing).take 20 ++ (0x200, 0x02) :: (imageWrites failing).drop 21 ∧
        ((imageWrites failing).take 20).all (fun w => decide (w.1 < failing.params.sinkSize)) = true ∧
          failing.sinkAnswers.take ((imageWrites failing).take 20).length = List.replicate 20 .acked ∧
            failing.sinkAnswers[((imageWrites failing).take 20).length]? = some .failed :=
  ⟨rfl, rfl, rfl, rfl, rfl, rfl, rfl, rfl⟩

/-- A sink of 0x400 bytes: the first data byte lies beyond it (V7.11). -/
def smallSink : State := { written with params := { someParams with sinkSize := 0x400 } }

theorem test_hyps_FailedWriteRaisesIoError_size :
    imageWrites smallSink = (imageWrites smallSink).take 24 ++ (0x400, 0x01) :: (imageWrites smallSink).drop 25 ∧
      ((imageWrites smallSink).take 24).all (fun w => decide (w.1 < smallSink.params.sinkSize)) = true ∧
        smallSink.sinkAnswers = [] ∧ smallSink.params.sinkSize ≤ 0x400 := ⟨rfl, rfl, rfl, by decide⟩

/-- The first write is never answered. -/
def silent : State := { written with sinkAnswers := [.never] }

theorem test_hyps_SilentSinkLeavesSerializeWaiting :
    silent.fault = false ∧ silent.mode = .ready ∧ silent.rateValid = true ∧ silent.ovf = false ∧
      imageWrites silent = [] ++ (0x000, 0x48) :: (imageWrites silent).drop 1 ∧ 0x000 < silent.params.sinkSize ∧
        silent.sinkAnswers.take 0 = [] ∧ silent.sinkAnswers[0]? = some .never :=
  ⟨rfl, rfl, rfl, rfl, rfl, by decide, rfl, rfl⟩

theorem test_hyps_ReaderFrame : ∃ t, exec (.readword 0) written = .next t := ⟨_, rfl⟩

theorem test_hyps_ConfigurationFrame :
    (∃ t, exec (.setrate 360) fresh = .next t) ∧ (∃ t, exec (.setidiv 1) fresh = .next t) ∧
      (∃ t, exec (.setediv 1) fresh = .next t) ∧ ∃ t, exec (.select 1) fresh = .next t :=
  ⟨⟨_, rfl⟩, ⟨_, rfl⟩, ⟨_, rfl⟩, ⟨_, rfl⟩⟩

theorem test_hyps_BufferSetupFrame :
    (∃ t, exec (.create 8) fresh = .next t) ∧ (∃ t, exec .start { windowed with mode := .ready } = .next t) ∧
      ∃ t, exec .finish windowed = .next t := ⟨⟨_, rfl⟩, ⟨_, rfl⟩, ⟨_, rfl⟩⟩

theorem test_hyps_EmissionFrame :
    Memory.wf written ∧ (∃ t, exec (.emit true) written = .next t) ∧ Memory.wf windowed ∧
      ∃ t, exec (.feed 100) windowed = .next t := ⟨by decide, ⟨_, rfl⟩, by decide, _, rfl⟩

theorem test_hyps_SerializeFrame : ∃ t, exec .serialize (block .ready) = .next t := ⟨_, rfl⟩

/-- An address in each of the four ranges. -/
theorem test_hyps_BytesNeverWritten :
    (∃ t, exec .serialize (block .ready) = .next t) ∧ (0x14 ≤ 0x1FF ∧ 0x1FF ≤ 0x1FF) ∧ 0x204 ≤ 0x3FF ∧
      (0x400 + 512 * 0 + 256 ≤ 0x500 ∧ 0x500 ≤ 0x400 + 512 * 0 + 511) ∧ 4 * serializedWords (block .ready) ≤ 0 ∧
        0x400 = trackAddr 0 := ⟨⟨_, rfl⟩, by decide⟩

theorem test_hyps_WhoReachesTheMemories :
    (∃ t, exec .finish windowed = .next t) ∧ ∃ t, exec .serialize (block .ready) = .next t := ⟨⟨_, rfl⟩, _, rfl⟩

theorem block_cleared (m : Mode) : Cleared (block m) := ⟨fun _ => rfl, rfl, rfl⟩

/-- As many bits as the buffer holds. -/
theorem test_hyps_EmittedBitsReadBack :
    Memory.wf (block .ready) ∧ Cleared (block .ready) ∧ (∃ k, zext (block .ready).cap = 2 ^ k) ∧
      (List.replicate 32 true).length ≤ zext (block .ready).cap := ⟨by decide, block_cleared _, ⟨5, rfl⟩, by decide⟩

/-- 33 bits: address 0 holds bit 32; 3 bits: address 31 holds none. -/
theorem test_hyps_WrappedBufferHoldsLatestBits :
    Memory.wf (block .ready) ∧ Cleared (block .ready) ∧ (∃ k, zext (block .ready).cap = 2 ^ k) ∧
      33 < 2 ^ 64 ∧ 31 < zext (block .ready).cap ∧ 32 % zext (block .ready).cap = 0 ∧
        (∀ m, 32 < m → m < 33 → m % zext (block .ready).cap ≠ 0) ∧ ∀ n < 3, n % zext (block .ready).cap ≠ 31 :=
  ⟨by decide, block_cleared _, ⟨5, rfl⟩, by decide, by decide, by decide, by omega, by decide⟩

/-- Under TRUNCATE, and under ZERO_PAD with a partial word. -/
theorem test_hyps_TrackBitPlacement :
    Serializable written ∧ Serializable { written with params := { someParams with tailPolicy := .zeroPad } } :=
  ⟨written_serializable, by unfold Serializable; decide⟩

theorem test_hyps_SerializerRoundTrip :
    Memory.wf (block .ready) ∧ Cleared (block .ready) ∧ (∃ k, zext (block .ready).cap = 2 ^ k) ∧
      (List.replicate 32 true).length ≤ zext (block .ready).cap ∧
        Serializable (pushBits (block .ready) (List.replicate 32 true)) :=
  ⟨by decide, block_cleared _, ⟨5, rfl⟩, by decide, by unfold Serializable; decide⟩

/-- A used and a fresh buffer under one configuration. -/
theorem test_hyps_DecodeIsIndependent :
    SameConfiguration { windowed with mode := .ready } { windowed with mode := .done, buf := [(3, true)], bcProd := 9 } ∧
      windowed.fault = false ∧ legalMode .start .ready = true ∧ legalMode .start .done = true := by
  unfold SameConfiguration; decide

/-- V3.5's ninth bit, which sets OVF. -/
theorem test_hyps_StepKeepsOverflowExact :
    OverflowInv { fresh with mode := .ready, cap := 8, bcProd := 8, hostIn := [.word 0x11000001] } ∧
      ∃ t, step { fresh with mode := .ready, cap := 8, bcProd := 8, hostIn := [.word 0x11000001] } = .next t :=
  ⟨by unfold OverflowInv; decide, _, rfl⟩

theorem test_hyps_StepKeepsMemoryCanonical :
    Memory.wf written ∧ ∃ t, step { written with hostIn := [.word 0x11000001] } = .next t := ⟨by decide, _, rfl⟩

/-- A fixed-window decode with a FEED at the port. -/
def feeding : State := { windowed with hostIn := [.word 0x31000064] }

theorem test_hyps_StepKeepsInvariants : Inv feeding ∧ ∃ t, step feeding = .next t := by
  refine ⟨?_, _, rfl⟩
  exact
    { legal := by decide
      memory := by decide
      capacity := by unfold CapacityInv; decide
      overflow := by unfold OverflowInv; decide
      config := by unfold ConfigInv; decide
      fault := by unfold FaultInv; decide
      lifecycle := by unfold LifecycleInv; decide
      divisor := by unfold DivisorInv; decide
      range := by unfold RangeInv; decide
      fixedWindow := by unfold FixedWindowInv; decide
      pending := by intro w hw; cases hw
      buffer := by intro a ha; cases ha
      sink := ⟨fun _ => rfl, fun _ ha => absurd rfl ha⟩ }

/-- Fields of one, eight and thirty-two bits, unsigned and signed, at the largest operand that fits, and no field. -/
theorem test_hyps_AssemblerNeverTruncates :
    (Mnemonic.emit.field = some ⟨1, false⟩ ∧ assembleLine (.num .emit (.dec 1)) = some [.emit true] ∧
        assembleLine (.num .emit (.dec 2)) = none) ∧
      (Mnemonic.select.field = some ⟨8, false⟩ ∧ assembleLine (.num .select (.hex 0xFF)) = some [.select 0xFF]) ∧
        (Mnemonic.setidiv.field = some ⟨32, true⟩ ∧
          assembleLine (.num .setidiv (.signed true 2147483648)) = some [.setidiv 0x80000000] ∧
            assembleLine (.num .setidiv (.signed false 2147483647)) = some [.setidiv 0x7FFFFFFF] ∧
              assembleLine (.num .setidiv (.hex 0xFFFFFFFF)) = some [.setidiv (-1)]) ∧
          Mnemonic.nop.field = none ∧ assembleLine (.tag (.preset 253)) = some [.select 0xFF] ∧
            assembleLine (.tag (.preset 254)) = none := by decide

end Sys2Proof.Tests
end

namespace Sys2Proof

theorem isLongOpc_iff (o : BitVec 8) :
    isLongOpc o = true ↔ o = 0x10#8 ∨ o = 0x14#8 ∨ o = 0x21#8 ∨ o = 0x22#8 := by
  simp only [isLongOpc, Bool.or_eq_true, beq_iff_eq, or_assoc]

/-- Settles O4: each of the four opcode tests, read as a range of the word's number. -/
theorem lengthDecidedByOpcode : Obligations.LengthDecidedByOpcode := by
  intro w
  rw [isLong, isLongOpc_iff]
  simp only [opc_eq_iff]
  rfl

end Sys2Proof

namespace Sys2Proof

/-! The words of the long commands (R71). -/

/-- R71, R74: the words of a long command, whose ARG field is 0 and which takes a literal. -/
theorem encode_of_literal {i : Instr} {o : BitVec 8} {w l : Word} (ho : opcodeOf i = o) (ha : argOf i = 0)
    (hl : literalOf i = some l) (hw : o ++ (0 : BitVec 24) = w) : encode i = [w, l] := by
  rw [encode, firstWord, ho, ha, hl, hw, Option.toList_some]

theorem encode_create (c : Word) : encode (.create c) = [0x10000000, c] :=
  encode_of_literal (o := 0x10) rfl rfl rfl rfl

theorem encode_readword (idx : Word) : encode (.readword idx) = [0x14000000, idx] :=
  encode_of_literal (o := 0x14) rfl rfl rfl rfl

end Sys2Proof

namespace Sys2Proof.Machine

open Sys2Proof

/-! The wrapper of every command, outside the fault state. -/

/-- Outside the fault state a command other than RESET answers what its pseudocode ends in. -/
theorem exec_eq_complete {i : Instr} {s : State} (hf : s.fault = false) (hi : i ≠ .reset) :
    exec i s = complete (bodyOf i s) := by
  rw [exec_eq_runCommand i s hi, runCommand_ok hf]

/-- A command whose pseudocode returns `r` in `u` sends `r` from there. -/
theorem exec_of_val {i : Instr} {s u : State} {r : Word} (hf : s.fault = false) (hi : i ≠ .reset)
    (hb : bodyOf i s = .val r u) : exec i s = .next (respond u r false) := by
  rw [exec_eq_complete hf hi, hb, complete]

/-- A command whose pseudocode raises `k` in `u` enters the fault state from there (R217). -/
theorem exec_of_raised {i : Instr} {s u : State} {k : ErrKind} (hf : s.fault = false) (hi : i ≠ .reset)
    (hb : bodyOf i s = .raised k u) : exec i s = .next (takeError k u) := by
  rw [exec_eq_complete hf hi, hb, complete]

/-! What BufRead sees after the operations on the buffer. -/

@[simp] theorem bufRead_respond (s : State) (r : Word) (b : Bool) (j : Nat) :
    bufRead (respond s r b) j = bufRead s j := rfl

/-- R101: after `ClearBuffer` every address reads 0. -/
@[simp] theorem bufRead_clearBuffer (s : State) (j : Nat) : bufRead (clearBuffer s) j = false := rfl

/-- R100: an emission changes the bit at `BC_PROD AND MASK` alone. -/
theorem bufRead_pushBit {s : State} (hw : Memory.wf s) (v : Bool) (j : Nat) :
    bufRead (pushBit s v) j =
      if maskAddr s.cap j = maskAddr s.cap (zext s.bcProd) then v else bufRead s j :=
  readBit_writeBit hw.1 _ _ v

/-! CREATE, by its checks in order (R103). -/

theorem createBody_of_decoding {c : Word} {s : State} (hm : s.mode = .decoding) :
    createBody c s = .raised .sequence s := if_pos hm

theorem createBody_of_not_powerOfTwo {c : Word} {s : State} (hm : s.mode ≠ .decoding) (hp : isPowerOfTwo c = false) :
    createBody c s = .raised .configuration s := by
  rw [createBody, if_neg hm, if_pos hp]

/-- Above the bound CREATE raises the same error whether or not the capacity is a power of two. -/
theorem createBody_of_maxCapBits_lt {c : Word} {s : State} (hm : s.mode ≠ .decoding)
    (hc : s.params.maxCapBits < zext c) : createBody c s = .raised .configuration s := by
  rw [createBody, if_neg hm, if_pos hc, ite_self]

theorem createBody_of_legal {c : Word} {s : State} (hm : s.mode ≠ .decoding) (hp : isPowerOfTwo c = true)
    (hc : zext c ≤ s.params.maxCapBits) :
    createBody c s = .val 0 (clearBuffer { s with cap := c, mode := .ready }) := by
  rw [createBody, if_neg hm, if_neg (by simp [hp]), if_neg (by omega)]

/-! EMIT, by its check and by the counter (R104, R100). -/

theorem emitBody_of_not_ready {v : Bool} {s : State} (hm : s.mode ≠ .ready) :
    emitBody v s = .raised .sequence s := if_pos hm

theorem emitBody_of_ready {v : Bool} {s : State} (hm : s.mode = .ready) :
    emitBody v s = (emitBit v s).bind fun _ s => .val 0 s := if_neg (by simp [hm])

theorem emitBody_of_top {v : Bool} {s : State} (hm : s.mode = .ready) (htop : zext s.bcProd = 2 ^ 64 - 1) :
    emitBody v s = .raised .arithmetic s := by
  rw [emitBody_of_ready hm, emitBit_of_top htop, Res.raised_bind]

theorem emitBody_of_lt {v : Bool} {s : State} (hm : s.mode = .ready) (hlt : zext s.bcProd + 1 < 2 ^ 64) :
    emitBody v s = .val 0 (pushBit s v) := by
  rw [emitBody_of_ready hm, emitBit_of_lt hlt, Res.val_bind]

/-! READWORD, by its check (R107). -/

theorem readwordBody_of_idle {k : Word} {s : State} (hm : s.mode = .idle) :
    readwordBody k s = .raised .sequence s := if_pos hm

theorem readwordBody_of_not_idle {k : Word} {s : State} (hm : s.mode ≠ .idle) :
    readwordBody k s = .val (wordAt s (zext k)) s := if_neg hm

/-- R52, R102, R26: at a capacity that is a power of two, bit `31 - b` of word `k` is the stored bit at
`(32k + b) mod CAP`. -/
theorem getLsbD_wordAt_two_pow {s : State} {n : Nat} (hcap : zext s.cap = 2 ^ n) (k : Nat) {b : Nat} (hb : b < 32) :
    (wordAt s k).getLsbD (31 - b) = readBit s.buf ((32 * k + b) % zext s.cap) := by
  have hlt : 31 - b < 32 := by omega
  have hinv : 31 - (31 - b) = b := by omega
  rw [getLsbD_wordAt, hinv, decide_eq_true hlt, Bool.true_and, bufRead, maskAddr_two_pow hcap]

/-! The halves of the production counter (R28). -/

theorem zext_lowHalf (n : BitVec 64) : zext (n.extractLsb' 0 32) = zext n % 2 ^ 32 := by
  simp [zext]

theorem zext_highHalf (n : BitVec 64) : zext (n.extractLsb' 32 32) = zext n / 2 ^ 32 := by
  have hlt : n.toNat < 2 ^ 64 := n.isLt
  simp only [zext, BitVec.extractLsb'_toNat, Nat.shiftRight_eq_div_pow]
  exact Nat.mod_eq_of_lt (by omega)

end Sys2Proof.Machine

namespace Sys2Proof

open Sys2Proof.Machine

/-- Settles O23: each check of CREATE in turn; a power-of-two capacity within the bound leaves a cleared buffer. -/
theorem createMakesClearedBuffer : Obligations.CreateMakesClearedBuffer := by
  intro c s
  refine ⟨encode_create c, fun hf =>
    ⟨fun hm => exec_of_raised hf nofun (createBody_of_decoding hm), fun hm => ⟨?_, ?_, ?_⟩⟩⟩
  · intro hp
    have hp : isPowerOfTwo c = false := by simpa [← isPowerOfTwo_iff] using hp
    exact exec_of_raised hf nofun (createBody_of_not_powerOfTwo hm hp)
  · intro hc
    exact exec_of_raised hf nofun (createBody_of_maxCapBits_lt hm hc)
  · intro hp hc
    have hbody := createBody_of_legal hm ((isPowerOfTwo_iff c).mpr hp) hc
    exact ⟨_, exec_of_val hf nofun hbody, rfl, fun j => by simp⟩

/-- Settles O24: below the counter's top EMIT is one `pushBit`, at the top it raises before any change. -/
theorem emitAppendsOneBit : Obligations.EmitAppendsOneBit := by
  intro v s
  refine ⟨by cases v <;> rfl, fun hf =>
    ⟨fun hm => exec_of_raised hf nofun (emitBody_of_not_ready hm), fun hm => ⟨?_, ?_⟩⟩⟩
  · intro htop
    exact exec_of_raised hf nofun (emitBody_of_top hm htop)
  · intro htop
    have hlt : zext s.bcProd + 1 < 2 ^ 64 := by
      have hbound : zext s.bcProd < 2 ^ 64 := s.bcProd.isLt
      omega
    exact ⟨_, exec_of_val hf nofun (emitBody_of_lt hm hlt), rfl, zext_pushBit_bcProd (v := v) hlt,
      fun hw j => bufRead_pushBit hw v j⟩

/-- Settles O26: outside IDLE the answer is `WordAt(IDX)`, whose bits are read modulo the capacity. -/
theorem readwordReadsPhysicalWord : Obligations.ReadwordReadsPhysicalWord := by
  intro idx s
  refine ⟨encode_readword idx, fun hf =>
    ⟨fun hm => exec_of_raised hf nofun (readwordBody_of_idle hm), fun hm hcap => ?_⟩⟩
  obtain ⟨k, hcap⟩ := hcap
  exact ⟨_, exec_of_val hf nofun (readwordBody_of_not_idle hm), rfl,
    fun b hb => getLsbD_wordAt_two_pow hcap (zext idx) hb⟩

/-- Settles O25: both commands answer in every mode, each with its half of BC_PROD. -/
theorem counterReads : Obligations.CounterReads := by
  refine ⟨rfl, rfl, fun s hf => ?_⟩
  exact ⟨_, _, exec_of_val hf nofun rfl, exec_of_val hf nofun rfl, zext_lowHalf s.bcProd,
    zext_highHalf s.bcProd, rfl, rfl⟩

end Sys2Proof

namespace Sys2Proof

/-! The words of the configuration commands (R70, R71, R73). -/

/-- R70, R73: an operand at the low end of the ARG field stands at the low end of the word, beside the opcode. -/
theorem append_setWidth_field {n : Nat} (o : BitVec 8) (f : BitVec n) (hn : n ≤ 24) :
    o ++ f.setWidth 24 = (o ++ (0 : BitVec 24)) ||| f.setWidth (8 + 24) := by
  have hwide : n ≤ 8 + 24 := by omega
  apply BitVec.eq_of_toNat_eq
  rw [BitVec.toNat_append, BitVec.toNat_or, BitVec.toNat_append, BitVec.toNat_setWidth_of_le hn,
    BitVec.toNat_setWidth_of_le hwide, BitVec.ofNat_eq_ofNat, BitVec.toNat_zero, Nat.or_zero]

/-- R70, R73: the word of a short command whose operand fills the low end of ARG. -/
theorem encode_of_field {n : Nat} {i : Instr} {o : BitVec 8} {f : BitVec n} {w : Word} (hn : n ≤ 24)
    (ho : opcodeOf i = o) (ha : argOf i = f.setWidth 24) (hl : literalOf i = none)
    (hw : o ++ (0 : BitVec 24) = w) : encode i = [w ||| f.setWidth 32] := by
  rw [encode, firstWord, ho, ha, hl, append_setWidth_field o f hn, hw, Option.toList_none]

theorem encode_setrate (r : Half) : encode (.setrate r) = [0x20000000 ||| r.setWidth 32] :=
  encode_of_field (o := 0x20) (by decide) rfl rfl rfl rfl

theorem encode_select (tag : Byte) : encode (.select tag) = [0x23000000 ||| tag.setWidth 32] :=
  encode_of_field (o := 0x23) (by decide) rfl rfl rfl rfl

theorem encode_setidiv (d : Word) : encode (.setidiv d) = [0x21000000, d] :=
  encode_of_literal (o := 0x21) rfl rfl rfl rfl

theorem encode_setediv (d : Word) : encode (.setediv d) = [0x22000000, d] :=
  encode_of_literal (o := 0x22) rfl rfl rfl rfl

end Sys2Proof

namespace Sys2Proof.Machine

open Sys2Proof

/-! The shape the configuration commands share (R121 to R124): SequenceError while decoding, then ConfigurationError for
the command's own cause, then the new configuration. -/

/-- A configuration command that refuses the cause `c` and otherwise answers `r` from `u`. -/
def configBody (c : Prop) [Decidable c] (r : Word) (u s : State) : Res Word :=
  if s.mode = .decoding then .raised .sequence s else if c then .raised .configuration s else .val r u

section ConfigBody

variable {i : Instr} {c : Prop} [Decidable c] {r : Word} {u s : State}

theorem exec_config_of_decoding (hf : s.fault = false) (hi : i ≠ .reset) (hb : bodyOf i s = configBody c r u s)
    (hm : s.mode = .decoding) : exec i s = .next (takeError .sequence s) :=
  exec_of_raised hf hi (hb.trans (if_pos hm))

theorem exec_config_of_cause (hf : s.fault = false) (hi : i ≠ .reset) (hb : bodyOf i s = configBody c r u s)
    (hm : s.mode ≠ .decoding) (hc : c) : exec i s = .next (takeError .configuration s) :=
  exec_of_raised hf hi (by rw [hb, configBody, if_neg hm, if_pos hc])

theorem exec_config_of_not_cause (hf : s.fault = false) (hi : i ≠ .reset) (hb : bodyOf i s = configBody c r u s)
    (hm : s.mode ≠ .decoding) (hc : ¬c) : exec i s = .next (respond u r false) :=
  exec_of_val hf hi (by rw [hb, configBody, if_neg hm, if_neg hc])

end ConfigBody

/-- R121: a rate of 0 divides to a period of 0, so SETRATE's two checks are the one of its period. -/
theorem setrateBody_eq (rate : Half) (s : State) :
    setrateBody rate s = configBody (periodOfRate rate = 0) (BitVec.ofNat 32 (periodOfRate rate))
      { s with rate := rate, period := BitVec.ofNat 32 (periodOfRate rate), rateValid := true } s := by
  by_cases h0 : rate = 0
  · subst h0
    rfl
  · rw [setrateBody, if_neg h0, configBody]

theorem setidivBody_eq (d : Word) (s : State) :
    setidivBody d s = configBody (d = 0) 0 { s with idiv := d, idivValid := true } s := rfl

theorem setedivBody_eq (d : Word) (s : State) :
    setedivBody d s = configBody (d = 0) 0 { s with ediv := d, edivValid := true } s := rfl

theorem selectBody_eq (tag : Byte) (s : State) :
    selectBody tag s =
      configBody (namesStrategy s.params tag = false) 0 { s with strat := tag, stratValid := true } s := rfl

/-! What the operands' checks say of their numbers. -/

/-- R121: the rates that derive no period. -/
theorem periodOfRate_eq_zero_iff (rate : Half) : periodOfRate rate = 0 ↔ zext rate = 0 ∨ 36000 < zext rate :=
  Nat.div_eq_zero_iff

/-- R121: every period fits its register. -/
theorem zext_ofNat_periodOfRate (rate : Half) : zext (BitVec.ofNat 32 (periodOfRate rate)) = 36000 / zext rate := by
  have hle : 36000 / zext rate ≤ 36000 := Nat.div_le_self ..
  rw [periodOfRate, Config.kPeriod, zext, BitVec.toNat_ofNat, Nat.mod_eq_of_lt (by omega)]

theorem sext_eq_zero_iff {n : Nat} (v : BitVec n) : sext v = 0 ↔ v = 0 := by
  rw [sext, ← BitVec.toInt_zero (w := n), BitVec.toInt_inj]
  rfl

theorem legal_presetTable_length {p : Params} (h : p.legal = true) : p.presetTable.length ≤ 126 := by
  simp only [Params.legal, Bool.and_eq_true, decide_eq_true_eq] at h
  obtain ⟨⟨-, hlen⟩, -⟩ := h
  exact hlen

/-- R77: the tags of the presets, for a table whose last tag is at most 0x7F. -/
theorem isSome_presetOfTag {p : Params} (hlen : p.presetTable.length ≤ 126) (tag : Byte) :
    (presetOfTag p tag).isSome = true ↔ 2 ≤ zext tag ∧ zext tag ≤ 1 + p.presetTable.length := by
  rw [presetOfTag]
  split
  · rw [isSome_getElem?]
    omega
  · simp only [Option.isSome_none, Bool.false_eq_true, false_iff]
    omega

/-- R77, R124: the tags of the strategies that exist. -/
theorem namesStrategy_iff {p : Params} (hp : p.legal = true) (tag : Byte) :
    namesStrategy p tag = true ↔
      zext tag = 0 ∨ zext tag = 1 ∨ (2 ≤ zext tag ∧ zext tag ≤ 1 + p.presetTable.length) := by
  have hnco : tag = tagNco ↔ zext tag = 0 := BitVec.toNat_inj.symm
  have hfw : tag = tagFw ↔ zext tag = 1 := BitVec.toNat_inj.symm
  rw [namesStrategy, Bool.or_eq_true, Bool.or_eq_true, beq_iff_eq, beq_iff_eq, hnco, hfw, or_assoc,
    isSome_presetOfTag (legal_presetTable_length hp)]

end Sys2Proof.Machine

namespace Sys2Proof

open Sys2Proof.Machine

/-- Settles O27: the rates refused are those of period 0; every other period fits PERIOD and is the RESULT. -/
theorem setrateDerivesPeriod : Obligations.SetrateDerivesPeriod := by
  intro r s
  refine ⟨encode_setrate r, fun hf => ?_⟩
  have hb := setrateBody_eq r s
  refine ⟨exec_config_of_decoding hf nofun hb, fun hm => ⟨fun hr => ?_, fun hlo hhi => ?_⟩⟩
  · exact exec_config_of_cause hf nofun hb hm ((periodOfRate_eq_zero_iff r).mpr hr)
  · have hp : periodOfRate r ≠ 0 := by
      rw [Ne, periodOfRate_eq_zero_iff]
      omega
    exact ⟨_, exec_config_of_not_cause hf nofun hb hm hp, zext_ofNat_periodOfRate r, rfl⟩

/-- Settles O28: both commands refuse exactly the divisor 0, which is the signed 0. -/
theorem divisorsAreStored : Obligations.DivisorsAreStored := by
  intro d s
  refine ⟨encode_setidiv d, encode_setediv d, fun hf => ?_⟩
  have hi := setidivBody_eq d s
  have he := setedivBody_eq d s
  simp only [Ne, sext_eq_zero_iff]
  exact ⟨fun hm => ⟨exec_config_of_decoding hf nofun hi hm, exec_config_of_decoding hf nofun he hm⟩, fun hm =>
    ⟨fun h0 => ⟨exec_config_of_cause hf nofun hi hm h0, exec_config_of_cause hf nofun he hm h0⟩,
      fun h0 => ⟨exec_config_of_not_cause hf nofun hi hm h0, exec_config_of_not_cause hf nofun he hm h0⟩⟩⟩

/-- Settles O29: under legal parameters the tags SELECT takes are those that name a strategy. -/
theorem selectTakesNamedTags : Obligations.SelectTakesNamedTags := by
  intro tag s
  refine ⟨encode_select tag, fun hf hp => ?_⟩
  have hb := selectBody_eq tag s
  refine ⟨exec_config_of_decoding hf nofun hb, fun hm => ?_⟩
  by_cases ht : namesStrategy s.params tag = true
  · rw [if_pos ((namesStrategy_iff hp tag).mp ht)]
    exact exec_config_of_not_cause hf nofun hb hm (by simp [ht])
  · rw [if_neg (mt (namesStrategy_iff hp tag).mpr ht)]
    exact exec_config_of_cause hf nofun hb hm (Bool.eq_false_of_not_eq_true ht)

end Sys2Proof

namespace Sys2Proof.Machine

open Sys2Proof Sys2Proof.Safety

/-! START, by its checks in order (R140). -/

theorem eq_tagNco_iff (tag : Byte) : tag = tagNco ↔ zext tag = 0 := BitVec.toNat_inj.symm

theorem eq_tagFw_iff (tag : Byte) : tag = tagFw ↔ zext tag = 1 := BitVec.toNat_inj.symm

theorem startBody_of_mode {s : State} (hm : s.mode = .idle ∨ s.mode = .decoding) :
    startBody s = .raised .sequence s := if_pos hm

theorem startBody_of_unconfigured {s : State} (hi : s.mode ≠ .idle) (hd : s.mode ≠ .decoding)
    (hc : s.rateValid = false ∨ s.stratValid = false) : startBody s = .raised .configuration s := by
  rw [startBody, if_neg (not_or.mpr ⟨hi, hd⟩), if_pos hc]

section Configured

variable {s : State} (hi : s.mode ≠ .idle) (hd : s.mode ≠ .decoding) (hr : s.rateValid = true)
  (hs : s.stratValid = true)
include hi hd hr hs

theorem startBody_of_no_divisors (hl : latchedDivisors s = none) : startBody s = .raised .configuration s := by
  simp only [startBody, hi, hd, hr, hs, hl, or_self, if_false, Bool.true_eq_false]

theorem startBody_of_divisors {li le : Word} (hl : latchedDivisors s = some (li, le)) :
    startBody s =
      .val 0 (clearBuffer { s with lidiv := li, lediv := le, phase := 0, pe := zext s.period, mode := .decoding }) := by
  simp only [startBody, hi, hd, hr, hs, hl, or_self, if_false, Bool.true_eq_false]

end Configured

/-! The divisors START latches, by strategy (R140, R149). -/

theorem latchedDivisors_nco {s : State} (ht : zext s.strat = 0) (hi : s.idivValid = true) (he : s.edivValid = true) :
    latchedDivisors s = some (s.idiv, s.ediv) := by
  rw [latchedDivisors, if_pos ((eq_tagNco_iff _).mpr ht), if_pos (by rw [hi, he]; rfl)]

theorem latchedDivisors_nco_missing {s : State} (ht : zext s.strat = 0)
    (hv : s.idivValid = false ∨ s.edivValid = false) : latchedDivisors s = none := by
  rw [latchedDivisors, if_pos ((eq_tagNco_iff _).mpr ht), if_neg]
  rw [Bool.and_eq_true]
  rintro ⟨hi, he⟩
  simp [hi, he] at hv

theorem latchedDivisors_fw {s : State} (ht : zext s.strat = 1) : latchedDivisors s = some (0, 0) := by
  rw [latchedDivisors, if_neg (by rw [eq_tagNco_iff]; omega), if_pos ((eq_tagFw_iff _).mpr ht)]

theorem latchedDivisors_preset {s : State} {p : Preset} (hlo : 2 ≤ zext s.strat) (hhi : zext s.strat < 0x80)
    (hp : s.params.presetTable[zext s.strat - 2]? = some p) :
    latchedDivisors s = some (p.integralDiv, p.errorDiv) := by
  rw [latchedDivisors, if_neg (by rw [eq_tagNco_iff]; omega), if_neg (by rw [eq_tagFw_iff]; omega), presetOfTag,
    if_pos ⟨hlo, hhi⟩, hp, Option.map_some]

/-! FINISH, by its check (R151), and the answers of RDPHASE and RDPERIOD (R152, R153). -/

theorem finishBody_of_not_decoding {s : State} (hm : s.mode ≠ .decoding) :
    finishBody s = .raised .sequence s := if_pos hm

theorem finishBody_of_decoding {s : State} (hm : s.mode = .decoding) :
    finishBody s = .val (s.bcProd.extractLsb' 0 32) { s with mode := .decoded } := if_neg (not_not.mpr hm)

/-- R8: the low 32 bits of a signed value, as a number. -/
theorem zext_lo32 (v : Int) : (zext (lo32 v) : Int) = v % 2 ^ 32 := by
  rw [zext, lo32, BitVec.toNat_ofInt, Int.toNat_of_nonneg (Int.emod_nonneg v (by decide))]
  rfl

/-! FEED, by its strategy (R141). -/

/-- R141: the answer of a FEED that emitted `bits` is their number. -/
theorem pushBits_bcProd_sub (s : State) (bits : List Bool) :
    ((pushBits s bits).bcProd - s.bcProd).extractLsb' 0 32 = BitVec.ofNat 32 bits.length := by
  rw [pushBits_bcProd, BitVec.add_comm, BitVec.add_sub_cancel]
  apply BitVec.eq_of_toNat_eq
  simp only [BitVec.extractLsb'_toNat, BitVec.toNat_ofNat, Nat.shiftRight_zero]
  omega

theorem feedBody_of_window {dt : Half} {s : State} (hm : s.mode = .decoding) (ht : s.strat = tagFw) :
    feedBody dt s = (fixedWindowFeed (zext dt) s).bind fun _ t =>
      .val ((t.bcProd - s.bcProd).extractLsb' 0 32) t := by
  rw [feedBody, if_neg (not_not.mpr hm), if_pos ht]

theorem feedBody_of_loop {dt : Half} {s : State} (hs : LoopRunning s) :
    feedBody dt s = (loopFeed (zext dt) s).bind fun _ t => .val ((t.bcProd - s.bcProd).extractLsb' 0 32) t := by
  obtain ⟨-, hm, ht⟩ := hs
  rw [feedBody, if_neg (not_not.mpr hm), if_neg ht]

/-! The fixed window (R150). -/

/-- R150: the bitcells of an interval are the `n` with `n - 1/2 <= dt / PERIOD < n + 1/2`. -/
theorem windowCells_eq {dt period n : Nat} (hlo : 2 * n * period ≤ 2 * dt + period)
    (hhi : 2 * dt + period < 2 * (n + 1) * period) : windowCells dt period = n := by
  refine Nat.div_eq_of_lt_le ?_ ?_
  · calc n * (2 * period) = 2 * n * period := by ring
      _ ≤ 2 * dt + period := hlo
  · calc 2 * dt + period < 2 * (n + 1) * period := hhi
      _ = (n + 1) * (2 * period) := by ring

theorem intervalBits_eq (n : Nat) :
    intervalBits n = if n = 0 then [] else List.replicate (n - 1) false ++ [true] := by
  cases n <;> rfl

/-! The range check (R147). -/

theorem chk_of_fits {v : Int} {s : State} (h : fitsSigned s.params.wAcc v = true) : chk v s = .val v s := if_pos h

theorem chk_of_not_fits {v : Int} {s : State} (h : fitsSigned s.params.wAcc v = false) :
    chk v s = .raised .arithmetic s := if_neg (by simp [h])

/-! Steps 2 and 3 of the loop (R142, R143, R148). -/

theorem emitBits_append (a b : List Bool) (s : State) :
    emitBits (a ++ b) s = (emitBits a s).bind fun _ t => emitBits b t := by
  induction a generalizing s with
  | nil => rfl
  | cons v rest ih => simp only [List.cons_append, emitBits, Res.bind_assoc, ih]

theorem emitBits_of_lt {bits : List Bool} {s : State} (h : zext s.bcProd + bits.length < 2 ^ 64) :
    emitBits bits s = .val () (pushBits s bits) := by
  rw [emitBits_eq, if_pos h]

theorem floorWindow_of_guard {dt : Nat} {p : Int} {s : State} (hdt : dt ≠ 0) (hpe : s.pe ≤ 0) (hp : s.pe ≤ p) :
    floorWindow dt p s = .raised .arithmetic s := if_pos ⟨hdt, hpe, hp⟩

theorem centredWindow_of_guard {dt : Nat} {p : Int} {s : State} (hdt : dt ≠ 0) (hpe : s.pe ≤ 0)
    (hp : s.pe ≤ 2 * (p - s.pe)) : centredWindow dt p s = .raised .arithmetic s := if_pos ⟨hdt, hpe, hp⟩

/-- A loop FEED of `k` zeros emits `k + 1` bits (R154). -/
theorem length_zeros_one (k : Nat) : (List.replicate k false ++ [true]).length = k + 1 := by
  rw [List.length_append, List.length_replicate, List.length_singleton]

/-- Step 2 under FLOOR where R143 does not stop it: its zeros in closed form, and the error past whole periods. -/
theorem floorZeros_run {dt : Nat} {p : Int} {s : State} (h : dt ≠ 0 → 1 ≤ s.pe ∨ p < s.pe) :
    (if dt = 0 then Res.val p s else floorRun s.pe p.toNat p s) =
      (emitBits (List.replicate (floorZeros dt p s.pe) false) s).bind fun _ t =>
        .val (p - floorZeros dt p s.pe * s.pe) t := by
  by_cases hnone : dt = 0 ∨ p < s.pe
  · have hk : floorZeros dt p s.pe = 0 := if_pos hnone
    have hrun : (if dt = 0 then Res.val p s else floorRun s.pe p.toNat p s) = .val p s := by
      split
      · rfl
      · exact floorRun_of_lt (hnone.resolve_left ‹_›) ..
    simp [hrun, hk, emitBits]
  · have hk : floorZeros dt p s.pe = (p / s.pe).toNat := if_neg hnone
    obtain ⟨hdt, hge⟩ := not_or.mp hnone
    rw [if_neg hdt, hk, floorRun_eq ((h hdt).resolve_right hge) _ _ _ le_rfl]

/-- Steps 2 and 3 under FLOOR where R143 does not stop them: the zeros and one 1, up to the counter's top. -/
theorem floorWindow_eq {dt : Nat} {p : Int} {s : State} (h : dt ≠ 0 → 1 ≤ s.pe ∨ p < s.pe) :
    floorWindow dt p s =
      (emitBits (List.replicate (floorZeros dt p s.pe) false ++ [true]) s).bind fun _ t =>
        .val (p - floorZeros dt p s.pe * s.pe) t := by
  have hguard : ¬(dt ≠ 0 ∧ s.pe ≤ 0 ∧ s.pe ≤ p) := fun ⟨hdt, hpe, hp⟩ => by have := h hdt; omega
  rw [floorWindow, if_neg hguard, floorZeros_run h, emitBits_append]
  simp only [Res.bind_assoc, Res.val_bind, emitBits]

theorem phaseError_of_floor {s : State} (hw : s.params.loopWindow = .floor) (dt : Nat) (p : Int) :
    phaseError dt p s = floorWindow dt p s := by
  rw [phaseError, hw]

theorem phaseError_of_centred {s : State} (hw : s.params.loopWindow = .centred) (dt : Nat) (p : Int) :
    phaseError dt p s = centredWindow dt p s := by
  rw [phaseError, hw]

/-- A FEED whose step 2 would never end stops before it (R143, R148). -/
theorem phaseError_of_guard {dt : Nat} {p : Int} {s : State} (hdt : dt ≠ 0) (hpe : s.pe ≤ 0)
    (hp : if s.params.loopWindow = .floor then s.pe ≤ p else s.pe ≤ 2 * (p - s.pe)) :
    phaseError dt p s = .raised .arithmetic s := by
  cases hw : s.params.loopWindow with
  | floor =>
    rw [if_pos hw] at hp
    rw [phaseError_of_floor hw, floorWindow_of_guard hdt hpe hp]
  | centred =>
    rw [if_neg (by simp [hw])] at hp
    rw [phaseError_of_centred hw, centredWindow_of_guard hdt hpe hp]

/-! Steps 4 and 5 of the loop (R145, R146). -/

theorem carriedPhase_of_fits {e : Int} {s : State} (h : fitsSigned s.params.wAcc (newPhase s e) = true) :
    carriedPhase e (tdiv e (sext s.lediv)) s = .val (newPhase s e) s := by
  unfold newPhase at *
  unfold carriedPhase
  cases hc : s.params.phaseCarry with
  | quotient => rfl
  | remainder =>
    rw [hc] at h
    exact chk_of_fits h

theorem loopCorrect_of_inRange {e : Int} {s : State} (h : LoopInRange s e) :
    loopCorrect e s = .val () { s with phase := newPhase s e, pe := newPeriod s e } := by
  obtain ⟨hq, hphase, hc, hpe⟩ := h
  rw [loopCorrect, tdiv, chk_of_fits hq, Res.val_bind, ← tdiv, carriedPhase_of_fits hphase, Res.val_bind, tdiv,
    chk_of_fits hc, Res.val_bind, ← newPeriod, chk_of_fits hpe, Res.val_bind]

/-! Steps 4 and 5 read nothing the emissions change. -/

theorem newPhase_pushBits (s : State) (bits : List Bool) (e : Int) : newPhase (pushBits s bits) e = newPhase s e := by
  rw [pushBits_eq]
  rfl

theorem newPeriod_pushBits (s : State) (bits : List Bool) (e : Int) :
    newPeriod (pushBits s bits) e = newPeriod s e := by
  rw [pushBits_eq]
  rfl

theorem loopInRange_pushBits (s : State) (bits : List Bool) (e : Int) :
    LoopInRange (pushBits s bits) e ↔ LoopInRange s e := by
  rw [pushBits_eq]
  rfl

/-! LoopFeed (R142). -/

theorem loopFeed_of_not_fits {dt : Nat} {s : State} (h : fitsSigned s.params.wAcc (s.phase + dt) = false) :
    loopFeed dt s = .raised .arithmetic s := by
  rw [loopFeed, chk_of_not_fits h, Res.raised_bind]

theorem loopFeed_of_fits {dt : Nat} {s : State} (h : fitsSigned s.params.wAcc (s.phase + dt) = true) :
    loopFeed dt s = (phaseError dt (s.phase + dt) s).bind fun e t => loopCorrect e t := by
  rw [loopFeed, chk_of_fits h, Res.val_bind]

/-- A FLOOR FEED below the counter's top emits its zeros and one 1, and then corrects the loop by the error. -/
theorem loopFeed_of_floorStep {dt : Half} {s : State} {k : Nat} {e : Int} (h : FloorStep dt s k e)
    (hb : zext s.bcProd + k + 1 < 2 ^ 64) :
    loopFeed (zext dt) s = loopCorrect e (pushBits s (List.replicate k false ++ [true])) := by
  obtain ⟨hw, hguard, hfit, hk, he⟩ := h
  have hlen := length_zeros_one k
  rw [loopFeed_of_fits hfit, phaseError_of_floor hw, floorWindow_eq hguard, ← hk, ← he, emitBits_of_lt (by omega),
    Res.val_bind, Res.val_bind]

end Sys2Proof.Machine

namespace Sys2Proof

open Sys2Proof.Machine Sys2Proof.Safety

/-- Settles O30: each check of START in turn; each strategy with its divisors latches them and clears the buffer. -/
theorem startInitialisesDecode : Obligations.StartInitialisesDecode := by
  refine ⟨rfl, fun s hf => ⟨fun hm => exec_of_raised hf nofun (startBody_of_mode hm), fun hi hd =>
    ⟨fun hc => exec_of_raised hf nofun (startBody_of_unconfigured hi hd hc), fun hr hs => ⟨?_, ?_⟩⟩⟩⟩
  · intro ht hv
    exact exec_of_raised hf nofun (startBody_of_no_divisors hi hd hr hs (latchedDivisors_nco_missing ht hv))
  · intro li le hlt hstrategy
    have hl : latchedDivisors s = some (li, le) := by
      obtain ⟨ht, hiv, hev, rfl, rfl⟩ | ⟨ht, rfl, rfl⟩ | ⟨hlo, p, hp, rfl, rfl⟩ := hstrategy
      · exact latchedDivisors_nco ht hiv hev
      · exact latchedDivisors_fw ht
      · exact latchedDivisors_preset hlo hlt hp
    exact ⟨_, exec_of_val hf nofun (startBody_of_divisors hi hd hr hs hl), rfl, fun j => rfl⟩

/-- Settles O33: the interval has `n` bits, emitted whole or up to the counter's top. -/
theorem fixedWindowFeedEmitsInterval : Obligations.FixedWindowFeedEmitsInterval := by
  intro dt s n bits hf hm ht _ hlo hhi hbits
  rw [← intervalBits_eq] at hbits
  have hlen : bits.length = n := by rw [hbits, length_intervalBits]
  have hfeed : fixedWindowFeed (zext dt) s = emitBits bits s := by
    rw [fixedWindowFeed, windowCells_eq hlo hhi, hbits]
  refine ⟨fun hlt => ?_, fun hge => ?_⟩
  · have hbody : bodyOf (.feed dt) s = .val (BitVec.ofNat 32 n) (pushBits s bits) := by
      rw [bodyOf, feedBody_of_window hm ht, hfeed, emitBits_of_lt (by omega), Res.val_bind, pushBits_bcProd_sub, hlen]
    exact ⟨_, exec_of_val hf nofun hbody, by rw [pushBits_eq]; rfl, by rw [pushBits_eq]; rfl, rfl⟩
  · refine exec_of_raised hf nofun ?_
    rw [bodyOf, feedBody_of_window hm ht, hfeed, emitBits_eq, if_neg (by omega), Res.raised_bind]

/-- Settles O34: the closed form of step 2, and then in-range corrections of the loop. -/
theorem floorFeedTracks : Obligations.FloorFeedTracks := by
  intro dt s k e hs hw hguard hfit hk he hrange hb
  have hloop := loopFeed_of_floorStep ⟨hw, hguard, hfit, hk, he⟩ hb
  rw [loopCorrect_of_inRange ((loopInRange_pushBits s _ e).mpr hrange), newPhase_pushBits, newPeriod_pushBits] at hloop
  have ⟨hf, _, _⟩ := hs
  refine exec_of_val hf nofun ?_
  rw [bodyOf, feedBody_of_loop hs, hloop, Res.val_bind, pushBits_bcProd_sub, length_zeros_one]

/-- Settles O36: the range check and the guard of step 2 come before any emission; below a non-positive PE the FEED
emits its one 1, whether or not the corrections then leave the range. -/
theorem loopFaultsBeforeAnyBit : Obligations.LoopFaultsBeforeAnyBit := by
  intro dt s hs
  have ⟨hf, _, _⟩ := hs
  refine ⟨fun hcause => ?_, fun hw hpe hlt hfit hb => ?_⟩
  · have hloop : loopFeed (zext dt) s = .raised .arithmetic s := by
      cases hfit : fitsSigned s.params.wAcc (s.phase + zext dt) with
      | false => exact loopFeed_of_not_fits hfit
      | true =>
        obtain ⟨hdt, hpe, hp⟩ := hcause.resolve_right (by simp [hfit])
        rw [loopFeed_of_fits hfit, phaseError_of_guard hdt hpe hp, Res.raised_bind]
    refine exec_of_raised hf nofun ?_
    rw [bodyOf, feedBody_of_loop hs, hloop, Res.raised_bind]
  · have hstep : FloorStep dt s 0 (s.phase + zext dt) :=
      ⟨hw, fun _ => .inr hlt, hfit, (if_pos (.inr hlt)).symm, by simp⟩
    have hloop := loopFeed_of_floorStep hstep (by omega)
    rw [List.replicate_zero, List.nil_append] at hloop
    have hbody : bodyOf (.feed dt) s = _ := feedBody_of_loop hs
    have hcount : zext (pushBits s [true]).bcProd = zext s.bcProd + 1 := zext_pushBits_bcProd hb
    obtain ⟨np, npe, -, -, h⟩ | h := loopCorrect_cases (s.phase + zext dt) (pushBits s [true])
    · rw [hloop, h, Res.val_bind] at hbody
      exact ⟨_, exec_of_val hf nofun hbody, hcount⟩
    · rw [hloop, h, Res.raised_bind] at hbody
      exact ⟨_, exec_of_raised hf nofun hbody, hcount⟩

/-- Settles O31: outside DECODING the check raises, and in it the answer is the low half of BC_PROD. -/
theorem finishReturnsBitcellCount : Obligations.FinishReturnsBitcellCount := by
  refine ⟨rfl, fun s hf => ⟨fun hm => ?_, fun hm => ?_⟩⟩
  · exact exec_of_raised hf nofun (finishBody_of_not_decoding hm)
  · exact ⟨_, exec_of_val hf nofun (finishBody_of_decoding hm), zext_lowHalf s.bcProd, rfl⟩

/-- Settles O32: both commands answer in every mode, each with the low 32 bits of its register. -/
theorem loopRegisterReads : Obligations.LoopRegisterReads := by
  refine ⟨rfl, rfl, fun s hf => ?_⟩
  exact ⟨_, _, exec_of_val hf nofun rfl, exec_of_val hf nofun rfl, zext_lo32 s.phase, zext_lo32 s.pe, rfl, rfl⟩

end Sys2Proof

namespace Sys2Proof.Machine

open Sys2Proof Sys2Proof.Safety

/-! Runs of the sink: the answers taken, the log, and the bytes held (R41, R54, R189). -/

/-- R54: a write within the sink that is answered *done*, which takes one answer. -/
theorem sinkWrite_of_acked {s : State} {a : Nat} (ha : a < s.params.sinkSize)
    (hack : ∀ x ∈ s.sinkAnswers.take 1, x = .acked) (v : Byte) :
    sinkWrite a v s = .val () (sinkStore { s with sinkAnswers := s.sinkAnswers.drop 1 } a v) := by
  have hsize : ¬s.params.sinkSize ≤ a := not_le.mpr ha
  cases hs : s.sinkAnswers with
  | nil =>
    have hsame : { s with sinkAnswers := [].drop 1 } = s := by rw [List.drop_nil, ← hs]
    rw [hsame, sinkWrite, if_neg hsize, hs]
  | cons x rest =>
    obtain rfl : x = .acked := by simpa [hs] using hack
    rw [sinkWrite, if_neg hsize, hs]
    rfl

/-- R54: a write beyond the sink takes no answer, and one answered *failed* takes that answer. -/
theorem sinkWrite_of_writeFails {s : State} {a : Nat} (h : WriteFails s a) (v : Byte) :
    ∃ n, sinkWrite a v s = .raised .io (sinkReject { s with sinkAnswers := s.sinkAnswers.drop n } a v) := by
  by_cases ha : s.params.sinkSize ≤ a
  · exact ⟨0, if_pos ha⟩
  · have hfailed : s.sinkAnswers[0]? = some .failed := h.resolve_left ha
    cases hs : s.sinkAnswers with
    | nil => simp [hs] at hfailed
    | cons x rest =>
      obtain rfl : x = .failed := by simpa [hs] using hfailed
      exact ⟨1, by rw [sinkWrite, if_neg ha, hs]; rfl⟩

/-- R188, R189: writes within the sink that are all answered *done* are stored before the rest is attempted. -/
theorem sinkWrites_append_of_acked {front : List (Nat × Byte)} {s : State}
    (hfit : ∀ w ∈ front, w.1 < s.params.sinkSize) (hack : ∀ x ∈ s.sinkAnswers.take front.length, x = .acked)
    (back : List (Nat × Byte)) :
    sinkWrites (front ++ back) s =
      sinkWrites back (sinkStores { s with sinkAnswers := s.sinkAnswers.drop front.length } front) := by
  induction front generalizing s with
  | nil => rfl
  | cons w rest ih =>
    obtain ⟨hw, hrest⟩ := List.forall_mem_cons.mp hfit
    rw [List.length_cons, Nat.add_comm, List.take_add, List.forall_mem_append] at hack
    obtain ⟨hone, hlater⟩ := hack
    rw [List.cons_append, sinkWrites, sinkWrite_of_acked hw hone, Res.val_bind,
      ih (s := sinkStore { s with sinkAnswers := s.sinkAnswers.drop 1 } w.1 w.2) hrest hlater,
      sinkStore_sinkAnswers, List.drop_drop, List.length_cons, Nat.add_comm]
    rfl

theorem sinkStores_cons (s : State) (w : Nat × Byte) (ws : List (Nat × Byte)) :
    sinkStores s (w :: ws) = sinkStores (sinkStore s w.1 w.2) ws := rfl

/-- Stored writes do not read the answers to come. -/
theorem sinkStores_with_answers (s : State) (ws : List (Nat × Byte)) (answers : List SinkAnswer) :
    { sinkStores s ws with sinkAnswers := answers } = sinkStores { s with sinkAnswers := answers } ws := by
  induction ws generalizing s with
  | nil => rfl
  | cons w rest ih => exact ih (sinkStore s w.1 w.2)

theorem sinkStores_sinkLog (s : State) (ws : List (Nat × Byte)) :
    (sinkStores s ws).sinkLog = s.sinkLog ++ ws.map fun w => ⟨w.1, w.2, true⟩ := by
  induction ws generalizing s with
  | nil => simp [sinkStores]
  | cons w rest ih => simp [sinkStores_cons, ih]

/-- R41: an address no write names holds what it held. -/
theorem readSink_sinkStores_of_ne {s : State} {ws : List (Nat × Byte)} {b : Nat} (h : ∀ w ∈ ws, w.1 ≠ b) :
    readSink (sinkStores s ws).sink b = readSink s.sink b := by
  induction ws generalizing s with
  | nil => rfl
  | cons w rest ih =>
    obtain ⟨hw, hrest⟩ := List.forall_mem_cons.mp h
    rw [sinkStores_cons, ih hrest, sinkStore_sink, readSink_insertCell, if_neg hw.symm]

/-- R41: writes at rising addresses leave each its byte. -/
theorem readSink_sinkStores_of_mem {s : State} {ws : List (Nat × Byte)} (hws : Rising ws) {w : Nat × Byte}
    (hw : w ∈ ws) : readSink (sinkStores s ws).sink w.1 = some w.2 := by
  induction ws generalizing s with
  | nil => cases hw
  | cons x rest ih =>
    obtain ⟨hlt, hrest⟩ := List.pairwise_cons.mp hws
    rw [sinkStores_cons]
    rcases List.mem_cons.mp hw with rfl | hw
    · have hne : ∀ y ∈ rest, y.1 ≠ w.1 := fun y hy => (hlt y hy).ne'
      rw [readSink_sinkStores_of_ne hne, sinkStore_sink, readSink_insertCell, if_pos rfl]
    · exact ih hrest hw

/-! The bytes of the image (R183 to R187). -/

theorem getElem?_atAddresses (base : Nat) (bytes : List Byte) (j : Nat) :
    (atAddresses base bytes)[j]? = bytes[j]?.map fun v => (base + j, v) := List.getElem?_mapIdx

@[simp] theorem length_atAddresses (base : Nat) (bytes : List Byte) :
    (atAddresses base bytes).length = bytes.length := List.length_mapIdx

/-- R187: bit `31 - t` of a serialized word is the buffer bit at `32i + t`, or the 0 that ZERO_PAD forces. -/
theorem getLsbD_tailWord (s : State) (i bc : Nat) {t : Nat} (ht : t < 32) :
    (tailWord s i bc).getLsbD (31 - t) =
      if s.params.tailPolicy = .zeroPad ∧ bc ≤ 32 * i + t then false else bufRead s (32 * i + t) := by
  have hlt : 31 - t < 32 := by omega
  have hinv : 31 - (31 - t) = t := by omega
  rw [tailWord]
  cases hp : s.params.tailPolicy with
  | truncate => rw [getLsbD_wordAt, hinv, decide_eq_true hlt, Bool.true_and, if_neg (by simp)]
  | zeroPad =>
    rw [getLsbD_bitsMsbFirst, hinv, decide_eq_true hlt, Bool.true_and]
    by_cases hbc : bc ≤ 32 * i + t
    · rw [if_pos ⟨rfl, hbc⟩, decide_eq_false (by omega), Bool.false_and]
    · rw [if_neg (fun h => hbc h.2), decide_eq_true (by omega), Bool.true_and]

/-- R10, R185: the byte reversed on its way to the sink has bit `31 - (8j + m)` of the word at its bit `m`. -/
theorem getLsbD_rev8_byteOfWord (w : Word) {j m : Nat} (hj : j < 4) (hm : m < 8) :
    (rev8 (byteOfWord w j)).getLsbD m = w.getLsbD (31 - (8 * j + m)) := by
  have hlt : 7 - m < 8 := by omega
  have hpos : 24 - 8 * j + (7 - m) = 31 - (8 * j + m) := by omega
  rw [getLsbD_rev8, byteOfWord, BitVec.getLsbD_extractLsb', hpos, decide_eq_true hm, decide_eq_true hlt,
    Bool.true_and, Bool.true_and]

theorem getElem?_dataBytes (s : State) (i bc : Nat) {j : Nat} (hj : j < 4) :
    (dataBytes s i bc)[j]? = some (rev8 (byteOfWord (tailWord s i bc) j)) := by
  interval_cases j <;> rfl

theorem toList_hfeMagic (p : Params) :
    p.hfeMagic.toList = [p.hfeMagic[0], p.hfeMagic[1], p.hfeMagic[2], p.hfeMagic[3], p.hfeMagic[4], p.hfeMagic[5],
      p.hfeMagic[6], p.hfeMagic[7]] := by
  refine List.ext_getElem (by simp) fun k hk _ => ?_
  rw [Vector.length_toList] at hk
  rw [Vector.getElem_toList]
  interval_cases k <;> rfl

theorem lowByte_eq_mod (n : Nat) : lowByte n = BitVec.ofNat 8 (n % 256) := by
  apply BitVec.eq_of_toNat_eq
  simp [lowByte]

/-- R184: the low byte of the 16-bit table entry. -/
theorem lowByte_tableEntry (n : Nat) : lowByte (n % 65536) = BitVec.ofNat 8 (n % 256) := by
  rw [lowByte_eq_mod, Nat.mod_mod_of_dvd n (by decide)]

/-- R184: the high byte of the 16-bit table entry. -/
theorem highByte_tableEntry (n : Nat) : highByte (n % 65536) = BitVec.ofNat 8 (n / 256 % 256) := by
  have hdiv : n % 65536 / 256 = n / 256 % 256 := by omega
  rw [highByte, hdiv]

/-- R186: the words' offsets leave room for four bytes each. -/
theorem wordOffset_add_four_le {i k : Nat} (h : i < k) : wordOffset i + 4 ≤ wordOffset k := by
  unfold wordOffset
  omega

theorem base_le_wordOffset (i : Nat) : 0x400 ≤ wordOffset i := by
  unfold wordOffset
  omega

theorem map_fst_atAddresses (base : Nat) (bytes : List Byte) :
    (atAddresses base bytes).map Prod.fst = List.range' base bytes.length :=
  List.ext_getElem (by simp) (by simp [atAddresses])

theorem rising_atAddresses (base : Nat) (bytes : List Byte) : Rising (atAddresses base bytes) := by
  rw [Rising, ← List.pairwise_map (f := Prod.fst), map_fst_atAddresses]
  exact List.pairwise_lt_range'

theorem mem_atAddresses_bounds {base : Nat} {bytes : List Byte} {w : Nat × Byte} (h : w ∈ atAddresses base bytes) :
    base ≤ w.1 ∧ w.1 < base + bytes.length := by
  have hmem : w.1 ∈ (atAddresses base bytes).map Prod.fst := List.mem_map_of_mem h
  rwa [map_fst_atAddresses, List.mem_range'_1] at hmem

theorem length_headerBytes (s : State) : (headerBytes s).length = 20 := by simp [headerBytes]

/-- Element `k * i + j` of lists of one length `k`, joined, is element `j` of list `i`. -/
theorem getElem?_flatMap_range {β : Type} {f : Nat → List β} {k : Nat} (hf : ∀ i, (f i).length = k) {n i j : Nat}
    (hi : i < n) (hj : j < k) : ((List.range n).flatMap f)[k * i + j]? = (f i)[j]? := by
  have hlen : ∀ m, ((List.range m).flatMap f).length = k * m := fun m => by
    simp [List.length_flatMap, hf, Nat.mul_comm]
  induction n with
  | zero => omega
  | succ n ih =>
    rw [List.range_succ, List.flatMap_append, List.flatMap_singleton]
    rcases Nat.lt_succ_iff_lt_or_eq.mp hi with hi | rfl
    · have hle : k * i + k ≤ k * n := Nat.mul_le_mul_left k (Nat.succ_le_of_lt hi)
      rw [List.getElem?_append_left (by rw [hlen]; omega), ih hi]
    · rw [List.getElem?_append_right (by rw [hlen]; omega), hlen, Nat.add_sub_cancel_left]

/-! The image as the front matter and the data words (R188). -/

/-- The writes of the header and the track-table entry (R183, R184). -/
def frontMatterWrites (s : State) : List (Nat × Byte) :=
  atAddresses 0x000 (headerBytes s) ++ atAddresses 0x200 (trackTableBytes (byteCountOf (zext s.bcProd)))

/-- The writes of data word `i` (R185, R186). -/
def wordWrites (s : State) (i : Nat) : List (Nat × Byte) := atAddresses (wordOffset i) (dataBytes s i (zext s.bcProd))

theorem imageWrites_eq (s : State) :
    imageWrites s = frontMatterWrites s ++ (List.range (serializedWords s)).flatMap (wordWrites s) := rfl

theorem length_frontMatterWrites (s : State) : (frontMatterWrites s).length = 24 := by
  rw [frontMatterWrites, List.length_append, length_atAddresses, length_atAddresses, length_headerBytes]
  rfl

@[simp] theorem length_wordWrites (s : State) (i : Nat) : (wordWrites s i).length = 4 := length_atAddresses ..

theorem length_imageWrites (s : State) : (imageWrites s).length = 24 + 4 * serializedWords s := by
  simp [imageWrites_eq, length_frontMatterWrites, List.length_flatMap, Nat.mul_comm]

theorem take_imageWrites (s : State) : (imageWrites s).take 24 = frontMatterWrites s := by
  rw [imageWrites_eq, List.take_left' (length_frontMatterWrites s)]

/-- R186, R188: write `24 + 4i + j` of the image is byte `j` of data word `i`. -/
theorem getElem?_imageWrites_word {s : State} {i j : Nat} (hi : i < serializedWords s) (hj : j < 4) :
    (imageWrites s)[24 + (4 * i + j)]? =
      some (wordOffset i + j, rev8 (byteOfWord (tailWord s i (zext s.bcProd)) j)) := by
  rw [imageWrites_eq, List.getElem?_append_right (by rw [length_frontMatterWrites]; omega), length_frontMatterWrites,
    Nat.add_sub_cancel_left, getElem?_flatMap_range (length_wordWrites s) hi hj, wordWrites, getElem?_atAddresses,
    getElem?_dataBytes s i _ hj, Option.map_some]

/-- R185, R187: bit `m` of the byte `j` that the sink gets of word `i` is the stream's bit at `32i + 8j + m`. -/
theorem getLsbD_dataByte (s : State) (i bc : Nat) {j m : Nat} (hj : j < 4) (hm : m < 8) :
    (rev8 (byteOfWord (tailWord s i bc) j)).getLsbD m =
      if s.params.tailPolicy = .zeroPad ∧ bc ≤ 32 * i + 8 * j + m then false
      else bufRead s (32 * i + 8 * j + m) := by
  rw [getLsbD_rev8_byteOfWord _ hj hm, getLsbD_tailWord s i bc (by omega), Nat.add_assoc]

theorem serializedWords_eq (s : State) :
    serializedWords s =
      if s.params.tailPolicy = .truncate then (zext s.bcProd + 7) / 8 / 4 else ((zext s.bcProd + 7) / 8 + 3) / 4 := by
  rw [serializedWords]
  cases s.params.tailPolicy <;> rfl

/-! The addresses of the image rise (R188). -/

theorem frontMatterWrites_lt {s : State} {w : Nat × Byte} (hw : w ∈ frontMatterWrites s) : w.1 < 0x204 := by
  obtain hw | hw := List.mem_append.mp hw
  · have hheader := mem_atAddresses_bounds hw
    rw [length_headerBytes] at hheader
    omega
  · exact (mem_atAddresses_bounds hw).2

theorem wordWrites_bounds {s : State} {i : Nat} {w : Nat × Byte} (hw : w ∈ wordWrites s i) :
    wordOffset i ≤ w.1 ∧ w.1 < wordOffset i + 4 := mem_atAddresses_bounds hw

theorem rising_frontMatterWrites (s : State) : Rising (frontMatterWrites s) := by
  refine List.pairwise_append.mpr ⟨rising_atAddresses .., rising_atAddresses .., fun x hx y hy => ?_⟩
  have hheader := mem_atAddresses_bounds hx
  have htable := mem_atAddresses_bounds hy
  rw [length_headerBytes] at hheader
  omega

theorem rising_wordWrites (s : State) (n : Nat) : Rising ((List.range n).flatMap (wordWrites s)) := by
  refine List.pairwise_flatMap.mpr ⟨fun i _ => rising_atAddresses .., ?_⟩
  refine List.pairwise_lt_range.imp fun hik x hx y hy => ?_
  have hroom := wordOffset_add_four_le hik
  have hbelow := wordWrites_bounds hx
  have habove := wordWrites_bounds hy
  omega

theorem rising_imageWrites (s : State) : Rising (imageWrites s) := by
  rw [imageWrites_eq]
  refine List.pairwise_append.mpr ⟨rising_frontMatterWrites s, rising_wordWrites s _, fun x hx y hy => ?_⟩
  obtain ⟨i, -, hy⟩ := List.mem_flatMap.mp hy
  have hfront := frontMatterWrites_lt hx
  have hword := wordWrites_bounds hy
  have hbase := base_le_wordOffset i
  omega

/-! SERIALIZE past its checks, and at a write that fails (R180, R189). -/

theorem serializeBody_of_legal {s : State} (hm : s.mode = .ready ∨ s.mode = .decoded) (hr : s.rateValid = true)
    (ho : s.ovf = false) :
    serializeBody s = (sinkWrites (imageWrites s) s).bind fun _ t =>
      .val (BitVec.ofNat 32 (byteCountOf (zext s.bcProd))) { t with mode := .done } := by
  have hmode : ¬(s.mode ≠ .ready ∧ s.mode ≠ .decoded) := by rwa [← not_or, not_not]
  rw [serializeBody, if_neg hmode, if_neg (by simp [hr]), if_neg (by simp [ho])]

/-- R189: the writes before the first that fails are stored, and it alone is logged besides them. -/
theorem sinkWrites_of_writeFails {front back : List (Nat × Byte)} {a : Nat} {v : Byte} {s : State}
    (hfit : ∀ w ∈ front, w.1 < s.params.sinkSize) (hack : ∀ x ∈ s.sinkAnswers.take front.length, x = .acked)
    (hfail : s.params.sinkSize ≤ a ∨ s.sinkAnswers[front.length]? = some .failed) :
    ∃ answers, sinkWrites (front ++ (a, v) :: back) s =
      .raised .io (sinkReject (sinkStores { s with sinkAnswers := answers } front) a v) := by
  have hstop : WriteFails (sinkStores { s with sinkAnswers := s.sinkAnswers.drop front.length } front) a := by
    rw [WriteFails, sinkStores_eq]
    simpa using hfail
  obtain ⟨n, h⟩ := sinkWrite_of_writeFails hstop v
  rw [sinkWrites_append_of_acked hfit hack, sinkWrites, h, Res.raised_bind, sinkStores_with_answers]
  exact ⟨_, rfl⟩

/-- R189: SERIALIZE raises at its first write that fails, with the writes before it stored. -/
theorem serializeBody_of_writeFails {s : State} {front back : List (Nat × Byte)} {a : Nat} {v : Byte}
    (hm : s.mode = .ready ∨ s.mode = .decoded) (hr : s.rateValid = true) (ho : s.ovf = false)
    (hw : imageWrites s = front ++ (a, v) :: back) (hfit : ∀ w ∈ front, w.1 < s.params.sinkSize)
    (hack : ∀ x ∈ s.sinkAnswers.take front.length, x = .acked)
    (hfail : s.params.sinkSize ≤ a ∨ s.sinkAnswers[front.length]? = some .failed) :
    ∃ answers, serializeBody s =
      .raised .io (sinkReject (sinkStores { s with sinkAnswers := answers } front) a v) := by
  obtain ⟨answers, h⟩ := sinkWrites_of_writeFails (v := v) (back := back) hfit hack hfail
  exact ⟨answers, by rw [serializeBody_of_legal hm hr ho, hw, h, Res.raised_bind]⟩

end Sys2Proof.Machine

namespace Sys2Proof

open Sys2Proof.Machine

/-- Settles O39: the front matter has 24 writes and each word four, whose bits are those of `TailWord`. -/
theorem imageWritesInOrder : Obligations.ImageWritesInOrder := by
  intro s
  refine ⟨length_imageWrites s, serializedWords_eq s, fun i hi j hj => ?_, ?_⟩
  · exact ⟨_, getElem?_imageWrites_word hi hj, fun m hm => getLsbD_dataByte s i _ hj hm⟩
  · rw [take_imageWrites, frontMatterWrites, headerBytes, toList_hfeMagic, lowByte_eq_mod, trackTableBytes,
      lowByte_tableEntry, highByte_tableEntry]
    simp [atAddresses, byteCountOf]

/-- Settles O40: the writes of `front` are stored and the one that fails is logged; the image's addresses rise, so each
byte of `front` stays. -/
theorem failedWriteRaisesIoError : Obligations.FailedWriteRaisesIoError := by
  intro s front back a v hf hm hr ho hw hfit hack hfail
  have hrising : Rising front := by
    have h := rising_imageWrites s
    rw [hw] at h
    exact (List.pairwise_append.mp h).1
  obtain ⟨answers, hbody⟩ := serializeBody_of_writeFails hm hr ho hw hfit hack hfail
  refine ⟨_, exec_of_raised hf nofun hbody, ?_, ?_, ?_, ?_, ?_⟩
  · simp [sinkStores_sinkLog, List.filter_map, Function.comp_def]
  · simp [sinkStores_sinkLog, Nat.add_assoc]
  · exact fun w hw => readSink_sinkStores_of_mem hrising hw
  · exact fun b hb => readSink_sinkStores_of_ne hb
  · rw [sinkStores_eq]
    rfl

end Sys2Proof

namespace Sys2Proof

open Sys2Proof.Machine

/-- Settles O21: NOP's pseudocode returns 0 in the state it began in, so the response is its whole effect. -/
theorem nopReportsStatus : Obligations.NopReportsStatus := by
  refine ⟨rfl, fun s hf => ?_⟩
  have hbody : bodyOf .nop s = .val 0 s := rfl
  exact exec_of_val hf nofun hbody

end Sys2Proof

namespace Sys2Proof.Machine

open Sys2Proof Sys2Proof.Safety

/-! The words that are no command (R74, R76, R215). -/

/-- R74, R75: a word with an assigned opcode and no must-be-zero bit set. -/
def LegalWord (w : Word) : Prop :=
  zext w / 2 ^ 24 ∈ assignedOpcodes ∧ zext w % 2 ^ 24 / 2 ^ operandBits (zext w / 2 ^ 24) = 0

/-- The ARG bits above the operand, as a field of the word, are the must-be-zero bits of an assigned opcode. -/
theorem legalWord_of_field_eq_zero {w : Word} {o : BitVec 8} {b n : Nat} (ho : opc w = o)
    (hfield : o.toNat ∈ assignedOpcodes ∧ operandBits o.toNat = b ∧ b + n = 24)
    (hzero : w.extractLsb' b n = 0) : LegalWord w := by
  obtain ⟨hmem, hbits, hwidth⟩ := hfield
  rw [opc_eq_iff] at ho
  rw [extract_eq_zero] at hzero
  rw [LegalWord, zext, ho, hbits, ← hwidth, pow_add, Nat.mod_mul_right_div_self]
  exact ⟨hmem, hzero⟩

/-- A decoding of `w` that is a command only for a legal `w`. -/
def OnlyLegal (w : Word) (d : Decoded) : Prop := ∀ i, d = .instr i → LegalWord w

/-- One row of the opcode map: the field tested is the one R74 makes must-be-zero. -/
theorem OnlyLegal.row {w : Word} {o : BitVec 8} {b n : Nat} {j : Instr} {d : Decoded}
    (hfield : o.toNat ∈ assignedOpcodes ∧ operandBits o.toNat = b ∧ b + n = 24) (hd : OnlyLegal w d) :
    OnlyLegal w (if opc w = o then ifZero (w.extractLsb' b n) j else d) := by
  intro i h
  split at h
  · obtain ⟨hzero, -⟩ := (ifZero_eq_instr _ _ _).mp h
    exact legalWord_of_field_eq_zero ‹_› hfield hzero
  · exact hd i h

/-- The decoder answers a command for legal words alone, row by row of the map. -/
theorem decodeCommand_onlyLegal (w lit : Word) : OnlyLegal w (decodeCommand w lit) := by
  unfold decodeCommand
  iterate 17 refine .row (by decide) ?_
  exact nofun

theorem illegalCommand_of_ok {s : State} (hf : s.fault = false) :
    illegalCommand s = .next (takeError .illegalCommand s) := runCommand_ok hf

/-- A step that takes the words of an illegal command raises IllegalCommand once they are taken. -/
theorem step_of_illegal {s t : State} {w lit : Word} (hw : ¬LegalWord w)
    (hfetch : fetch s = .command (decodeCommand w lit) t) (hf : t.fault = false) :
    step s = .next (takeError .illegalCommand t) := by
  unfold step
  rw [hfetch]
  cases hd : decodeCommand w lit with
  | instr i => exact absurd (decodeCommand_onlyLegal w lit i hd) hw
  | unassignedOpcode => exact illegalCommand_of_ok hf
  | mustBeZero => exact illegalCommand_of_ok hf

/-! The three ways a whole command stands at the port (R71, R72). -/

theorem fetch_of_short {s : State} {w : Word} {rest : List HostInput} (hp : s.pend = none) (hl : isLong w = false)
    (hh : s.hostIn = .word w :: rest) : fetch s = .command (decodeCommand w 0) (takeWords 1 rest s) := by
  simp [fetch, hh, hp, hl]

theorem fetch_of_long {s : State} {w lit : Word} {rest : List HostInput} (hp : s.pend = none) (hl : isLong w = true)
    (hh : s.hostIn = .word w :: .word lit :: rest) :
    fetch s = .command (decodeCommand w lit) (takeWords 2 rest s) := by
  simp [fetch, hh, hp, hl]

theorem fetch_of_pending {s : State} {w lit : Word} {rest : List HostInput} (hp : s.pend = some w)
    (hh : s.hostIn = .word lit :: rest) : fetch s = .command (decodeCommand w lit) (takeWords 1 rest s) := by
  simp [fetch, hh, hp]

end Sys2Proof.Machine

namespace Sys2Proof

open Sys2Proof.Machine

/-- Settles O8: the decoder answers no command for such a word, and the step raises once the words are taken. -/
theorem illegalWordRaisesIllegalCommand : Obligations.IllegalWordRaisesIllegalCommand := by
  intro s w lit rest hf hillegal
  have hw : ¬LegalWord w := fun ⟨hmem, hzero⟩ => hillegal.elim (· hmem) (· hzero)
  exact ⟨fun hp hl hh => step_of_illegal hw (fetch_of_short hp hl hh) hf,
    fun hp hl hh => step_of_illegal hw (fetch_of_long hp hl hh) hf,
    fun hp hh => step_of_illegal hw (fetch_of_pending hp hh) hf⟩

end Sys2Proof

namespace Sys2Proof.Machine

open Sys2Proof Sys2Proof.Safety

/-! The checks every command makes before it changes any state, in their order: the mode (R214), the configuration
(R211), the overflow (R212). -/

/-- The ConfigurationError checks of each command's pseudocode, in the pseudocode's own terms. -/
def RefusesConfiguration : Instr → State → Prop
  | .create c, s => isPowerOfTwo c = false ∨ s.params.maxCapBits < zext c
  | .setrate r, _ => periodOfRate r = 0
  | .setidiv d, _ => d = 0
  | .setediv d, _ => d = 0
  | .select t, s => namesStrategy s.params t = false
  | .start, s => (s.rateValid = false ∨ s.stratValid = false) ∨ latchedDivisors s = none
  | .serialize, s => s.rateValid = false
  | .nop, _ | .reset, _ | .emit _, _ | .bitcount, _ | .bitcounthi, _ | .readword _, _ | .feed _, _ | .finish, _
  | .rdphase, _ | .rdperiod, _ => False

/-- The errors a command raises past its checks: ArithmeticFault (R216) and IOError (R213). -/
def RaisesLate : Res Word → Prop
  | .val _ _ => True
  | .raised k _ => k = .arithmetic ∨ k = .io
  | .stuck _ => True

/-- How pseudocode that makes the checks of command `i` in their order ends: at the first check that fails, with the
state unchanged, or past all of them. -/
inductive Checked (i : Instr) (s : State) : Res Word → Prop where
  | sequence (hm : legalMode i s.mode = false) : Checked i s (.raised .sequence s)
  | configuration (hm : legalMode i s.mode = true) (hc : RefusesConfiguration i s) :
      Checked i s (.raised .configuration s)
  | capacity (hm : legalMode i s.mode = true) (hc : ¬RefusesConfiguration i s)
      (ho : i = .serialize ∧ s.ovf = true) : Checked i s (.raised .capacity s)
  | passed {r : Res Word} (hm : legalMode i s.mode = true) (hc : ¬RefusesConfiguration i s)
      (ho : ¬(i = .serialize ∧ s.ovf = true)) (hlate : RaisesLate r) : Checked i s r

section Checked

variable {i : Instr} {s u : State} {r : Res Word} {c : Prop} [Decidable c]

/-! Each check in turn. -/

theorem Checked.ofModeCheck (hm : legalMode i s.mode = false ↔ c) (h : legalMode i s.mode = true → Checked i s r) :
    Checked i s (if c then .raised .sequence s else r) := by
  split
  · exact .sequence (hm.mpr ‹_›)
  · exact h (Bool.eq_true_of_not_eq_false (mt hm.mp ‹_›))

theorem Checked.ofConfigurationCheck (hm : legalMode i s.mode = true) (hc : c → RefusesConfiguration i s)
    (h : ¬c → Checked i s r) : Checked i s (if c then .raised .configuration s else r) := by
  split
  · exact .configuration hm (hc ‹_›)
  · exact h ‹_›

/-- A command that checks nothing past its mode. -/
theorem Checked.ofModeAlone (hm : legalMode i s.mode = false ↔ c) (hc : ¬RefusesConfiguration i s)
    (hi : i ≠ .serialize) (hlate : RaisesLate r) : Checked i s (if c then .raised .sequence s else r) :=
  .ofModeCheck hm fun hm => .passed hm hc (fun ho => hi ho.1) hlate

/-- The shape of the configuration commands (R121 to R124). -/
theorem Checked.ofConfigBody {w : Word} (hm : legalMode i s.mode = false ↔ s.mode = .decoding)
    (hc : RefusesConfiguration i s ↔ c) (hi : i ≠ .serialize) : Checked i s (configBody c w u s) :=
  .ofModeCheck hm fun hm => .ofConfigurationCheck hm hc.mpr fun h =>
    .passed hm (mt hc.mp h) (fun ho => hi ho.1) trivial

/-! What a check that fails, or an error that was raised, says. -/

theorem Checked.of_illegalMode (h : Checked i s r) (hm : legalMode i s.mode = false) : r = .raised .sequence s := by
  cases h with
  | sequence => rfl
  | configuration hm' | capacity hm' | passed hm' => simp [hm] at hm'

theorem Checked.of_refuses (h : Checked i s r) (hm : legalMode i s.mode = true) (hc : RefusesConfiguration i s) :
    r = .raised .configuration s := by
  cases h with
  | sequence hm' => simp [hm] at hm'
  | configuration => rfl
  | capacity _ hc' | passed _ hc' => exact absurd hc hc'

theorem Checked.of_overflow (h : Checked i s r) (hm : legalMode i s.mode = true) (hc : ¬RefusesConfiguration i s)
    (ho : i = .serialize ∧ s.ovf = true) : r = .raised .capacity s := by
  cases h with
  | sequence hm' => simp [hm] at hm'
  | configuration _ hc' => exact absurd hc' hc
  | capacity => rfl
  | passed _ _ ho' => exact absurd ho ho'

theorem Checked.illegalMode_of_sequence (h : Checked i s (.raised .sequence u)) : legalMode i s.mode = false := by
  cases h with
  | sequence hm => exact hm
  | passed _ _ _ hlate => simp [RaisesLate] at hlate

theorem Checked.refuses_of_configuration (h : Checked i s (.raised .configuration u)) : RefusesConfiguration i s := by
  cases h with
  | configuration _ hc => exact hc
  | passed _ _ _ hlate => simp [RaisesLate] at hlate

theorem Checked.overflow_of_capacity (h : Checked i s (.raised .capacity u)) :
    u = s ∧ legalMode i s.mode = true ∧ ¬RefusesConfiguration i s ∧ i = .serialize ∧ s.ovf = true := by
  cases h with
  | capacity hm hc ho => exact ⟨rfl, hm, hc, ho⟩
  | passed _ _ _ hlate => simp [RaisesLate] at hlate

end Checked

/-! The errors past the checks. -/

theorem raisesLate_emit (v : Bool) (s : State) : RaisesLate ((emitBit v s).bind fun _ s => .val 0 s) := by
  unfold emitBit
  split
  · exact .inl rfl
  · exact trivial

theorem raisesLate_feed (dt : Nat) (s : State) (f : State → Word) :
    RaisesLate ((if s.strat = tagFw then fixedWindowFeed dt s else loopFeed dt s).bind fun _ t => .val (f t) t) := by
  split
  · obtain ⟨bits, -, h | h⟩ := fixedWindowFeed_cases dt s ‹_› <;> rw [h]
    · exact trivial
    · exact .inl rfl
  · obtain ⟨bits, -, ⟨np, npe, -, -, h⟩ | h⟩ := loopFeed_cases dt s ‹_› <;> rw [h]
    · exact trivial
    · exact .inl rfl

theorem raisesLate_serialize (s : State) (w : Word) (f : State → State) :
    RaisesLate ((sinkWrites (imageWrites s) s).bind fun _ t => .val w (f t)) := by
  obtain ⟨-, h⟩ | ⟨front, a, v, back, m, -, -, -, -, -, h⟩ | h := sinkWrites_cases (imageWrites s) s <;> rw [h]
  · exact trivial
  · exact .inr rfl
  · exact trivial

/-! Every command makes its checks in that order. -/

theorem createBody_checked (c : Word) (s : State) : Checked (.create c) s (createBody c s) :=
  .ofModeCheck (by simp [legalMode]) fun hm =>
    .ofConfigurationCheck hm .inl fun hp =>
      .ofConfigurationCheck hm .inr fun hc => .passed hm (not_or.mpr ⟨hp, hc⟩) (by simp) trivial

theorem startBody_checked (s : State) : Checked .start s (startBody s) := by
  refine .ofModeCheck (by cases s.mode <;> decide) fun hm => .ofConfigurationCheck hm .inl fun hv => ?_
  split
  · exact .configuration hm (.inr ‹_›)
  · exact .passed hm (not_or.mpr ⟨hv, by simp [*]⟩) (by simp) trivial

theorem serializeBody_checked (s : State) : Checked .serialize s (serializeBody s) := by
  refine .ofModeCheck (by simp [legalMode]) fun hm => .ofConfigurationCheck hm id fun hc => ?_
  split
  · exact .capacity hm hc ⟨rfl, ‹_›⟩
  · exact .passed hm hc (fun ho => ‹¬s.ovf = true› ho.2) (raisesLate_serialize s _ _)

/-- Every command makes the checks of its mode, its configuration and its overflow in this order. -/
theorem bodyOf_checked (i : Instr) (s : State) : Checked i s (bodyOf i s) := by
  cases i with
  | create c => exact createBody_checked c s
  | setrate r =>
    rw [bodyOf, setrateBody_eq]
    exact .ofConfigBody (by simp [legalMode]) .rfl nofun
  | setidiv d => exact .ofConfigBody (by simp [legalMode]) .rfl nofun
  | setediv d => exact .ofConfigBody (by simp [legalMode]) .rfl nofun
  | select t => exact .ofConfigBody (by simp [legalMode]) .rfl nofun
  | start => exact startBody_checked s
  | serialize => exact serializeBody_checked s
  | emit v => exact .ofModeAlone (by simp [legalMode]) id nofun (raisesLate_emit v s)
  | readword k => exact .ofModeAlone (by simp [legalMode]) id nofun trivial
  | feed dt => exact .ofModeAlone (by simp [legalMode]) id nofun (raisesLate_feed _ s _)
  | finish => exact .ofModeAlone (by simp [legalMode]) id nofun trivial
  | nop | reset | bitcount | bitcounthi | rdphase | rdperiod => exact .passed rfl id nofun trivial

/-! The error a command answers is the one its pseudocode raised. -/

/-- A command that completes leaves ERR as it was. -/
theorem Effect.err_eq {s u : State} {i : Instr} (h : Effect s i u) : u.err = s.err := by
  cases h with
  | feedWindow => rw [pushBits_eq]
  | feedLoop => rw [pushBits_eq]
  | serialize => rw [sinkStores_eq]
  | _ => rfl

theorem effect_of_bodyOf_val {i : Instr} {s u : State} {r : Word} (hi : i ≠ .reset) (hb : bodyOf i s = .val r u) :
    Effect s i u := by
  obtain ⟨r', u', hv, heff⟩ | ⟨k, u', hv, -⟩ | ⟨f, hv⟩ := bodyOf_fits i s hi <;> rw [hb] at hv <;> cases hv
  exact heff

theorem raised_of_exec_err {i : Instr} {s t : State} {k : ErrKind} (hf : s.fault = false) (he : s.err = none)
    (h : exec i s = .next t) (hk : t.err = some k) : ∃ u, bodyOf i s = .raised k u ∧ t = takeError k u := by
  by_cases hi : i = .reset
  · subst hi
    cases h
    cases hk
  · rw [exec_eq_runCommand i s hi] at h
    obtain ⟨hfault, -⟩ | ⟨-, r, u, hb, rfl⟩ | ⟨-, k', u, hb, rfl⟩ := runCommand_next h
    · simp [hf] at hfault
    · simp [(effect_of_bodyOf_val hi hb).err_eq, he] at hk
    · cases hk
      exact ⟨u, hb, rfl⟩

/-! The table of R211 in the pseudocode's terms. -/

/-- R140: for a tag that names a strategy, START lacks divisors exactly under NCO without both of them. -/
theorem latchedDivisors_eq_none_iff {s : State} (hn : namesStrategy s.params s.strat = true) :
    latchedDivisors s = none ↔ zext s.strat = 0 ∧ (s.idivValid = false ∨ s.edivValid = false) := by
  rw [← eq_tagNco_iff, latchedDivisors]
  by_cases hnco : s.strat = tagNco
  · simp [hnco, ← Bool.not_eq_true, imp_iff_not_or]
  · by_cases hfw : s.strat = tagFw
    · simp [hfw, tagFw, tagNco]
    · have hsome : (presetOfTag s.params s.strat).isSome = true := by simpa [namesStrategy, hnco, hfw] using hn
      simp [hnco, hfw, Option.isSome_iff_ne_none.mp hsome]

/-- Under legal parameters and registers that keep their promises the pseudocode's checks are the causes of the table. -/
theorem refusesConfiguration_iff {i : Instr} {s : State} (hp : s.params.legal = true) (hc : ConfigInv s) :
    RefusesConfiguration i s ↔ configCause i s := by
  cases i with
  | create c => exact or_congr_left (by rw [← isPowerOfTwo_iff, Bool.not_eq_true])
  | setrate r => exact periodOfRate_eq_zero_iff r
  | setidiv d => exact (sext_eq_zero_iff d).symm
  | setediv d => exact (sext_eq_zero_iff d).symm
  | select t => exact (Bool.not_eq_true _).symm.to_iff.trans (not_congr (namesStrategy_iff hp t))
  | start =>
    obtain ⟨-, -, -, hs⟩ := hc
    cases hv : s.stratValid with
    | false => simp [RefusesConfiguration, configCause, hv]
    | true => exact (or_congr_right (latchedDivisors_eq_none_iff (hs hv))).trans or_assoc
  | serialize => rfl
  | nop | reset | emit | bitcount | bitcounthi | readword | feed | finish | rdphase | rdperiod => rfl

/-- A command that some check stops is not RESET. -/
theorem ne_reset_of_illegalMode {i : Instr} {m : Mode} (h : legalMode i m = false) : i ≠ .reset := by
  rintro rfl
  cases h

theorem ne_reset_of_refuses {i : Instr} {s : State} (h : RefusesConfiguration i s) : i ≠ .reset := by
  rintro rfl
  exact h

end Sys2Proof.Machine

namespace Sys2Proof

open Sys2Proof.Machine Sys2Proof.Safety

/-- Settles O17: the mode is the first check, and nothing past it raises SequenceError. -/
theorem sequenceErrorExactlyOutsideLegalModes : Obligations.SequenceErrorExactlyOutsideLegalModes := by
  intro i s hf
  have hchecked := bodyOf_checked i s
  refine ⟨fun hm => exec_of_raised hf (ne_reset_of_illegalMode hm) (hchecked.of_illegalMode hm), ?_⟩
  intro hm he t hexec hk
  obtain ⟨u, hb, -⟩ := raised_of_exec_err hf he hexec hk
  rw [hb] at hchecked
  rw [hchecked.illegalMode_of_sequence] at hm
  cases hm

/-- Settles O18: the configuration is the second check, whose causes are the table's, and nothing else raises
ConfigurationError. -/
theorem configurationErrorCauses : Obligations.ConfigurationErrorCauses := by
  intro i s hf he hp hinv hm
  have hchecked := bodyOf_checked i s
  rw [← refusesConfiguration_iff hp hinv]
  refine ⟨fun hc => exec_of_raised hf (ne_reset_of_refuses hc) (hchecked.of_refuses hm hc), ?_⟩
  intro hc t hexec hk
  obtain ⟨u, hb, -⟩ := raised_of_exec_err hf he hexec hk
  rw [hb] at hchecked
  exact hc hchecked.refuses_of_configuration

/-- Settles O19: the overflow is SERIALIZE's last check, and nothing else raises CapacityError. -/
theorem capacityErrorExactlyOnOverflow : Obligations.CapacityErrorExactlyOnOverflow := by
  intro s hf
  have hraise : legalMode .serialize s.mode = true → s.rateValid = true → s.ovf = true →
      exec .serialize s = .next (takeError .capacity s) := fun hm hr ho =>
    exec_of_raised hf nofun
      ((bodyOf_checked .serialize s).of_overflow hm (by simp [RefusesConfiguration, hr]) ⟨rfl, ho⟩)
  refine ⟨hraise, fun i t he hexec => ⟨⟨fun hk => ?_, ?_⟩, fun hk => ?_⟩⟩
  · obtain ⟨u, hb, -⟩ := raised_of_exec_err hf he hexec hk
    obtain ⟨-, hm, hc, rfl, ho⟩ := (hb ▸ bodyOf_checked i s).overflow_of_capacity
    exact ⟨rfl, hm, Bool.eq_true_of_not_eq_false hc, ho⟩
  · rintro ⟨rfl, hm, hr, ho⟩
    rw [hraise hm hr ho] at hexec
    cases hexec
    rfl
  · obtain ⟨u, hb, rfl⟩ := raised_of_exec_err hf he hexec hk
    obtain ⟨rfl, -⟩ := (hb ▸ bodyOf_checked i s).overflow_of_capacity
    rfl

end Sys2Proof

namespace Sys2Proof

/-! A word as its opcode and ARG field, and the operand within ARG (R70, R73, R74). -/

theorem opc_append_arg (w : Word) : opc w ++ arg w = w :=
  (BitVec.extractLsb'_append_extractLsb'_eq_extractLsb' (x := w) (start₁ := 0) (len₁ := 24) rfl).trans
    BitVec.extractLsb'_eq_self

/-- A field of the first word that lies within ARG is a field of ARG. -/
theorem field_firstWord (i : Instr) {b n : Nat} (h : b + n ≤ 24) :
    (firstWord i).extractLsb' b n = (argOf i).extractLsb' b n := BitVec.extractLsb'_append_eq_of_add_le h

/-- R73, R74: where ARG is an operand of `n` bits, the low `n` bits of the word read it back and the
rest of ARG is 0. -/
theorem operand_firstWord {i : Instr} {n m : Nat} {v : BitVec n} (ha : argOf i = v.setWidth 24) (hn : n + m = 24) :
    (firstWord i).extractLsb' 0 n = v ∧ (firstWord i).extractLsb' n m = 0 := by
  rw [field_firstWord i hn.le, field_firstWord i (by omega), ha, BitVec.extractLsb'_setWidth_of_le (by omega),
    BitVec.extractLsb'_setWidth_of_le (by omega)]
  refine ⟨BitVec.extractLsb'_eq_self, ?_⟩
  apply BitVec.eq_of_getLsbD_eq
  intro k _
  simp

/-- R71, R72: the opcodes that are long are those of the commands with a literal. -/
theorem isLong_firstWord (i : Instr) : isLong (firstWord i) = (literalOf i).isSome := by
  rw [isLong, opc_firstWord]
  cases i <;> rfl

/-- Settles O1: a command whose ARG is fixed has a fixed first word; the three with an operand field of several bits are
read back from it. -/
theorem decodeOfEncodeIsIdentity : Obligations.DecodeOfEncodeIsIdentity := by
  intro i next
  refine ⟨?_, isLong_firstWord i⟩
  cases i with
  | setrate r =>
    obtain ⟨hv, hz⟩ := operand_firstWord (i := .setrate r) (m := 8) rfl rfl
    simp [decodeCommand, opc_firstWord, opcodeOf, ifZero, hv, hz]
  | select t =>
    obtain ⟨hv, hz⟩ := operand_firstWord (i := .select t) (m := 16) rfl rfl
    simp [decodeCommand, opc_firstWord, opcodeOf, ifZero, hv, hz]
  | feed d =>
    obtain ⟨hv, hz⟩ := operand_firstWord (i := .feed d) (m := 8) rfl rfl
    simp [decodeCommand, opc_firstWord, opcodeOf, ifZero, hv, hz]
  | emit v => cases v <;> rfl
  | create | readword | setidiv | setediv =>
    simp [decodeCommand, opc_firstWord, arg_firstWord, opcodeOf, argOf, literalOf, ifZero]
  | nop | reset | bitcount | bitcounthi | start | finish | rdphase | rdperiod | serialize => rfl

/-! What a decoded command says of the word it was read from (R78). -/

/-- `w`, with its literal exactly when it is long, is the encoding of the command that `d` answers. -/
def OnlyEncoding (w lit : Word) (d : Decoded) : Prop :=
  ∀ i, d = .instr i → firstWord i = w ∧ literalOf i = if isLong w then some lit else none

/-- One row of the opcode map: its command has the row's opcode, and ARG is the operand where the tested field is 0. -/
theorem OnlyEncoding.row {w lit : Word} {o : BitVec 8} {n : Nat} {mbz : BitVec n} {j : Instr} {d : Decoded}
    (ho : opcodeOf j = o) (hl : literalOf j = if isLongOpc o then some lit else none)
    (ha : mbz = 0 → argOf j = arg w) (hd : OnlyEncoding w lit d) :
    OnlyEncoding w lit (if opc w = o then ifZero mbz j else d) := by
  intro i h
  split at h
  · rename_i hopc
    obtain ⟨hz, rfl⟩ := (ifZero_eq_instr _ _ _).mp h
    rw [firstWord, ho, ← hopc, ha hz, opc_append_arg, isLong, hopc]
    exact ⟨rfl, hl⟩
  · exact hd i h

/-- R73, R74: ARG is its operand field where the field above is 0. -/
theorem setWidth_field_eq_arg {w : Word} {b n : Nat} (hwidth : b + n = 24) (hz : w.extractLsb' b n = 0) :
    (w.extractLsb' 0 b).setWidth 24 = arg w := by
  rw [extract_eq_zero] at hz
  have hmod : w.toNat % 2 ^ 24 = w.toNat % 2 ^ b := by
    rw [← hwidth, pow_add, Nat.mod_mul, hz, Nat.mul_zero, Nat.add_zero]
  apply BitVec.eq_of_toNat_eq
  rw [toNat_arg, BitVec.toNat_setWidth_of_le (by omega), hmod]
  simp

/-- The decoder reads every command from its own encoding, row by row of the map. -/
theorem decodeCommand_onlyEncoding (w lit : Word) : OnlyEncoding w lit (decodeCommand w lit) := by
  have hbit : BitVec.ofBool (w.getLsbD 0) = w.extractLsb' 0 1 := by
    apply BitVec.eq_of_getLsbD_eq
    intro k hk
    obtain rfl : k = 0 := by omega
    simp
  have hemit (hz : w.extractLsb' 1 23 = 0) : argOf (.emit (w.getLsbD 0)) = arg w := by
    rw [← setWidth_field_eq_arg rfl hz, ← hbit, argOf]
  unfold decodeCommand
  refine .row rfl rfl Eq.symm ?_
  refine .row rfl rfl Eq.symm ?_
  refine .row rfl rfl Eq.symm ?_
  refine .row rfl rfl hemit ?_
  iterate 3 refine .row rfl rfl Eq.symm ?_
  refine .row rfl rfl (setWidth_field_eq_arg rfl) ?_
  iterate 2 refine .row rfl rfl Eq.symm ?_
  refine .row rfl rfl (setWidth_field_eq_arg rfl) ?_
  refine .row rfl rfl Eq.symm ?_
  refine .row rfl rfl (setWidth_field_eq_arg rfl) ?_
  iterate 4 refine .row rfl rfl Eq.symm ?_
  exact nofun

/-- Settles O2: every row of the map reads its command from that command's own word and literal. -/
theorem encodeOfDecodeIsIdentity : Obligations.EncodeOfDecodeIsIdentity := by
  intro w lit i h
  obtain ⟨hw, hl⟩ := decodeCommand_onlyEncoding w lit i h
  refine ⟨hw, ?_⟩
  split at hl
  · rwa [if_pos ‹_›]
  · rwa [if_neg ‹_›]

/-! The byte transport (R55). -/

/-- R55: four bytes of a word, and the rest of the stream. -/
theorem decodeBytes_of_short {w : Word} (hl : isLong w = false) (rest : List Byte) :
    decodeBytes (bytesOfWord w ++ rest) = .command (decodeCommand w 0) rest := by
  simp only [bytesOfWord, List.cons_append, List.nil_append, decodeBytes, wordOfBytes_bytes, hl, Bool.false_eq_true,
    if_false]

theorem decodeBytes_of_long {w : Word} (hl : isLong w = true) (lit : Word) (rest : List Byte) :
    decodeBytes (bytesOfWord w ++ (bytesOfWord lit ++ rest)) = .command (decodeCommand w lit) rest := by
  simp only [bytesOfWord, List.cons_append, List.nil_append, decodeBytes, wordOfBytes_bytes, hl, if_true]

/-- Settles O3: the first word says whether a literal follows, and the words read back as the command. -/
theorem byteStreamReadsOneCommand : Obligations.ByteStreamReadsOneCommand := by
  intro i rest
  have hlong := isLong_firstWord i
  have ⟨hdecode, _⟩ := decodeOfEncodeIsIdentity i 0
  cases hlit : literalOf i with
  | none =>
    rw [hlit] at hlong hdecode
    have hbytes : encodeBytes i = bytesOfWord (firstWord i) := by simp [encodeBytes, encode, hlit]
    rw [hbytes, decodeBytes_of_short hlong]
    exact congrArg (ByteDecoded.command · rest) hdecode
  | some lit =>
    rw [hlit] at hlong hdecode
    have hbytes : encodeBytes i = bytesOfWord (firstWord i) ++ bytesOfWord lit := by simp [encodeBytes, encode, hlit]
    rw [hbytes, List.append_assoc, decodeBytes_of_long hlong]
    exact congrArg (ByteDecoded.command · rest) hdecode

end Sys2Proof

namespace Sys2Proof.Machine

open Sys2Proof Sys2Proof.Safety

/-! The words that are no command, by their two reasons (R74, R76). -/

theorem row_eq_unassigned {c : Prop} [Decidable c] {n : Nat} {mbz : BitVec n} {i : Instr} {d : Decoded} :
    (if c then ifZero mbz i else d) = .unassignedOpcode ↔ ¬c ∧ d = .unassignedOpcode := by
  split
  · simp [ifZero_ne_unassigned, *]
  · simp [*]

/-- R76: a word falls through every row of the map exactly when its opcode is not in it. -/
theorem decodeCommand_eq_unassigned_iff (w lit : Word) :
    decodeCommand w lit = .unassignedOpcode ↔ zext w / 2 ^ 24 ∉ assignedOpcodes := by
  simp only [decodeCommand, row_eq_unassigned, opc_eq_iff]
  simp [assignedOpcodes, zext]

/-- A decoding of `w` that is a must-be-zero violation only where an assigned opcode has a must-be-zero bit set. -/
def OnlyViolation (w : Word) (d : Decoded) : Prop :=
  d = .mustBeZero →
    zext w / 2 ^ 24 ∈ assignedOpcodes ∧ zext w % 2 ^ 24 / 2 ^ operandBits (zext w / 2 ^ 24) ≠ 0

/-- One row of the opcode map: a field that is not 0 holds a must-be-zero bit that is set. -/
theorem OnlyViolation.row {w : Word} {o : BitVec 8} {b n : Nat} {j : Instr} {d : Decoded}
    (hfield : o.toNat ∈ assignedOpcodes ∧ operandBits o.toNat = b ∧ b + n = 24) (hd : OnlyViolation w d) :
    OnlyViolation w (if opc w = o then ifZero (w.extractLsb' b n) j else d) := by
  intro h
  split at h
  · rename_i ho
    obtain ⟨hmem, hbits, hwidth⟩ := hfield
    rw [opc_eq_iff] at ho
    rw [ifZero_eq_mustBeZero, Ne, extract_eq_zero] at h
    rw [zext, ho, hbits, ← hwidth, pow_add, Nat.mod_mul_right_div_self]
    exact ⟨hmem, h⟩
  · exact hd h

theorem decodeCommand_onlyViolation (w lit : Word) : OnlyViolation w (decodeCommand w lit) := by
  unfold decodeCommand
  iterate 17 refine .row (by decide) ?_
  exact nofun

end Sys2Proof.Machine

namespace Sys2Proof

open Sys2Proof.Machine

/-- Settles O6: a word is a command, has an unassigned opcode, or sets a must-be-zero bit, and each answer of the
decoder says which. -/
theorem illegalEncodings : Obligations.IllegalEncodings := by
  intro w lit
  refine ⟨decodeCommand_eq_unassigned_iff w lit, decodeCommand_onlyViolation w lit, ?_⟩
  rintro ⟨hmem, hbit⟩
  cases hd : decodeCommand w lit with
  | instr i => exact absurd (decodeCommand_onlyLegal w lit i hd).2 hbit
  | unassignedOpcode => exact absurd hmem ((decodeCommand_eq_unassigned_iff w lit).mp hd)
  | mustBeZero => rfl

/-- Settles O5: the decoder evaluated on each of the words. -/
theorem wordsOfTheOpcodeMap : Obligations.WordsOfTheOpcodeMap := by
  unfold Obligations.WordsOfTheOpcodeMap
  decide

end Sys2Proof

namespace Sys2Proof.Machine

open Sys2Proof Sys2Proof.Safety

/-! What no pseudocode touches: the parameters, the ports, FAULT, ERR and RESULT. -/

/-- `u` has the parameters, the ports and the error registers of `s`. -/
structure Untouched (s u : State) : Prop where
  params : u.params = s.params
  hostIn : u.hostIn = s.hostIn
  responses : u.responses = s.responses
  cp : u.cp = s.cp
  pend : u.pend = s.pend
  fault : u.fault = s.fault
  err : u.err = s.err
  result : u.result = s.result

theorem Effect.untouched {s u : State} {i : Instr} (h : Effect s i u) : Untouched s u := by
  cases h with
  | feedWindow | feedLoop => rw [pushBits_eq]; constructor <;> rfl
  | serialize => rw [sinkStores_eq]; constructor <;> rfl
  | _ => constructor <;> rfl

theorem Partial.untouched {s u : State} {i : Instr} {k : ErrKind} (h : Partial s i k u) : Untouched s u := by
  cases h with
  | unchanged => constructor <;> rfl
  | feed => rw [pushBits_eq]; constructor <;> rfl
  | serialize => rw [sinkStores_eq]; constructor <;> rfl

/-! Invariants of every step, from what its parts keep. -/

/-- `P` is kept by every part of a step: the port, a reset, a response, an error, and what pseudocode completes in or
leaves when it raises. -/
structure StepClosed (P : State → Prop) : Prop where
  port : ∀ s rest pend cp, P s → (∀ w ∈ pend, isLong w = true) →
    P { s with hostIn := rest, pend := pend, cp := cp }
  reset : ∀ s, P s → P (resetBlock s)
  respond : ∀ s r refused, P s → (s.fault = true → r = 0) → P (respond s r refused)
  error : ∀ s k, P s → P (takeError k s)
  effect : ∀ s i u, P s → Effect s i u → P u
  raised : ∀ s i k u, P s → Partial s i k u → P u

section StepClosed

variable {P : State → Prop} (hP : StepClosed P)
include hP

theorem StepClosed.exec {i : Instr} {s t : State} (hs : P s) (h : exec i s = .next t) : P t := by
  obtain ⟨-, rfl⟩ | ⟨-, -, rfl⟩ | ⟨-, hf, r, u, he, rfl⟩ | ⟨-, -, k, u, hp, rfl⟩ := exec_next h
  · exact hP.respond _ _ _ (hP.reset s hs) fun _ => rfl
  · exact hP.respond _ _ _ hs fun _ => rfl
  · have hfault : u.fault = false := he.untouched.fault.trans hf
    exact hP.respond _ _ _ (hP.effect s i u hs he) (by simp [hfault])
  · exact hP.error _ _ (hP.raised s i k u hs hp)

theorem StepClosed.illegalCommand {s t : State} (hs : P s) (h : illegalCommand s = .next t) : P t := by
  obtain ⟨-, rfl⟩ | ⟨-, rfl⟩ := illegalCommand_next h
  · exact hP.respond _ _ _ hs fun _ => rfl
  · exact hP.error _ _ hs

theorem StepClosed.step {s t : State} (hs : P s) (h : step s = .next t) : P t := by
  obtain rfl | ⟨rest, rfl⟩ | ⟨w, rest, hl, rfl⟩ | ⟨n, rest, h⟩ := step_next h
  · exact hs
  · exact hP.port _ rest none 0 (hP.reset s hs) nofun
  · exact hP.port s rest (some w) _ hs (by simpa using hl)
  · have htaken : P (takeWords n rest s) := hP.port s rest none _ hs nofun
    obtain ⟨i, h⟩ | h := h
    · exact hP.exec htaken h
    · exact hP.illegalCommand htaken h

end StepClosed

/-! The canonical form of the memories (log entry 8). -/

theorem memory_wf_pushBits {s : State} (h : Memory.wf s) (bits : List Bool) : Memory.wf (pushBits s bits) := by
  induction bits generalizing s with
  | nil => exact h
  | cons v rest ih => exact ih (s := pushBit s v) ⟨writeBit_wf h.1 _ v, h.2⟩

theorem memory_wf_sinkStores {s : State} (h : Memory.wf s) (ws : List (Nat × Byte)) :
    Memory.wf (sinkStores s ws) := by
  induction ws generalizing s with
  | nil => exact h
  | cons w rest ih => exact ih (s := sinkStore s w.1 w.2) ⟨h.1, insertCell_wf h.2 w.1 w.2⟩

theorem memory_wf_cleared {s : State} (h : Memory.wf s) : Memory.wf { s with buf := [] } := ⟨bitMem_nil_wf, h.2⟩

theorem memory_wf_stepClosed : StepClosed Memory.wf where
  port _ _ _ _ h _ := h
  reset _ h := memory_wf_cleared h
  respond _ _ _ h _ := h
  error _ _ h := h
  effect s i u h he := by
    cases he with
    | create | start => exact memory_wf_cleared h
    | emit v => exact memory_wf_pushBits h [v]
    | feedWindow dt bits | feedLoop dt bits => exact memory_wf_pushBits h bits
    | serialize => exact memory_wf_sinkStores (s := { s with sinkAnswers := s.sinkAnswers.drop _ }) h _
    | _ => exact h
  raised s i k u h hp := by
    cases hp with
    | unchanged => exact h
    | feed dt bits => exact memory_wf_pushBits h bits
    | serialize front => exact memory_wf_sinkStores (s := { s with sinkAnswers := s.sinkAnswers.drop _ }) h front

/-! Overflow (R109). -/

theorem overflowInv_pushBit {s : State} (h : OverflowInv s) (hb : zext s.bcProd + 1 < 2 ^ 64) (v : Bool) :
    OverflowInv (pushBit s v) := by
  have hiff : (zext s.cap < zext s.bcProd ∨ zext s.cap ≤ zext s.bcProd) ↔ zext s.cap < zext s.bcProd + 1 := by omega
  rw [OverflowInv, zext_pushBit_bcProd hb, pushBit_ovf, h, ← Bool.decide_or, pushBit_cap, decide_eq_decide]
  exact hiff

theorem overflowInv_pushBits {s : State} {bits : List Bool} (h : OverflowInv s)
    (hb : zext s.bcProd + bits.length < 2 ^ 64) : OverflowInv (pushBits s bits) := by
  induction bits generalizing s with
  | nil => exact h
  | cons v rest ih =>
    rw [List.length_cons] at hb
    refine ih (overflowInv_pushBit h (by omega) v) ?_
    rw [zext_pushBit_bcProd (by omega)]
    omega

theorem overflowInv_cleared {s : State} (hb : s.bcProd = 0) (ho : s.ovf = false) : OverflowInv s := by
  simp [OverflowInv, hb, ho, zext]

theorem overflowInv_stepClosed : StepClosed OverflowInv where
  port _ _ _ _ h _ := h
  reset _ _ := overflowInv_cleared rfl rfl
  respond _ _ _ h _ := h
  error _ _ h := h
  effect s i u h he := by
    cases he with
    | create | start => exact overflowInv_cleared rfl rfl
    | emit v _ hb => exact overflowInv_pushBit h hb v
    | feedWindow dt bits _ _ hb | feedLoop dt bits _ _ _ _ hb => exact overflowInv_pushBits h hb.counted
    | serialize => rw [sinkStores_eq]; exact h
    | _ => exact h
  raised s i k u h hp := by
    cases hp with
    | unchanged => exact h
    | feed dt bits _ hb => exact overflowInv_pushBits h hb.counted
    | serialize => rw [sinkStores_eq]; exact h

end Sys2Proof.Machine

namespace Sys2Proof

open Sys2Proof.Machine

/-- Settles O54: clearing empties the counter, and an emission past CAP is the one that sets OVF. -/
theorem stepKeepsOverflowExact : Obligations.StepKeepsOverflowExact :=
  fun _ _ hs h => overflowInv_stepClosed.step hs h

/-- Settles O55: every write of either memory keeps its form. -/
theorem stepKeepsMemoryCanonical : Obligations.StepKeepsMemoryCanonical :=
  fun _ _ hs h => memory_wf_stepClosed.step hs h

end Sys2Proof

namespace Sys2Proof.Machine

open Sys2Proof Sys2Proof.Safety

/-! The range of PHASE and PE (R147). -/

theorem fitsSigned_iff (w : Nat) (v : Int) : fitsSigned w v = true ↔ -2 ^ (w - 1) ≤ v ∧ v ≤ 2 ^ (w - 1) - 1 := by
  simp [fitsSigned]

/-- R30, R140: a period fits a loop register of any legal width. -/
theorem fitsSigned_of_le_36000 {w : Nat} {v : Int} (hw : 32 ≤ w) (h0 : 0 ≤ v) (hv : v ≤ 36000) :
    fitsSigned w v = true := by
  have hpow : (2 : Int) ^ 31 ≤ 2 ^ (w - 1) := pow_le_pow_right₀ (by decide) (by omega)
  rw [fitsSigned_iff]
  omega

/-! What legal parameters promise (R6, R149). -/

theorem legal_wAcc {p : Params} (h : p.legal = true) : 32 ≤ p.wAcc := by
  simp only [Params.legal, Bool.and_eq_true, decide_eq_true_eq] at h
  obtain ⟨⟨⟨⟨-, hw⟩, -⟩, -⟩, -⟩ := h
  exact hw

theorem legal_preset {p : Params} (h : p.legal = true) {q : Preset} (hq : q ∈ p.presetTable) :
    q.integralDiv ≠ 0 ∧ q.errorDiv ≠ 0 := by
  simp only [Params.legal, Bool.and_eq_true, List.all_eq_true] at h
  obtain ⟨-, hall⟩ := h
  simpa [Preset.legal] using hall q hq

theorem mem_of_presetOfTag {p : Params} {tag : Byte} {q : Preset} (h : presetOfTag p tag = some q) :
    q ∈ p.presetTable := by
  unfold presetOfTag at h
  split at h
  · exact List.mem_of_getElem? h
  · cases h

/-- R33, R140: the divisors a loop strategy latches are not 0. -/
theorem latchedDivisors_ne_zero {s : State} {li le : Word} (hp : s.params.legal = true) (hc : ConfigInv s)
    (hs : s.strat ≠ tagFw) (h : latchedDivisors s = some (li, le)) : li ≠ 0 ∧ le ≠ 0 := by
  obtain ⟨-, hi, he, -⟩ := hc
  rw [latchedDivisors, if_neg hs] at h
  split at h
  · split at h
    · rename_i hv
      rw [Bool.and_eq_true] at hv
      cases h
      exact ⟨hi hv.1, he hv.2⟩
    · cases h
  · rw [Option.map_eq_some_iff] at h
    obtain ⟨q, hq, hdiv⟩ := h
    cases hdiv
    exact legal_preset hp (mem_of_presetOfTag hq)

/-! The sink and its log (R41). -/

theorem lastWritten_append (log : List SinkRecord) (r : SinkRecord) (a : Nat) :
    lastWritten (log ++ [r]) a = if r.acked = true ∧ r.addr = a then some r.byte else lastWritten log a := by
  simp [lastWritten]

theorem sinkInv_sinkStore {s : State} {a : Nat} (h : SinkInv s) (ha : a < s.params.sinkSize) (v : Byte) :
    SinkInv (sinkStore s a v) := by
  obtain ⟨hlog, hsize⟩ := h
  refine ⟨fun b => ?_, fun b hb => ?_⟩
  · rw [sinkStore_sink, sinkStore_sinkLog, readSink_insertCell, lastWritten_append, hlog]
    simp [eq_comm]
  · rw [sinkStore_sink, readSink_insertCell] at hb
    split at hb
    · subst b
      exact ha
    · exact hsize b hb

theorem sinkInv_sinkStores {s : State} {ws : List (Nat × Byte)} (h : SinkInv s)
    (hws : ∀ w ∈ ws, w.1 < s.params.sinkSize) : SinkInv (sinkStores s ws) := by
  induction ws generalizing s with
  | nil => exact h
  | cons w rest ih =>
    obtain ⟨hw, hrest⟩ := List.forall_mem_cons.mp hws
    exact ih (sinkInv_sinkStore h hw w.2) hrest

theorem sinkInv_sinkReject {s : State} (h : SinkInv s) (a : Nat) (v : Byte) : SinkInv (sinkReject s a v) := by
  refine ⟨fun b => ?_, h.2⟩
  rw [sinkReject_sinkLog, lastWritten_append]
  exact h.1 b

/-! The set bits of the buffer (R50). -/

theorem bufferInv_pushBit {s : State} (h : BufferInv s) (hw : BitMem.wf s.buf) (hc : s.cap ≠ 0)
    (hb : zext s.bcProd + 1 < 2 ^ 64) (v : Bool) : BufferInv (pushBit s v) := by
  intro a ha
  rw [pushBit_buf, readBit_writeBit hw] at ha
  rw [pushBit_cap, zext_pushBit_bcProd hb]
  split at ha
  · have hmask := maskAddr_lt hc (zext s.bcProd)
    have hle := maskAddr_le s.cap (zext s.bcProd)
    omega
  · obtain ⟨hcap, hcount⟩ := h a ha
    omega

/-- R26: outside IDLE there is a buffer. -/
theorem cap_ne_zero {s : State} (h : Inv s) (hm : s.mode ≠ .idle) : s.cap ≠ 0 := mt h.capacity.1.mpr hm

theorem inv_pushBit {s : State} (h : Inv s) (hm : s.mode = .ready ∨ s.mode = .decoding)
    (hb : zext s.bcProd + 1 < 2 ^ 64) (v : Bool) : Inv (pushBit s v) := by
  have hidle : s.mode ≠ .idle := by rintro he; simp [he] at hm
  have hdone : s.mode ≠ .done := by rintro he; simp [he] at hm
  obtain ⟨hbuf, -⟩ := h.memory
  obtain ⟨-, hdecoding, hdecoded, -⟩ := h.lifecycle
  exact { h with
    memory := memory_wf_pushBits h.memory [v]
    overflow := overflowInv_pushBit h.overflow hb v
    lifecycle := ⟨fun hi => absurd hi hidle, hdecoding, hdecoded, fun hd => absurd hd hdone⟩
    buffer := bufferInv_pushBit h.buffer hbuf (cap_ne_zero h hidle) hb v }

theorem inv_pushBits {s : State} {bits : List Bool} (h : Inv s) (hm : s.mode = .ready ∨ s.mode = .decoding)
    (hb : zext s.bcProd + bits.length < 2 ^ 64) : Inv (pushBits s bits) := by
  induction bits generalizing s with
  | nil => exact h
  | cons v rest ih =>
    rw [List.length_cons] at hb
    refine ih (inv_pushBit h hm (by omega) v) hm ?_
    rw [zext_pushBit_bcProd (by omega)]
    omega

/-! What each command that changes state keeps. -/

theorem bufferInv_cleared {s : State} (hb : s.buf = []) : BufferInv s := by
  intro a ha
  rw [hb] at ha
  cases ha

theorem inv_create {s : State} (h : Inv s) {c : Word} (hp : isPowerOfTwo c = true)
    (hc : zext c ≤ s.params.maxCapBits) : Inv (clearBuffer { s with cap := c, mode := .ready }) := by
  have h0 : c ≠ 0 := by
    rintro rfl
    exact absurd hp (by decide)
  exact { h with
    memory := memory_wf_cleared h.memory
    capacity := ⟨⟨nofun, fun h => absurd h h0⟩, fun _ => ⟨hp, hc⟩⟩
    overflow := overflowInv_cleared rfl rfl
    lifecycle := ⟨nofun, nofun, nofun, nofun⟩
    divisor := nofun
    fixedWindow := nofun
    buffer := bufferInv_cleared rfl }

/-- Outside DECODING the configuration registers may change, each keeping its promise and no VALID bit lost. -/
theorem inv_configure {s u : State} (h : Inv s) (hm : s.mode ≠ .decoding)
    (hsame : u = { s with
      rate := u.rate, period := u.period, rateValid := u.rateValid, idiv := u.idiv, idivValid := u.idivValid
      ediv := u.ediv, edivValid := u.edivValid, strat := u.strat, stratValid := u.stratValid })
    (hc : ConfigInv u) (hr : s.rateValid = true → u.rateValid = true) : Inv u := by
  rw [hsame]
  obtain ⟨hidle, -, hdecoded, hdone⟩ := h.lifecycle
  exact { h with
    config := by rwa [hsame] at hc
    lifecycle := ⟨hidle, fun hd => absurd hd hm, fun hd => hr (hdecoded hd),
      fun hd => ⟨hr (hdone hd).1, (hdone hd).2⟩⟩
    divisor := fun hd => absurd hd hm
    fixedWindow := fun hd => absurd hd hm }

theorem configInv_setrate {s : State} (h : ConfigInv s) {r : Half} (h0 : r ≠ 0) (hp : periodOfRate r ≠ 0) :
    ConfigInv { s with rate := r, period := BitVec.ofNat 32 (periodOfRate r), rateValid := true } := by
  have hperiod : zext (BitVec.ofNat 32 (periodOfRate r)) = periodOfRate r := zext_ofNat_periodOfRate r
  have hle : periodOfRate r ≤ 36000 := Nat.div_le_self ..
  exact ⟨fun _ => ⟨h0, hperiod, by rw [hperiod]; omega, by rwa [hperiod]⟩, h.2⟩

theorem inv_start {s : State} (h : Inv s) {li le : Word} (hi : s.mode ≠ .idle) (hr : s.rateValid = true)
    (hs : s.stratValid = true) (hl : latchedDivisors s = some (li, le)) :
    Inv (clearBuffer { s with lidiv := li, lediv := le, phase := 0, pe := zext s.period, mode := .decoding }) := by
  have hcap : s.cap ≠ 0 := cap_ne_zero h hi
  have hw := legal_wAcc h.legal
  have hphase : fitsSigned s.params.wAcc 0 = true := fitsSigned_of_le_36000 hw le_rfl (by decide)
  have hpe : fitsSigned s.params.wAcc (zext s.period) = true := by
    obtain ⟨-, -, -, hperiod⟩ := h.config.1 hr
    exact fitsSigned_of_le_36000 hw (by omega) (by omega)
  exact { h with
    memory := memory_wf_cleared h.memory
    capacity := ⟨⟨nofun, fun h0 => absurd h0 hcap⟩, h.capacity.2⟩
    overflow := overflowInv_cleared rfl rfl
    lifecycle := ⟨nofun, fun _ => ⟨hr, hs⟩, nofun, nofun⟩
    divisor := fun _ hfw => latchedDivisors_ne_zero h.legal h.config hfw hl
    range := ⟨hphase, hpe⟩
    fixedWindow := fun _ _ => ⟨rfl, rfl⟩
    buffer := bufferInv_cleared rfl }

theorem inv_commit {s : State} (h : Inv s) {np npe : Int} (hs : s.strat ≠ tagFw)
    (hp : fitsSigned s.params.wAcc np = true) (he : fitsSigned s.params.wAcc npe = true) :
    Inv { s with phase := np, pe := npe } :=
  { h with
    range := ⟨hp, he⟩
    fixedWindow := fun _ hfw => absurd hfw hs }

theorem inv_finish {s : State} (h : Inv s) (hm : s.mode = .decoding) : Inv { s with mode := .decoded } := by
  have hcap : s.cap ≠ 0 := cap_ne_zero h (by simp [hm])
  obtain ⟨-, hdecoding, -, -⟩ := h.lifecycle
  exact { h with
    capacity := ⟨⟨nofun, fun h0 => absurd h0 hcap⟩, h.capacity.2⟩
    lifecycle := ⟨nofun, nofun, fun _ => (hdecoding hm).1, nofun⟩
    divisor := nofun
    fixedWindow := nofun }

theorem inv_sinkStores {s : State} (h : Inv s) {ws : List (Nat × Byte)} (hw : ∀ w ∈ ws, w.1 < s.params.sinkSize)
    (n : Nat) : Inv (sinkStores { s with sinkAnswers := s.sinkAnswers.drop n } ws) := by
  have hmem := memory_wf_sinkStores (s := { s with sinkAnswers := s.sinkAnswers.drop n }) h.memory ws
  have hsink : SinkInv (sinkStores { s with sinkAnswers := s.sinkAnswers.drop n } ws) := sinkInv_sinkStores h.sink hw
  rw [sinkStores_eq] at hmem hsink ⊢
  exact { h with memory := hmem, sink := hsink }

theorem inv_done {s : State} (h : Inv s) (hm : s.mode = .ready ∨ s.mode = .decoded) (hr : s.rateValid = true)
    (ho : s.ovf = false) : Inv { s with mode := .done } := by
  have hcap : s.cap ≠ 0 := cap_ne_zero h (by rintro he; simp [he] at hm)
  exact { h with
    capacity := ⟨⟨nofun, fun h0 => absurd h0 hcap⟩, h.capacity.2⟩
    lifecycle := ⟨nofun, nofun, nofun, fun _ => ⟨hr, ho⟩⟩
    divisor := nofun
    fixedWindow := nofun }

theorem Effect.inv {s u : State} {i : Instr} (h : Inv s) (he : Effect s i u) : Inv u := by
  obtain ⟨hrate, hidiv, hediv, hstrat⟩ := h.config
  cases he with
  | nop | bitcount | bitcounthi | readword | rdphase | rdperiod => exact h
  | create c hm hp hc => exact inv_create h hp hc
  | emit v hm hb => exact inv_pushBit h (.inl hm) hb v
  | setrate r hm h0 hp => exact inv_configure h hm rfl (configInv_setrate h.config h0 hp) fun _ => rfl
  | setidiv d hm h0 => exact inv_configure h hm rfl ⟨hrate, fun _ => h0, hediv, hstrat⟩ id
  | setediv d hm h0 => exact inv_configure h hm rfl ⟨hrate, hidiv, fun _ => h0, hstrat⟩ id
  | select t hm ht => exact inv_configure h hm rfl ⟨hrate, hidiv, hediv, fun _ => ht⟩ id
  | start li le hi hd hr hs hl => exact inv_start h hi hr hs hl
  | feedWindow dt bits hm hs hb => exact inv_pushBits h (.inr hm) hb.counted
  | feedLoop dt bits np npe hm hs hb hp he =>
    have hemitted := inv_pushBits h (.inr hm) hb.counted
    rw [pushBits_eq] at hemitted ⊢
    exact inv_commit hemitted hs hp he
  | finish hm => exact inv_finish h hm
  | serialize hm hr ho hw =>
    have hstored := inv_sinkStores h hw (imageWrites s).length
    rw [sinkStores_eq] at hstored ⊢
    exact inv_done hstored hm hr ho

theorem Partial.inv {s u : State} {i : Instr} {k : ErrKind} (h : Inv s) (hp : Partial s i k u) : Inv u := by
  cases hp with
  | unchanged => exact h
  | feed dt bits hm hb => exact inv_pushBits h (.inr hm) hb.counted
  | serialize front a v back m hm hl hw hf =>
    have hstored := inv_sinkStores h hf m
    exact { hstored with sink := sinkInv_sinkReject hstored.sink a v }

/-! Reset, responses and errors. -/

theorem inv_resetBlock {s : State} (hp : s.params.legal = true) (hm : SinkMem.wf s.sink) (hs : SinkInv s) :
    Inv (resetBlock s) where
  legal := hp
  memory := ⟨bitMem_nil_wf, hm⟩
  capacity := ⟨by simp, by simp⟩
  overflow := overflowInv_cleared rfl rfl
  config := ⟨nofun, nofun, nofun, nofun⟩
  fault := ⟨by simp, nofun⟩
  lifecycle := ⟨fun _ => ⟨rfl, rfl⟩, nofun, nofun, nofun⟩
  divisor := nofun
  range :=
    have h0 := fitsSigned_of_le_36000 (legal_wAcc hp) (v := 0) (by decide) (by decide)
    ⟨h0, h0⟩
  fixedWindow := nofun
  pending := nofun
  buffer := bufferInv_cleared rfl
  sink := hs

theorem inv_stepClosed : StepClosed Inv where
  port s rest pend cp h hp := { h with pending := hp }
  reset s h := inv_resetBlock h.legal h.memory.2 h.sink
  respond s r refused h hr := { h with fault := ⟨h.fault.1, hr⟩ }
  error s k h := { h with fault := ⟨by simp, fun _ => rfl⟩ }
  effect s i u h he := he.inv h
  raised s i k u h hp := hp.inv h

end Sys2Proof.Machine

namespace Sys2Proof

open Sys2Proof.Machine

/-- Settles O56: each effect of a command, and each state an error leaves, keeps the invariants together. -/
theorem stepKeepsInvariants : Obligations.StepKeepsInvariants :=
  fun _ _ hs h => inv_stepClosed.step hs h

/-- Settles O57: the reset state is a reset block over the default parameters and an unwritten sink. -/
theorem resetMeetsInvariants : Obligations.ResetMeetsInvariants :=
  inv_resetBlock (s := State.reset) (by decide) List.Pairwise.nil ⟨fun _ => rfl, fun _ h => absurd rfl h⟩

end Sys2Proof

namespace Sys2Proof.Machine

open Sys2Proof Sys2Proof.Safety

/-! The STATUS word (R38). -/

theorem modeCode_statusWord (s : State) (refused : Bool) :
    (statusWord s refused).extractLsb' 0 3 = modeCode s.mode := BitVec.extractLsb'_append_eq_right

theorem errCode_statusWord (s : State) (refused : Bool) : (statusWord s refused).extractLsb' 4 4 = errCode s.err := by
  rw [statusWord]
  iterate 2 rw [BitVec.extractLsb'_append_eq_of_le (by decide)]
  exact BitVec.extractLsb'_append_eq_right

/-- The bits above REFUSED are 0. -/
theorem statusWord_high (s : State) (refused : Bool) : (statusWord s refused).extractLsb' 14 18 = 0 := by
  rw [statusWord]
  iterate 9 rw [BitVec.extractLsb'_append_eq_of_le (by decide)]
  rfl

theorem statusWord_flags (s : State) (refused : Bool) :
    (statusWord s refused).getLsbD 3 = s.fault ∧ (statusWord s refused).getLsbD 8 = s.ovf ∧
      (statusWord s refused).getLsbD 9 = s.rateValid ∧ (statusWord s refused).getLsbD 10 = s.stratValid ∧
        (statusWord s refused).getLsbD 11 = s.idivValid ∧ (statusWord s refused).getLsbD 12 = s.edivValid ∧
          (statusWord s refused).getLsbD 13 = refused := by
  refine ⟨?_, ?_, ?_, ?_, ?_, ?_, ?_⟩ <;>
    simp only [statusWord, BitVec.getLsbD_append, Nat.reduceLT, Nat.reduceSub, if_true, if_false,
      BitVec.getLsbD_ofBool, decide_true, Bool.true_and]

theorem append_eq_or {n m : Nat} {x y z : BitVec n} (w : BitVec m) (h : x = y ||| z) :
    x ++ w = (y ++ w) ||| (z ++ 0#m) := by
  rw [BitVec.or_append, BitVec.or_zero, h]

/-- R38: REFUSED is bit 13 of STATUS, and no other bit depends on it. -/
theorem statusWord_true (s : State) : statusWord s true = statusWord s false ||| 0x2000 := by
  have hbit : (0x2000 : Word) = 0#18 ++ 1#1 ++ 0#1 ++ 0#1 ++ 0#1 ++ 0#1 ++ 0#1 ++ 0#4 ++ 0#1 ++ 0#3 := rfl
  rw [hbit]
  iterate 8 refine append_eq_or _ ?_
  rfl

end Sys2Proof.Machine

namespace Sys2Proof

open Sys2Proof.Machine

/-- Settles O13: each field of STATUS lies at its own place in the word, and each code is evaluated. -/
theorem statusWordLayout : Obligations.StatusWordLayout := by
  intro s refused
  obtain ⟨hfault, hovf, hrate, hstrat, hidiv, hediv, hrefused⟩ := statusWord_flags s refused
  refine ⟨?_, hfault, ?_, hovf, hrate, hstrat, hidiv, hediv, hrefused, statusWord_high s refused⟩
  · rw [modeCode_statusWord]
    cases s.mode <;> rfl
  · rw [errCode_statusWord]
    rcases s.err with _ | k
    · rfl
    · cases k <;> rfl

/-- Settles O14: error entry by definition, and the code of each kind. -/
theorem errorEntry : Obligations.ErrorEntry := fun _ _ => ⟨rfl, rfl⟩

end Sys2Proof

namespace Sys2Proof.Machine

open Sys2Proof Sys2Proof.Safety

/-! The fetch of a pulse, and of a first word alone (R23, R240). -/

theorem fetch_of_pulse {s : State} {rest : List HostInput} (hh : s.hostIn = .resetPulse :: rest) :
    fetch s = .noCommand (hardwareReset rest s) := by
  simp [fetch, hh]

theorem fetch_of_first {s : State} {w : Word} (hp : s.pend = none) (hl : isLong w = true) (hh : s.hostIn = [.word w]) :
    fetch s = .noCommand (holdFirst w [] s) := by
  simp [fetch, hh, hp, hl]

/-- Without a pulse at the port a fetch waits, holds a word, or takes a command. -/
theorem fetch_of_not_pulse {s : State} (h : ¬∃ rest, s.hostIn = .resetPulse :: rest) :
    fetch s = .noCommand s ∨ (∃ w rest, fetch s = .noCommand (holdFirst w rest s)) ∨
      ∃ d n rest, fetch s = .command d (takeWords n rest s) := by
  unfold fetch
  split
  · exact .inl rfl
  · exact absurd ⟨_, ‹_›⟩ h
  · split
    · exact .inr (.inr ⟨_, _, _, rfl⟩)
    · split
      · split
        · exact .inr (.inr ⟨_, _, _, rfl⟩)
        · exact .inr (.inl ⟨_, _, rfl⟩)
        · exact .inr (.inl ⟨_, _, rfl⟩)
      · exact .inr (.inr ⟨_, _, _, rfl⟩)

/-! A step, by what it fetches. -/

theorem step_of_noCommand {s t : State} (h : fetch s = .noCommand t) : step s = .next t := by
  rw [step, h]

theorem step_congr {s t : State} (h : fetch s = fetch t) : step s = step t := by
  rw [step, step, h]

theorem step_of_instr {s t : State} {i : Instr} {d : Decoded} (h : fetch s = .command d t) (hd : d = .instr i) :
    step s = exec i t := by
  rw [step, h, hd]

/-- An encoding that is no command is refused or raises (R215, R218). -/
theorem step_of_not_instr {s t : State} {d : Decoded} (h : fetch s = .command d t) (hd : ∀ i, d ≠ .instr i) :
    step s = illegalCommand t := by
  rw [step, h]
  cases d with
  | instr i => exact absurd rfl (hd i)
  | unassignedOpcode | mustBeZero => rfl

/-! In the fault state (R218). -/

theorem exec_of_fault {i : Instr} {s : State} (hf : s.fault = true) (hi : i ≠ .reset) :
    exec i s = .next (refuse s) := by
  rw [exec_eq_runCommand i s hi, runCommand_fault hf]

theorem illegalCommand_of_fault {s : State} (hf : s.fault = true) : illegalCommand s = .next (refuse s) :=
  runCommand_fault hf

/-! The response of a command (R245). -/

theorem exec_responses {i : Instr} {s t : State} (h : exec i s = .next t) :
    t.responses = s.responses ++ [⟨t.result, statusWord t (s.fault && i != .reset)⟩] := by
  obtain ⟨rfl, rfl⟩ | ⟨hi, hf, rfl⟩ | ⟨-, hf, r, u, he, rfl⟩ | ⟨-, hf, k, u, hp, rfl⟩ := exec_next h
  · simp only [bne_self_eq_false, Bool.and_false]
    rfl
  · rw [hf, bne_iff_ne.mpr hi]
    rfl
  · rw [hf, ← he.untouched.responses]
    rfl
  · rw [hf, ← hp.untouched.responses]
    rfl

theorem illegalCommand_responses {s t : State} (h : illegalCommand s = .next t) :
    t.responses = s.responses ++ [⟨t.result, statusWord t s.fault⟩] := by
  obtain ⟨hf, rfl⟩ | ⟨hf, rfl⟩ := illegalCommand_next h <;> rw [hf] <;> rfl

/-! What reaches the sink (R53). -/

theorem Effect.sink_eq {s u : State} {i : Instr} (h : Effect s i u) (hi : i ≠ .serialize) :
    u.sink = s.sink ∧ u.sinkLog = s.sinkLog ∧ u.sinkAnswers = s.sinkAnswers := by
  cases h with
  | feedWindow | feedLoop => rw [pushBits_eq]; exact ⟨rfl, rfl, rfl⟩
  | serialize => exact absurd rfl hi
  | _ => exact ⟨rfl, rfl, rfl⟩

theorem Partial.sink_eq {s u : State} {i : Instr} {k : ErrKind} (h : Partial s i k u) (hi : i ≠ .serialize) :
    u.sink = s.sink ∧ u.sinkLog = s.sinkLog ∧ u.sinkAnswers = s.sinkAnswers := by
  cases h with
  | unchanged => exact ⟨rfl, rfl, rfl⟩
  | feed => rw [pushBits_eq]; exact ⟨rfl, rfl, rfl⟩
  | serialize => exact absurd rfl hi

theorem exec_sink_eq {i : Instr} {s t : State} (hi : i ≠ .serialize) (h : exec i s = .next t) :
    t.sink = s.sink ∧ t.sinkLog = s.sinkLog ∧ t.sinkAnswers = s.sinkAnswers := by
  obtain ⟨-, rfl⟩ | ⟨-, -, rfl⟩ | ⟨-, -, r, u, he, rfl⟩ | ⟨-, -, k, u, hp, rfl⟩ := exec_next h
  · exact ⟨rfl, rfl, rfl⟩
  · exact ⟨rfl, rfl, rfl⟩
  · exact he.sink_eq hi
  · exact hp.sink_eq hi

/-! Every command but SERIALIZE answers a next state (R250). -/

/-- A piece of pseudocode that is not stuck. -/
def Res.Ends {α : Type} : Res α → Prop
  | .val _ _ | .raised _ _ => True
  | .stuck _ => False

theorem Res.Ends.ite {α : Type} {c : Prop} [Decidable c] {a b : Res α} (ha : a.Ends) (hb : b.Ends) :
    (if c then a else b).Ends := by
  split
  · exact ha
  · exact hb

theorem startBody_ends (s : State) : (startBody s).Ends := by
  refine .ite trivial (.ite trivial ?_)
  split <;> exact trivial

theorem emitBody_ends (v : Bool) (s : State) : (emitBody v s).Ends := by
  refine .ite trivial ?_
  unfold emitBit
  split <;> exact trivial

theorem feedBody_ends (dt : Half) (s : State) : (feedBody dt s).Ends := by
  refine .ite trivial ?_
  split
  · obtain ⟨bits, -, h | h⟩ := fixedWindowFeed_cases (zext dt) s ‹_› <;> rw [h] <;> exact trivial
  · obtain ⟨bits, -, ⟨np, npe, -, -, h⟩ | h⟩ := loopFeed_cases (zext dt) s ‹_› <;> rw [h] <;> exact trivial

theorem bodyOf_ends {i : Instr} (s : State) (hi : i ≠ .serialize) : (bodyOf i s).Ends := by
  cases i with
  | nop | reset | bitcount | bitcounthi | rdphase | rdperiod => exact trivial
  | create | setrate => exact .ite trivial (.ite trivial (.ite trivial trivial))
  | setidiv | setediv | select => exact .ite trivial (.ite trivial trivial)
  | readword | finish => exact .ite trivial trivial
  | start => exact startBody_ends s
  | emit v => exact emitBody_ends v s
  | feed dt => exact feedBody_ends dt s
  | serialize => exact absurd rfl hi

theorem exec_answers {i : Instr} (s : State) (hi : i ≠ .serialize) : ∃ t, exec i s = .next t := by
  by_cases hr : i = .reset
  · subst hr
    exact ⟨_, rfl⟩
  · cases hf : s.fault with
    | true => exact ⟨_, exec_of_fault hf hr⟩
    | false =>
      have hends := bodyOf_ends s hi
      rw [exec_eq_complete hf hr]
      cases hb : bodyOf i s with
      | val r u => exact ⟨_, rfl⟩
      | raised k u => exact ⟨_, rfl⟩
      | stuck f => rw [hb] at hends; exact hends.elim

/-- R40: STATUS is 0 after a reset. -/
theorem statusWord_resetBlock (s : State) : statusWord (resetBlock s) false = 0 := by
  have hreset : statusWord (resetBlock s) false = statusWord State.reset false := rfl
  rw [hreset]
  decide

/-! Resynchronising with RESET words (R244). -/

/-- `t` has the port, the parameters and the sink of `s`. -/
structure SameOutside (s t : State) : Prop where
  params : t.params = s.params
  hostIn : t.hostIn = s.hostIn
  pend : t.pend = s.pend
  sink : t.sink = s.sink ∧ t.sinkLog = s.sinkLog ∧ t.sinkAnswers = s.sinkAnswers

theorem exec_sameOutside {i : Instr} {s t : State} (hr : i ≠ .reset) (hs : i ≠ .serialize) (h : exec i s = .next t) :
    SameOutside s t := by
  have hsink := exec_sink_eq hs h
  obtain ⟨rfl, -⟩ | ⟨-, -, rfl⟩ | ⟨-, -, r, u, he, rfl⟩ | ⟨-, -, k, u, hp, rfl⟩ := exec_next h
  · exact absurd rfl hr
  · exact ⟨rfl, rfl, rfl, hsink⟩
  · exact ⟨he.untouched.params, he.untouched.hostIn, he.untouched.pend, hsink⟩
  · exact ⟨hp.untouched.params, hp.untouched.hostIn, hp.untouched.pend, hsink⟩

theorem illegalCommand_answers (s : State) : ∃ t, illegalCommand s = .next t ∧ SameOutside s t := by
  cases hf : s.fault with
  | true => exact ⟨_, illegalCommand_of_fault hf, rfl, rfl, rfl, rfl, rfl, rfl⟩
  | false => exact ⟨_, illegalCommand_of_ok hf, rfl, rfl, rfl, rfl, rfl, rfl⟩

/-- A literal, whatever its bits, completes the pending long command, which touches no port and no sink. -/
theorem step_of_pending {s : State} {w lit : Word} {rest : List HostInput} (hp : s.pend = some w)
    (hl : isLong w = true) (hh : s.hostIn = .word lit :: rest) :
    ∃ t, step s = .next t ∧ SameOutside (takeWords 1 rest s) t := by
  have hfetch := fetch_of_pending hp hh
  by_cases hd : ∃ i, decodeCommand w lit = .instr i
  · obtain ⟨i, hd⟩ := hd
    obtain ⟨-, hlit⟩ := decodeCommand_onlyEncoding w lit i hd
    rw [if_pos hl] at hlit
    have hreset : i ≠ .reset := by rintro rfl; cases hlit
    have hserialize : i ≠ .serialize := by rintro rfl; cases hlit
    obtain ⟨t, ht⟩ := exec_answers (takeWords 1 rest s) hserialize
    exact ⟨t, (step_of_instr hfetch hd).trans ht, exec_sameOutside hreset hserialize ht⟩
  · obtain ⟨t, ht, hsame⟩ := illegalCommand_answers (takeWords 1 rest s)
    exact ⟨t, (step_of_not_instr hfetch (not_exists.mp hd)).trans ht, hsame⟩

theorem step_of_reset_word {s : State} {rest : List HostInput} (hp : s.pend = none)
    (hh : s.hostIn = .word 0x01000000 :: rest) :
    step s = .next (respond (resetBlock (takeWords 1 rest s)) 0 false) :=
  step_of_instr (fetch_of_short hp rfl hh) rfl

end Sys2Proof.Machine

namespace Sys2Proof

open Sys2Proof.Machine

/-- Settles O7: the fetch takes the words and the step executes what they decode to. -/
theorem stepRunsDecodedCommand : Obligations.StepRunsDecodedCommand := by
  intro s w lit rest i
  exact ⟨fun hp hh hl hd => step_of_instr (fetch_of_short hp hl hh) hd,
    fun hp hh hl hd => step_of_instr (fetch_of_long hp hl hh) hd,
    fun hp hh hd => step_of_instr (fetch_of_pending hp hh) hd⟩

/-- Settles O9: a held word and its literal are fetched as the same command, in the same state, as the two together. -/
theorem literalMayArriveLater : Obligations.LiteralMayArriveLater := by
  intro s w hp hh hl
  refine ⟨_, step_of_noCommand (fetch_of_first hp hl hh), rfl, fun lit => ?_⟩
  have hlater := fetch_of_pending (s := { holdFirst w [] s with hostIn := [.word lit] }) rfl rfl
  have htogether := fetch_of_long (s := { s with hostIn := [.word w, .word lit] }) hp hl rfl
  exact step_congr (hlater.trans htogether.symm)

/-- Settles O10: the step is the reset of the block, which keeps the port, the responses and the sink. -/
theorem hardwareResetEstablishesResetState : Obligations.HardwareResetEstablishesResetState := by
  intro s rest hh
  refine ⟨_, step_of_noCommand (fetch_of_pulse hh), ?_⟩
  simp [hardwareReset]

/-- Settles O11: with nothing pending both words are RESET; a pending command takes the first as its literal. -/
theorem twoResetWordsResynchronise : Obligations.TwoResetWordsResynchronise := by
  intro s hpending hh
  obtain ⟨t, ht, hparams, hport, hpend, hsink, hlog, hanswers⟩ :
      ∃ t, step s = .next t ∧ t.params = s.params ∧ t.hostIn = [.word 0x01000000] ∧ t.pend = none ∧
        t.sink = s.sink ∧ t.sinkLog = s.sinkLog ∧ t.sinkAnswers = s.sinkAnswers := by
    cases hp : s.pend with
    | none => exact ⟨_, step_of_reset_word hp hh, rfl, rfl, rfl, rfl, rfl, rfl⟩
    | some w =>
      obtain ⟨t, ht, hsame⟩ := step_of_pending hp (hpending w hp) hh
      exact ⟨t, ht, hsame.params, hsame.hostIn, hsame.pend, hsame.sink⟩
  refine ⟨t, _, ht, step_of_reset_word hpend hport, ?_, ?_⟩
  · rw [← hparams, ← hsink, ← hlog, ← hanswers]
    rfl
  · rw [respond_responses, List.getLast?_concat, statusWord_resetBlock]

/-- Settles O12: each way a command ends sends the one response of the state it ends in. -/
theorem oneResponsePerCommand : Obligations.OneResponsePerCommand := by
  intro s t h
  obtain hf | ⟨rest, hf⟩ | ⟨w, rest, -, hf⟩ | ⟨d, n, rest, hf⟩ := fetch_cases s
  · rw [step_of_noCommand hf] at h
    cases h
    rw [hf]
  · rw [step_of_noCommand hf] at h
    cases h
    rw [hf]
    rfl
  · rw [step_of_noCommand hf] at h
    cases h
    rw [hf]
    rfl
  · rw [hf]
    cases d with
    | instr i =>
      rw [step_of_instr hf rfl] at h
      have hne : (Decoded.instr i != .instr .reset) = (i != .reset) := by simp [bne]
      simpa [hne] using exec_responses h
    | unassignedOpcode | mustBeZero =>
      rw [step_of_not_instr hf nofun] at h
      have hresponse := illegalCommand_responses h
      rw [← Bool.and_true (takeWords n rest s).fault] at hresponse
      exact hresponse

/-- Settles O15: a refusal is the response alone, and REFUSED is one bit of STATUS; a held word waits as ever. -/
theorem faultStateRefuses : Obligations.FaultStateRefuses := by
  intro i s hf
  exact ⟨fun hi => exec_of_fault hf hi, illegalCommand_of_fault hf, rfl, statusWord_true s,
    fun w hp hh hl => step_of_noCommand (fetch_of_first hp hl hh)⟩

/-- Settles O16: without a pulse the fetch changes the port alone, and of the commands only RESET is not refused. -/
theorem onlyResetLeavesFaultState : Obligations.OnlyResetLeavesFaultState := by
  intro s t hf h
  by_cases hpulse : ∃ rest, s.hostIn = .resetPulse :: rest
  · obtain ⟨rest, hh⟩ := hpulse
    rw [step_of_noCommand (fetch_of_pulse hh)] at h
    cases h
    exact .inr ⟨.inl ⟨rest, hh⟩, rfl⟩
  · obtain hfetch | ⟨w, rest, hfetch⟩ | ⟨d, n, rest, hfetch⟩ := fetch_of_not_pulse hpulse
    · rw [step_of_noCommand hfetch] at h
      cases h
      exact .inl ⟨hf, rfl, rfl⟩
    · rw [step_of_noCommand hfetch] at h
      cases h
      exact .inl ⟨hf, rfl, rfl⟩
    · by_cases hd : d = .instr .reset
      · rw [step_of_instr hfetch hd] at h
        cases h
        exact .inr ⟨.inr ⟨_, hd ▸ hfetch⟩, rfl⟩
      · have hrefused : step s = .next (refuse (takeWords n rest s)) := by
          by_cases hinstr : ∃ i, d = .instr i
          · obtain ⟨i, rfl⟩ := hinstr
            rw [step_of_instr hfetch rfl]
            exact exec_of_fault hf fun hi => hd (congrArg _ hi)
          · rw [step_of_not_instr hfetch (not_exists.mp hinstr)]
            exact illegalCommand_of_fault hf
        rw [hrefused] at h
        cases h
        exact .inl ⟨hf, rfl, rfl⟩

/-- Settles O22: RESET is accepted in every state, and its STATUS is that of the reset state. -/
theorem resetRestoresEveryRegister : Obligations.ResetRestoresEveryRegister := by
  refine ⟨rfl, fun s => ?_⟩
  have hexec : exec .reset s = .next
      { resetBlock s with
        result := 0, responses := s.responses ++ [⟨0, statusWord (resetBlock s) false⟩] } := rfl
  rw [hexec, statusWord_resetBlock]
  rfl

end Sys2Proof

namespace Sys2Proof.Machine

open Sys2Proof Sys2Proof.Safety

/-! Step 2 under CENTRED in closed form (R148). -/

/-- R147: the range is an interval. -/
theorem fitsSigned_between {w : Nat} {a b v : Int} (ha : fitsSigned w a = true) (hb : fitsSigned w b = true)
    (hav : a ≤ v) (hvb : v ≤ b) : fitsSigned w v = true := by
  rw [fitsSigned_iff] at *
  omega

/-- R147: at most half a period below 0 is in the range of the period. -/
theorem fitsSigned_of_half {w : Nat} {pe e : Int} (hfit : fitsSigned w pe = true) (hlo : -pe ≤ 2 * e)
    (hhi : 2 * e < pe) : fitsSigned w e = true := by
  rw [fitsSigned_iff] at *
  omega

/-- Step 2 under CENTRED emits the `k` zeros before the cell of the edge: every range check up to there passes, since
what is left falls from `p - PE` to the error. -/
theorem centredRun_eq {pe p : Int} {k fuel : Nat} {s : State} (hfuel : k < fuel)
    (hfirst : fitsSigned s.params.wAcc (p - pe) = true)
    (hlast : fitsSigned s.params.wAcc (p - (k + 1) * pe) = true) (hstop : 2 * (p - (k + 1) * pe) < pe)
    (hgo : k = 0 ∨ (1 ≤ pe ∧ -pe ≤ 2 * (p - (k + 1) * pe))) :
    centredRun pe fuel p s =
      (emitBits (List.replicate k false) s).bind fun _ t => .val (p - (k + 1) * pe) t := by
  induction k generalizing p s fuel with
  | zero =>
    obtain ⟨fuel, rfl⟩ := Nat.exists_eq_add_of_lt hfuel
    simp only [Nat.cast_zero, zero_add, one_mul] at hstop ⊢
    rw [centredRun, chk_of_fits hfirst, Res.val_bind, if_pos hstop]
    rfl
  | succ k ih =>
    obtain ⟨fuel, rfl⟩ : ∃ n, fuel = n + 1 := ⟨fuel - 1, by omega⟩
    obtain ⟨hpe, hlo⟩ := hgo.resolve_left (Nat.succ_ne_zero k)
    have hk : 0 ≤ k * pe := by positivity
    have hleft : p - ((k + 1 : Nat) + 1) * pe = p - pe - (k + 1) * pe := by push_cast; ring
    have hnextleft : p - pe - (k + 1) * pe = p - pe - pe - k * pe := by ring
    rw [hleft] at hlast hstop hlo ⊢
    have hnext : fitsSigned s.params.wAcc (p - pe - pe) = true :=
      fitsSigned_between hlast hfirst (by omega) (by omega)
    rw [centredRun, chk_of_fits hfirst, Res.val_bind, if_neg (by omega), List.replicate_succ, emitBits, Res.bind_assoc]
    by_cases htop : zext s.bcProd = 2 ^ 64 - 1
    · rw [emitBit_of_top htop]
      rfl
    · have hlt : zext s.bcProd < 2 ^ 64 := s.bcProd.isLt
      rw [emitBit_of_lt (by omega)]
      exact ih (s := pushBit s false) (by omega) hnext hlast hstop (.inr ⟨hpe, hlo⟩)

/-- Steps 2 and 3 of a CENTRED FEED: its zeros and one 1, up to the counter's top. -/
theorem centredWindow_eq {dt : Half} {s : State} {k : Nat} {e : Int} (h : CentredStep dt s k e) :
    centredWindow (zext dt) (s.phase + zext dt) s =
      (emitBits (List.replicate k false ++ [true]) s).bind fun _ t => .val e t := by
  obtain ⟨-, -, hfirst, hpefit, he, hzero, hedge⟩ := h
  have hrun : (if zext dt = 0 then chk (s.phase + zext dt - s.pe) s
      else centredRun s.pe ((s.phase + zext dt).toNat + 1) (s.phase + zext dt) s) =
      (emitBits (List.replicate k false) s).bind fun _ t => .val e t := by
    split
    · rename_i hdt
      obtain rfl : k = 0 := hzero hdt
      have heq : e = s.phase + zext dt - s.pe := by rw [he]; simp
      rw [chk_of_fits hfirst, heq]
      rfl
    · obtain ⟨hstop, hgo⟩ := hedge ‹_›
      rw [he] at hstop hgo ⊢
      refine centredRun_eq ?_ hfirst ?_ hstop hgo
      · rcases hgo with rfl | ⟨hpe, hlo⟩
        · omega
        · have hk : (k : Int) ≤ k * s.pe := le_mul_of_one_le_right (by omega) hpe
          have hexpand : s.phase + zext dt - (k + 1) * s.pe = s.phase + zext dt - s.pe - k * s.pe := by ring
          omega
      · rcases hgo with rfl | ⟨-, hlo⟩
        · simpa using hfirst
        · exact fitsSigned_of_half hpefit hlo hstop
  have hguard : ¬(zext dt ≠ 0 ∧ s.pe ≤ 0 ∧ s.pe ≤ 2 * (s.phase + zext dt - s.pe)) := by
    rintro ⟨hdt, hpe, hp⟩
    obtain ⟨hstop, rfl | ⟨hpos, -⟩⟩ := hedge hdt
    · simp only [Nat.cast_zero, zero_add, one_mul] at he
      omega
    · omega
  rw [centredWindow, if_neg hguard, hrun, emitBits_append]
  simp only [Res.bind_assoc, Res.val_bind, emitBits]

/-! A loop FEED under either window. -/

/-- A loop FEED emits its zeros and one 1, up to the counter's top, and then corrects the loop by the error. -/
theorem loopFeed_of_step {dt : Half} {s : State} {k : Nat} {e : Int} (h : FloorStep dt s k e ∨ CentredStep dt s k e) :
    loopFeed (zext dt) s =
      (emitBits (List.replicate k false ++ [true]) s).bind fun _ t => loopCorrect e t := by
  obtain h | h := h
  · obtain ⟨hw, hguard, hfit, hk, he⟩ := h
    rw [loopFeed_of_fits hfit, phaseError_of_floor hw, floorWindow_eq hguard, ← hk, ← he, Res.bind_assoc]
    rfl
  · have ⟨hw, hfit, _⟩ := h
    rw [loopFeed_of_fits hfit, phaseError_of_centred hw, centredWindow_eq h, Res.bind_assoc]
    rfl

/-! Corrections out of range (R147). -/

theorem chk_bind_eq_raised {α : Type} {v : Int} {s : State} {f : Int → State → Res α}
    (h : fitsSigned s.params.wAcc v = true → f v s = .raised .arithmetic s) :
    (chk v s).bind f = .raised .arithmetic s := by
  obtain ⟨hfit, hc⟩ | hc := chk_cases v s <;> rw [hc]
  · exact h hfit
  · rfl

theorem carriedPhase_bind_eq_raised {α : Type} {e : Int} {s : State} {f : Int → State → Res α}
    (hq : fitsSigned s.params.wAcc (tdiv e (sext s.lediv)) = true)
    (h : fitsSigned s.params.wAcc (newPhase s e) = true → f (newPhase s e) s = .raised .arithmetic s) :
    (carriedPhase e (tdiv e (sext s.lediv)) s).bind f = .raised .arithmetic s := by
  unfold newPhase at h
  unfold carriedPhase
  cases hc : s.params.phaseCarry <;> rw [hc] at h
  · exact h hq
  · exact chk_bind_eq_raised h

/-- A correction out of range raises, and commits neither register. -/
theorem loopCorrect_of_not_inRange {e : Int} {s : State} (h : ¬LoopInRange s e) :
    loopCorrect e s = .raised .arithmetic s :=
  chk_bind_eq_raised fun hq => carriedPhase_bind_eq_raised hq fun hphase =>
    chk_bind_eq_raised fun hc => chk_bind_eq_raised fun hpe => absurd ⟨hq, hphase, hc, hpe⟩ h

/-- A CENTRED FEED whose first subtraction leaves the range raises before any bit. -/
theorem loopFeed_of_first_not_fits {dt : Nat} {s : State} (hw : s.params.loopWindow = .centred)
    (h : fitsSigned s.params.wAcc (s.phase + dt - s.pe) = false) : loopFeed dt s = .raised .arithmetic s := by
  refine chk_bind_eq_raised fun _ => ?_
  rw [phaseError_of_centred hw, centredWindow]
  split
  · rfl
  · have hrun : (if dt = 0 then chk (s.phase + dt - s.pe) s
        else centredRun s.pe ((s.phase + dt).toNat + 1) (s.phase + dt) s) = .raised .arithmetic s := by
      split
      · exact chk_of_not_fits h
      · rw [centredRun, chk_of_not_fits h, Res.raised_bind]
    rw [hrun]
    rfl

theorem exec_feed_of_raised {dt : Half} {s u : State} (hs : LoopRunning s)
    (h : loopFeed (zext dt) s = .raised .arithmetic u) : exec (.feed dt) s = .next (takeError .arithmetic u) := by
  have ⟨hf, _, _⟩ := hs
  refine exec_of_raised hf nofun ?_
  rw [bodyOf, feedBody_of_loop hs, h, Res.raised_bind]

end Sys2Proof.Machine

namespace Sys2Proof

open Sys2Proof.Machine

/-- Settles O35: the closed form of step 2 under CENTRED, and then in-range corrections of the loop. -/
theorem centredFeedTracks : Obligations.CentredFeedTracks := by
  intro dt s k e hs hw hfit hfirst hpefit he hzero hedge hrange hb
  have hlen := length_zeros_one k
  have hloop := loopFeed_of_step (.inr ⟨hw, hfit, hfirst, hpefit, he, hzero, hedge⟩)
  rw [emitBits_of_lt (by omega), Res.val_bind, loopCorrect_of_inRange ((loopInRange_pushBits s _ e).mpr hrange),
    newPhase_pushBits, newPeriod_pushBits] at hloop
  have ⟨hf, _, _⟩ := hs
  refine exec_of_val hf nofun ?_
  rw [bodyOf, feedBody_of_loop hs, hloop, Res.val_bind, pushBits_bcProd_sub, length_zeros_one]

/-- Settles O37: the corrections come after the bits and commit together; the first subtraction comes before them. -/
theorem rangeFaultKeepsLoopRegisters : Obligations.RangeFaultKeepsLoopRegisters := by
  intro dt s hs
  refine ⟨fun k e hstep hrange hb => ?_, fun hw hfirst => ?_⟩
  · have hlen := length_zeros_one k
    refine exec_feed_of_raised hs ?_
    rw [loopFeed_of_step hstep, emitBits_of_lt (by omega), Res.val_bind,
      loopCorrect_of_not_inRange (mt (loopInRange_pushBits s _ e).mp hrange)]
  · exact exec_feed_of_raised hs (loopFeed_of_first_not_fits hw hfirst)

/-- Settles O60: the emission that meets the counter's top ends the FEED before its corrections. -/
theorem counterTopStopsLoopFeed : Obligations.CounterTopStopsLoopFeed := by
  intro dt s k e hs hstep htop
  have hlen := length_zeros_one k
  refine exec_feed_of_raised hs ?_
  rw [loopFeed_of_step hstep, emitBits_eq, if_neg (by omega), Res.raised_bind]

end Sys2Proof

namespace Sys2Proof.Machine

open Sys2Proof Sys2Proof.Safety

/-! SERIALIZE past its checks, where every write is answered *done* or one is never answered (R180, R250). -/

theorem serializeBody_of_serializable {s : State} (h : Serializable s) :
    serializeBody s = .val (BitVec.ofNat 32 (byteCountOf (zext s.bcProd)))
      { sinkStores { s with sinkAnswers := s.sinkAnswers.drop (imageWrites s).length } (imageWrites s) with
        mode := .done } := by
  obtain ⟨-, hm, hr, ho, hfit, hack⟩ := h
  have hrun := sinkWrites_append_of_acked hfit hack []
  rw [List.append_nil, sinkWrites] at hrun
  rw [serializeBody_of_legal hm hr ho, hrun, Res.val_bind]

theorem sinkWrite_of_never {s : State} {a : Nat} (ha : a < s.params.sinkSize) (h : s.sinkAnswers[0]? = some .never)
    (v : Byte) : sinkWrite a v s = .stuck .sinkNeverAcknowledges := by
  have hsize : ¬s.params.sinkSize ≤ a := not_le.mpr ha
  cases hs : s.sinkAnswers with
  | nil => simp [hs] at h
  | cons x rest =>
    obtain rfl : x = .never := by simpa [hs] using h
    rw [sinkWrite, if_neg hsize, hs]

/-- The writes before one that is never answered are stored, and then nothing more happens. -/
theorem sinkWrites_of_never {front back : List (Nat × Byte)} {a : Nat} {v : Byte} {s : State}
    (hfit : ∀ w ∈ front, w.1 < s.params.sinkSize) (ha : a < s.params.sinkSize)
    (hack : ∀ x ∈ s.sinkAnswers.take front.length, x = .acked) (hnever : s.sinkAnswers[front.length]? = some .never) :
    sinkWrites (front ++ (a, v) :: back) s = .stuck .sinkNeverAcknowledges := by
  rw [sinkWrites_append_of_acked hfit hack, sinkWrites, sinkWrite_of_never, Res.stuck_bind]
  · rw [sinkStores_eq]
    exact ha
  · rw [sinkStores_eq]
    simpa using hnever

/-! What a command other than RESET reaches: its effect, or what an error leaves, beside the response and the error
registers. -/

theorem exec_reaches {i : Instr} {s t : State} (h : exec i s = .next t) (hi : i ≠ .reset) :
    ∃ u, (Effect s i u ∨ ∃ k, Partial s i k u) ∧
      ∃ r rs f e, t = { u with result := r, responses := rs, fault := f, err := e } := by
  obtain ⟨rfl, -⟩ | ⟨-, -, rfl⟩ | ⟨-, -, r, u, he, rfl⟩ | ⟨-, -, k, u, hp, rfl⟩ := exec_next h
  · exact absurd rfl hi
  · exact ⟨s, .inr ⟨.sequence, .unchanged ..⟩, _, _, _, _, rfl⟩
  · exact ⟨u, .inl he, _, _, _, _, rfl⟩
  · exact ⟨u, .inr ⟨k, hp⟩, _, _, _, _, rfl⟩

/-- An error of any command but FEED and SERIALIZE leaves the state before it (R217). -/
theorem Partial.eq_of_atomic {s u : State} {i : Instr} {k : ErrKind} (h : Partial s i k u) (hf : ∀ dt, i ≠ .feed dt)
    (hs : i ≠ .serialize) : u = s := by
  cases h with
  | unchanged => rfl
  | feed dt => exact absurd rfl (hf dt)
  | serialize => exact absurd rfl hs

theorem configuration_keeps_memories {i : Instr} {s t : State}
    (hi : (∃ r, i = .setrate r) ∨ (∃ d, i = .setidiv d) ∨ (∃ d, i = .setediv d) ∨ ∃ g, i = .select g)
    (h : exec i s = .next t) : t.cap = s.cap ∧ t.buf = s.buf ∧ t.sink = s.sink := by
  have hreset : i ≠ .reset := by rintro rfl; simp at hi
  obtain ⟨u, he | ⟨k, hp⟩, r, rs, f, e, rfl⟩ := exec_reaches h hreset
  · obtain ⟨r, rfl⟩ | ⟨d, rfl⟩ | ⟨d, rfl⟩ | ⟨g, rfl⟩ := hi <;> cases he <;> exact ⟨rfl, rfl, rfl⟩
  · obtain rfl := hp.eq_of_atomic (by rintro dt rfl; simp at hi) (by rintro rfl; simp at hi)
    exact ⟨rfl, rfl, rfl⟩

/-! The bits of the buffer after emissions (R51, R100). -/

/-- Emissions leave every bit but those at the addresses `(BC_PROD + n) AND MASK`. -/
theorem bufRead_pushBits_of_ne {s : State} {bits : List Bool} {j : Nat} (hw : Memory.wf s)
    (hb : zext s.bcProd + bits.length < 2 ^ 64)
    (hj : ∀ n < bits.length, maskAddr s.cap j ≠ maskAddr s.cap (zext s.bcProd + n)) :
    bufRead (pushBits s bits) j = bufRead s j := by
  induction bits generalizing s with
  | nil => rfl
  | cons v rest ih =>
    rw [List.length_cons] at hb hj
    have hcount : zext (pushBit s v).bcProd = zext s.bcProd + 1 := zext_pushBit_bcProd (by omega)
    have hpushed : Memory.wf (pushBit s v) := memory_wf_pushBits hw [v]
    rw [pushBits_cons, ih hpushed (by omega), bufRead_pushBit hw]
    · exact if_neg (hj 0 (Nat.succ_pos _))
    · intro n hn
      rw [hcount, Nat.add_assoc, Nat.add_comm 1 n]
      exact hj (n + 1) (by omega)

/-- What EMIT and FEED reach: emissions, and for a loop FEED new loop registers. -/
theorem emission_reaches {s u : State} {i : Instr} (hi : (∃ v, i = .emit v) ∨ ∃ dt, i = .feed dt)
    (h : Effect s i u ∨ ∃ k, Partial s i k u) :
    ∃ bits np npe, u = { pushBits s bits with phase := np, pe := npe } ∧ zext s.bcProd + bits.length < 2 ^ 64 ∧
      (((∃ v, i = .emit v) ∨ s.strat = tagFw) → np = s.phase ∧ npe = s.pe) := by
  have hsame (bits : List Bool) : pushBits s bits = { pushBits s bits with phase := s.phase, pe := s.pe } := by
    rw [pushBits_eq]
  obtain he | ⟨k, hp⟩ := h
  · cases he with
    | emit v _ hb => exact ⟨[v], _, _, hsame [v], hb, fun _ => ⟨rfl, rfl⟩⟩
    | feedWindow dt bits _ _ hb => exact ⟨bits, _, _, hsame bits, hb.counted, fun _ => ⟨rfl, rfl⟩⟩
    | feedLoop dt bits np npe _ hs hb =>
      exact ⟨bits, np, npe, rfl, hb.counted, fun hkeep => absurd hkeep (by simp [hs])⟩
    | _ => simp at hi
  · cases hp with
    | unchanged => exact ⟨[], _, _, hsame [], s.bcProd.isLt, fun _ => ⟨rfl, rfl⟩⟩
    | feed dt bits _ hb => exact ⟨bits, _, _, hsame bits, hb.counted, fun _ => ⟨rfl, rfl⟩⟩
    | serialize => simp at hi

/-! What SERIALIZE reaches (R180, R190). -/

/-- SERIALIZE changes MODE and the sink alone, and of the sink the bytes of its image alone. -/
theorem serialize_reaches {s u : State} (h : Effect s .serialize u ∨ ∃ k, Partial s .serialize k u) :
    u = { s with mode := u.mode, sink := u.sink, sinkLog := u.sinkLog, sinkAnswers := u.sinkAnswers } ∧
      ∀ a, (∀ w ∈ imageWrites s, w.1 ≠ a) → readSink u.sink a = readSink s.sink a := by
  obtain he | ⟨k, hp⟩ := h
  · cases he
    refine ⟨by rw [sinkStores_eq], fun a ha => ?_⟩
    exact readSink_sinkStores_of_ne ha
  · cases hp with
    | unchanged => exact ⟨rfl, fun _ _ => rfl⟩
    | serialize front a v back m _ _ hw =>
      refine ⟨by rw [sinkStores_eq]; rfl, fun b hb => ?_⟩
      exact readSink_sinkStores_of_ne fun w hmem => hb w (hw ▸ List.mem_append_left _ hmem)

theorem exec_serialize_sink {s t : State} (h : exec .serialize s = .next t) {a : Nat}
    (ha : ∀ w ∈ imageWrites s, w.1 ≠ a) : readSink t.sink a = readSink s.sink a := by
  obtain ⟨u, hu, r, rs, f, e, rfl⟩ := exec_reaches h nofun
  exact (serialize_reaches hu).2 a ha

/-- The addresses of an image: the header's, the table entry's, and those of its track-data bytes (R183 to R186). -/
theorem imageWrites_addresses {s : State} {w : Nat × Byte} (h : w ∈ imageWrites s) :
    w.1 < 0x14 ∨ (0x200 ≤ w.1 ∧ w.1 < 0x204) ∨ ∃ k < 4 * serializedWords s, w.1 = trackAddr k := by
  rw [imageWrites_eq, frontMatterWrites, List.append_assoc, List.mem_append, List.mem_append] at h
  obtain h | h | h := h
  · have hbounds := mem_atAddresses_bounds h
    rw [length_headerBytes] at hbounds
    exact .inl (by omega)
  · exact .inr (.inl (mem_atAddresses_bounds h))
  · obtain ⟨i, hi, h⟩ := List.mem_flatMap.mp h
    obtain ⟨hlo, hhi⟩ := wordWrites_bounds h
    rw [List.mem_range] at hi
    refine .inr (.inr ⟨4 * i + (w.1 - wordOffset i), by omega, ?_⟩)
    unfold wordOffset at *
    unfold trackAddr
    omega

/-! Who changes the buffer (R50). -/

theorem Effect.buf_eq {s u : State} {i : Instr} (h : Effect s i u) (hstart : i ≠ .start)
    (hcreate : ∀ c, i ≠ .create c) (hemit : ∀ v, i ≠ .emit v) (hfeed : ∀ dt, i ≠ .feed dt) : u.buf = s.buf := by
  cases h with
  | create c => exact absurd rfl (hcreate c)
  | emit v => exact absurd rfl (hemit v)
  | start => exact absurd rfl hstart
  | feedWindow dt | feedLoop dt => exact absurd rfl (hfeed dt)
  | serialize => rw [sinkStores_eq]
  | _ => rfl

theorem Partial.buf_eq {s u : State} {i : Instr} {k : ErrKind} (h : Partial s i k u) (hfeed : ∀ dt, i ≠ .feed dt) :
    u.buf = s.buf := by
  cases h with
  | unchanged => rfl
  | feed dt => exact absurd rfl (hfeed dt)
  | serialize => rw [sinkStores_eq]; rfl

end Sys2Proof.Machine

namespace Sys2Proof

open Sys2Proof.Machine Sys2Proof.Safety

/-- Settles O38: every write is stored, and the image's addresses rise, so each byte stays. -/
theorem serializeWritesImage : Obligations.SerializeWritesImage := by
  intro s h
  refine ⟨rfl, _, exec_of_val h.1 nofun (serializeBody_of_serializable h), rfl, rfl, ?_, ?_, ?_, ?_⟩
  · exact sinkStores_sinkLog ..
  · exact fun w hw => readSink_sinkStores_of_mem (rising_imageWrites s) hw
  · exact fun a ha => readSink_sinkStores_of_ne ha
  · rw [sinkStores_eq]
    rfl

/-- Settles O41: the writes of `front` are stored, and the next one waits for an answer. -/
theorem silentSinkLeavesSerializeWaiting : Obligations.SilentSinkLeavesSerializeWaiting := by
  intro s front back a v hf hm hr ho hw hfit ha hack hnever
  have hexec : exec .serialize s = complete (serializeBody s) := exec_eq_complete hf nofun
  rw [hexec, serializeBody_of_legal hm hr ho, hw, sinkWrites_of_never hfit ha hack hnever,
    Res.stuck_bind, complete]

/-- Settles O42: a reader completes in the state it began in, and so does one that raises. -/
theorem readerFrame : Obligations.ReaderFrame := by
  intro i s t hi h
  have hreset : i ≠ .reset := by rintro rfl; simp at hi
  obtain ⟨u, hu, r, rs, f, e, rfl⟩ := exec_reaches h hreset
  have hsame : u = s := by
    obtain he | ⟨k, hp⟩ := hu
    · obtain rfl | rfl | rfl | ⟨k, rfl⟩ | rfl | rfl := hi <;> cases he <;> rfl
    · exact hp.eq_of_atomic (by rintro dt rfl; simp at hi) (by rintro rfl; simp at hi)
  rw [hsame]
  exact ⟨rfl, fun _ => rfl, fun _ => rfl⟩

/-- Settles O43: a configuration command raises before any change, and otherwise sets its registers. -/
theorem configurationFrame : Obligations.ConfigurationFrame := by
  intro s t
  refine ⟨fun r h => ?_, fun d h => ?_, fun d h => ?_, fun g h => ?_, fun i hi h => ?memories⟩
  case memories =>
    obtain ⟨hcap, hbuf, hsink⟩ := configuration_keeps_memories hi h
    exact ⟨fun j => by rw [bufRead, bufRead, hcap, hbuf], fun a => by rw [hsink]⟩
  all_goals
    obtain ⟨u, he | ⟨k, hp⟩, r, rs, f, e, rfl⟩ := exec_reaches h nofun
    · cases he
      rfl
    · obtain rfl := hp.eq_of_atomic nofun nofun
      rfl

/-- Settles O44: CREATE, START and FINISH raise before any change, and otherwise make the one change of their effect. -/
theorem bufferSetupFrame : Obligations.BufferSetupFrame := by
  intro s t
  refine ⟨fun c h => ?_, fun h => ?_, fun h => ?_⟩ <;>
    obtain ⟨u, he | ⟨k, hp⟩, r, rs, f, e, rfl⟩ := exec_reaches h nofun
  · cases he
    exact ⟨rfl, fun _ => rfl⟩
  · obtain rfl := hp.eq_of_atomic nofun nofun
    exact ⟨rfl, fun _ => rfl⟩
  · cases he
    exact ⟨rfl, fun _ => rfl⟩
  · obtain rfl := hp.eq_of_atomic nofun nofun
    exact ⟨rfl, fun _ => rfl⟩
  · cases he
    exact ⟨rfl, fun _ => rfl, fun _ => rfl⟩
  · obtain rfl := hp.eq_of_atomic nofun nofun
    exact ⟨rfl, fun _ => rfl, fun _ => rfl⟩

/-- Settles O45: both commands reach emissions, which advance the counter by their number. -/
theorem emissionFrame : Obligations.EmissionFrame := by
  intro i s t hwf hi h
  have hreset : i ≠ .reset := by rintro rfl; simp at hi
  obtain ⟨u, hu, r, rs, f, e, rfl⟩ := exec_reaches h hreset
  obtain ⟨bits, np, npe, rfl, hb, hkeep⟩ := emission_reaches hi hu
  have hcount := zext_pushBits_bcProd hb
  refine ⟨by rw [pushBits_eq], fun hv => hkeep (.inl hv), fun hs => hkeep (.inr hs), ?_, ?_, fun j hj => ?_⟩
  · rw [pushBits_eq]
    exact fun _ => rfl
  · exact hcount ▸ Nat.le_add_right ..
  · refine bufRead_pushBits_of_ne hwf hb fun n hn => hj n ?_
    exact hcount ▸ by omega

/-- Settles O46: SERIALIZE reaches writes of its image, and MODE. -/
theorem serializeFrame : Obligations.SerializeFrame := by
  intro s t h
  obtain ⟨u, hu, r, rs, f, e, rfl⟩ := exec_reaches h nofun
  obtain ⟨hsame, hsink⟩ := serialize_reaches hu
  rw [hsame]
  exact ⟨rfl, fun _ => rfl, hsink⟩

/-- Settles O47: no address of the image lies in any of the ranges. -/
theorem bytesNeverWritten : Obligations.BytesNeverWritten := by
  intro s t a h hrange
  have hsame : readSink t.sink a = readSink s.sink a := by
    refine exec_serialize_sink h fun w hw => ?_
    have himage := imageWrites_addresses hw
    simp only [trackAddr] at himage hrange
    obtain hw | hw | ⟨k, hk, hw⟩ := himage <;> obtain ha | ha | ⟨c, ha⟩ | ⟨n, hn, ha⟩ := hrange <;> omega
  refine ⟨hsame, fun hnone => ?_⟩
  rw [sinkView, hsame, hnone, Option.getD_none]

/-- Settles O48: SERIALIZE alone writes the sink, and each other command that writes the buffer is named. -/
theorem whoReachesTheMemories : Obligations.WhoReachesTheMemories := by
  intro i s t h
  refine ⟨fun hi => exec_sink_eq hi h, fun hreset hstart hcreate hemit hfeed => ?_⟩
  obtain ⟨u, he | ⟨k, hp⟩, r, rs, f, e, rfl⟩ := exec_reaches h hreset
  · exact he.buf_eq hstart hcreate hemit hfeed
  · exact hp.buf_eq hfeed

/-- Settles O20: only FEED and SERIALIZE have effects before an error, the bits emitted and the bytes stored. -/
theorem partialEffectsOfErrors : Obligations.PartialEffectsOfErrors := by
  intro i s t hf h hfault
  obtain ⟨-, rfl⟩ | ⟨-, hf', -⟩ | ⟨-, -, r, u, he, rfl⟩ | ⟨-, -, k, u, hp, rfl⟩ := exec_next h
  · cases hfault
  · simp [hf] at hf'
  · rw [respond_fault, he.untouched.fault, hf] at hfault
    cases hfault
  · refine ⟨k, u, rfl, ?_⟩
    cases hp with
    | unchanged => exact .inl rfl
    | feed dt bits hm hb =>
      exact .inr (.inl ⟨dt, bits, rfl, rfl, rfl, hb.shape, hb.bound, hb.counted,
        fun hwf j hj => bufRead_pushBits_of_ne hwf hb.counted hj⟩)
    | serialize front a v back m hm hl hw hfit hack hfail =>
      have hrising : Rising front := by
        have himage := rising_imageWrites s
        rw [hw] at himage
        exact (List.pairwise_append.mp himage).1
      refine .inr (.inr ⟨rfl, rfl, front, a, v, back, hw, hfit, hfail, ?_, ?_, ?_, ⟨m, hl, ?_⟩, ?_⟩)
      · rw [sinkReject_sinkLog, sinkStores_sinkLog]
      · exact fun w hw => readSink_sinkStores_of_mem hrising hw
      · exact fun b hb => readSink_sinkStores_of_ne hb
      · rw [sinkReject_sinkAnswers, sinkStores_eq]
      · rw [sinkStores_eq]
        rfl

end Sys2Proof

namespace Sys2Proof.Machine

open Sys2Proof Sys2Proof.Safety

/-! The buffer as a stream (R65, R108). -/

/-- A bit address holds the last bit that was emitted there. -/
theorem bufRead_pushBits_of_last {s : State} {bits : List Bool} {j n : Nat} (hw : Memory.wf s)
    (hb : zext s.bcProd + bits.length < 2 ^ 64) (hn : n < bits.length)
    (hj : maskAddr s.cap j = maskAddr s.cap (zext s.bcProd + n))
    (hlast : ∀ m, n < m → m < bits.length → maskAddr s.cap j ≠ maskAddr s.cap (zext s.bcProd + m)) :
    bufRead (pushBits s bits) j = bits[n] := by
  induction bits generalizing s n with
  | nil => cases hn
  | cons v rest ih =>
    rw [List.length_cons] at hb hn hlast
    have hcount : zext (pushBit s v).bcProd = zext s.bcProd + 1 := zext_pushBit_bcProd (by omega)
    have hpushed : Memory.wf (pushBit s v) := memory_wf_pushBits hw [v]
    have hshift (m : Nat) : zext (pushBit s v).bcProd + m = zext s.bcProd + (m + 1) := by omega
    rw [pushBits_cons]
    cases n with
    | zero =>
      rw [Nat.add_zero] at hj
      rw [bufRead_pushBits_of_ne hpushed (by omega), bufRead_pushBit hw, if_pos hj, List.getElem_cons_zero]
      intro m hm
      rw [hshift]
      exact hlast (m + 1) (Nat.succ_pos m) (by omega)
    | succ n =>
      rw [List.getElem_cons_succ]
      refine ih hpushed (by omega) (by omega) (by rw [hshift]; exact hj) fun m hnm hm => ?_
      rw [hshift]
      exact hlast (m + 1) (by omega) (by omega)

section Cleared

variable {s : State} {bits : List Bool} (hw : Memory.wf s) (hc : Cleared s) (hcap : ∃ k, zext s.cap = 2 ^ k)
include hc

theorem zext_bcProd_of_cleared : zext s.bcProd = 0 := by
  obtain ⟨-, hcount, -⟩ := hc
  rw [hcount]
  rfl

include hw hcap

/-- R65 in the terms of a cleared buffer: where no bit was emitted. -/
theorem bufRead_cleared_of_ne (hb : bits.length < 2 ^ 64) {j : Nat} (hj : j < zext s.cap)
    (hne : ∀ n < bits.length, n % zext s.cap ≠ j) : bufRead (pushBits s bits) j = false := by
  obtain ⟨k, hk⟩ := hcap
  have hzero := zext_bcProd_of_cleared hc
  rw [bufRead_pushBits_of_ne hw (by omega)]
  · exact hc.1 _
  · intro n hn
    rw [maskAddr_two_pow hk, maskAddr_two_pow hk, Nat.mod_eq_of_lt hj, hzero, Nat.zero_add]
    exact (hne n hn).symm

/-- R65: where some bit was emitted. -/
theorem bufRead_cleared_of_last (hb : bits.length < 2 ^ 64) {j n : Nat} (hj : j < zext s.cap) (hn : n < bits.length)
    (hnj : n % zext s.cap = j) (hlast : ∀ m, n < m → m < bits.length → m % zext s.cap ≠ j) :
    bufRead (pushBits s bits) j = bits[n] := by
  obtain ⟨k, hk⟩ := hcap
  have hzero := zext_bcProd_of_cleared hc
  refine bufRead_pushBits_of_last hw (by omega) hn ?_ fun m hnm hm => ?_
  · rw [maskAddr_two_pow hk, maskAddr_two_pow hk, Nat.mod_eq_of_lt hj, hzero, Nat.zero_add, hnj]
  · rw [maskAddr_two_pow hk, maskAddr_two_pow hk, Nat.mod_eq_of_lt hj, hzero, Nat.zero_add]
    exact (hlast m hnm hm).symm

/-- R108: up to CAP bits stay where they were emitted. -/
theorem bufRead_cleared (hlen : bits.length ≤ zext s.cap) {j : Nat} (hj : j < bits.length) :
    bufRead (pushBits s bits) j = bits[j] := by
  have hword : zext s.cap < 2 ^ 32 := s.cap.isLt
  refine bufRead_cleared_of_last hw hc hcap (by omega) (by omega) hj (Nat.mod_eq_of_lt (by omega)) fun m hjm hm => ?_
  rw [Nat.mod_eq_of_lt (by omega)]
  omega

end Cleared

/-- R102: bit `31 - b` of word `k` is the bit at address `32k + b`. -/
theorem getLsbD_wordAt_sub (s : State) (k : Nat) {b : Nat} (hb : b < 32) :
    (wordAt s k).getLsbD (31 - b) = bufRead s (32 * k + b) := by
  have hlt : 31 - b < 32 := by omega
  have hinv : 31 - (31 - b) = b := by omega
  rw [getLsbD_wordAt, hinv, decide_eq_true hlt, Bool.true_and]

/-! The track data as a stream (R191). -/

/-- R186: the track-data byte of stream bit `j` is byte `j / 8 mod 4` of its word. -/
theorem trackAddr_eq (j : Nat) : trackAddr (j / 8) = wordOffset (j / 32) + j / 8 % 4 := by
  unfold trackAddr wordOffset
  omega

/-- The write of the track-data byte of a stream bit, and that bit of the byte. -/
theorem imageWrites_trackByte {s : State} {j : Nat} (hj : j < 32 * serializedWords s) :
    ∃ v : Byte, (trackAddr (j / 8), v) ∈ imageWrites s ∧
      v.getLsbD (j % 8) = if s.params.tailPolicy = .zeroPad ∧ zext s.bcProd ≤ j then false else bufRead s j := by
  have hindex : 32 * (j / 32) + 8 * (j / 8 % 4) + j % 8 = j := by omega
  have hwrite := getElem?_imageWrites_word (s := s) (i := j / 32) (j := j / 8 % 4) (by omega) (by omega)
  have hbit := getLsbD_dataByte s (j / 32) (zext s.bcProd) (j := j / 8 % 4) (m := j % 8) (by omega) (by omega)
  rw [hindex] at hbit
  rw [← trackAddr_eq] at hwrite
  exact ⟨_, List.mem_of_getElem? hwrite, hbit⟩

end Sys2Proof.Machine

namespace Sys2Proof

open Sys2Proof.Machine Sys2Proof.Safety

/-- Settles O49: within CAP no emission wraps, so each bit stays at its index and OVF stays clear. -/
theorem emittedBitsReadBack : Obligations.EmittedBitsReadBack := by
  intro s bits hw hc hcap hlen
  have ⟨_, hempty, hclear⟩ := hc
  have hzero := zext_bcProd_of_cleared hc
  have hword : zext s.cap < 2 ^ 32 := s.cap.isLt
  have hb : zext s.bcProd + bits.length < 2 ^ 64 := by omega
  have hcount : zext (pushBits s bits).bcProd = bits.length := by rw [zext_pushBits_bcProd hb, hzero, Nat.zero_add]
  refine ⟨hcount, ?_, fun t ht => ?_⟩
  · have hovf : OverflowInv (pushBits s bits) := overflowInv_pushBits (overflowInv_cleared hempty hclear) hb
    have hkeep : (pushBits s bits).cap = s.cap := by rw [pushBits_eq]
    rw [hovf, hcount, hkeep, decide_eq_false (by omega)]
  · rw [getLsbD_wordAt_sub _ _ (Nat.mod_lt t (by decide)), Nat.div_add_mod]
    exact bufRead_cleared hw hc hcap hlen ht

/-- Settles O50: an address is written at each index congruent to it, and holds the last of those bits. -/
theorem wrappedBufferHoldsLatestBits : Obligations.WrappedBufferHoldsLatestBits := by
  intro s bits j hw hc hcap hb hj
  exact ⟨bufRead_cleared_of_ne hw hc hcap hb hj, fun n hn => bufRead_cleared_of_last hw hc hcap hb hj hn⟩

/-- Settles O51: the byte that holds a stream bit is written, and the image's addresses rise, so it stays. -/
theorem trackBitPlacement : Obligations.TrackBitPlacement := by
  intro s h
  refine ⟨_, exec_of_val h.1 nofun (serializeBody_of_serializable h), fun j hj => ?_⟩
  obtain ⟨v, hmem, hbit⟩ := imageWrites_trackByte hj
  have hread : readSink (sinkStores _ (imageWrites s)).sink (trackAddr (j / 8)) = some v :=
    readSink_sinkStores_of_mem (s := { s with sinkAnswers := s.sinkAnswers.drop (imageWrites s).length })
      (rising_imageWrites s) hmem
  rw [← hbit]
  exact congrArg (Option.map _) hread

/-- Settles O52: the track data holds the buffer's bits, which up to CAP are the emitted ones. -/
theorem serializerRoundTrip : Obligations.SerializerRoundTrip := by
  intro s bits hw hc hcap hlen hser
  obtain ⟨t, ht, htrack⟩ := trackBitPlacement _ hser
  obtain ⟨hcount, -, -⟩ := emittedBitsReadBack s bits hw hc hcap hlen
  have hparams : (pushBits s bits).params = s.params := by rw [pushBits_eq]
  have hwords := serializedWords_eq (pushBits s bits)
  rw [hcount, hparams] at hwords
  refine ⟨t, ht, fun j hj hbound => ?_, fun hpad => ?_, fun htrunc => ?_⟩
  · rw [htrack j hbound, if_neg (by omega), bufRead_cleared hw hc hcap hlen hj]
  · rw [hpad, if_neg nofun] at hwords
    omega
  · rwa [if_pos htrunc] at hwords

end Sys2Proof

namespace Sys2Proof.Machine

open Sys2Proof Sys2Proof.Safety

/-! Pseudocode that reads and writes the state of a decode alone (R127). -/

/-- `o` with the state of the decode that runs in `s`: everything FEED and FINISH read or write. -/
def withDecode (o s : State) : State :=
  { o with
    params := s.params, mode := s.mode, fault := s.fault, cap := s.cap, buf := s.buf, bcProd := s.bcProd, ovf := s.ovf
    period := s.period, strat := s.strat, lidiv := s.lidiv, lediv := s.lediv, phase := s.phase, pe := s.pe }

/-- A piece of pseudocode's end with its state under `f`. -/
def Res.mapState {α : Type} (f : State → State) : Res α → Res α
  | .val a s => .val a (f s)
  | .raised k s => .raised k (f s)
  | .stuck e => .stuck e

/-- `f` does the same to a decode whatever the rest of the state is. -/
def DecodeOnly {α : Type} (f : State → Res α) : Prop := ∀ o s, f (withDecode o s) = (f s).mapState (withDecode o)

section DecodeOnly

variable {α β : Type}

theorem DecodeOnly.val (a : α) : DecodeOnly (.val a) := fun _ _ => rfl

theorem DecodeOnly.raised (k : ErrKind) : DecodeOnly (.raised k : State → Res α) := fun _ _ => rfl

theorem DecodeOnly.ite {c : State → Prop} [DecidablePred c] {f g : State → Res α}
    (hc : ∀ o s, c (withDecode o s) ↔ c s) (hf : DecodeOnly f) (hg : DecodeOnly g) :
    DecodeOnly fun s => if c s then f s else g s := by
  intro o s
  simp only [hc, hf o s, hg o s]
  split <;> rfl

theorem DecodeOnly.bind {f : State → Res α} {g : α → State → Res β} (hf : DecodeOnly f) (hg : ∀ a, DecodeOnly (g a)) :
    DecodeOnly fun s => (f s).bind g := by
  intro o s
  simp only [hf o s]
  cases f s with
  | val a t => exact hg a o t
  | raised k t => rfl
  | stuck e => rfl

theorem DecodeOnly.chk {v : State → Int} (hv : ∀ o s, v (withDecode o s) = v s) :
    DecodeOnly fun s => chk (v s) s := by
  refine .ite (c := fun s => fitsSigned s.params.wAcc (v s) = true) (fun o s => by rw [hv]; rfl) ?_ (.raised _)
  exact fun o s => congrArg (Res.val · (withDecode o s)) (hv o s)

end DecodeOnly

theorem emitBit_decodeOnly (v : Bool) : DecodeOnly (emitBit v) :=
  .ite (c := fun s => zext s.bcProd = 2 ^ 64 - 1) (fun _ _ => .rfl) (.raised _) fun _ _ => rfl

theorem emitBits_decodeOnly (bits : List Bool) : DecodeOnly (emitBits bits) := by
  induction bits with
  | nil => exact .val ()
  | cons v rest ih => exact (emitBit_decodeOnly v).bind fun _ => ih

theorem floorRun_decodeOnly (pe : Int) (fuel : Nat) (p : Int) : DecodeOnly (floorRun pe fuel p) := by
  induction fuel generalizing p with
  | zero => exact .val p
  | succ n ih => exact .ite (fun _ _ => .rfl) ((emitBit_decodeOnly false).bind fun _ => ih _) (.val p)

theorem centredRun_decodeOnly (pe : Int) (fuel : Nat) (p : Int) : DecodeOnly (centredRun pe fuel p) := by
  induction fuel generalizing p with
  | zero => exact .val p
  | succ n ih =>
    exact (DecodeOnly.chk fun _ _ => rfl).bind fun q =>
      .ite (fun _ _ => .rfl) (.val q) ((emitBit_decodeOnly false).bind fun _ => ih q)

/-- Step 3 emits its 1 and hands on the error. -/
theorem edge_decodeOnly {f : State → Res Int} (hf : DecodeOnly f) :
    DecodeOnly fun s => (f s).bind fun e t => (emitBit true t).bind fun _ u => .val e u :=
  hf.bind fun e => (emitBit_decodeOnly true).bind fun _ => .val e

theorem floorWindow_decodeOnly (dt : Nat) (p : Int) : DecodeOnly (floorWindow dt p) :=
  .ite (c := fun s => dt ≠ 0 ∧ s.pe ≤ 0 ∧ s.pe ≤ p) (fun _ _ => .rfl) (.raised _)
    (edge_decodeOnly (.ite (c := fun _ => dt = 0) (fun _ _ => .rfl) (.val p)
      fun o s => floorRun_decodeOnly s.pe _ p o s))

theorem centredWindow_decodeOnly (dt : Nat) (p : Int) : DecodeOnly (centredWindow dt p) :=
  .ite (c := fun s => dt ≠ 0 ∧ s.pe ≤ 0 ∧ s.pe ≤ 2 * (p - s.pe)) (fun _ _ => .rfl) (.raised _)
    (edge_decodeOnly (.ite (c := fun _ => dt = 0) (fun _ _ => .rfl) (.chk fun _ _ => rfl)
      fun o s => centredRun_decodeOnly s.pe _ p o s))

theorem phaseError_decodeOnly (dt : Nat) (p : Int) : DecodeOnly (phaseError dt p) := by
  intro o s
  cases hw : s.params.loopWindow with
  | floor =>
    rw [phaseError_of_floor hw, phaseError_of_floor (s := withDecode o s) hw]
    exact floorWindow_decodeOnly dt p o s
  | centred =>
    rw [phaseError_of_centred hw, phaseError_of_centred (s := withDecode o s) hw]
    exact centredWindow_decodeOnly dt p o s

theorem carriedPhase_decodeOnly (e q : Int) : DecodeOnly (carriedPhase e q) := by
  intro o s
  unfold carriedPhase
  have hparams : (withDecode o s).params = s.params := rfl
  rw [hparams]
  cases s.params.phaseCarry with
  | quotient => rfl
  | remainder => exact DecodeOnly.chk (v := fun _ => e - q) (fun _ _ => rfl) o s

theorem loopCorrect_decodeOnly (e : Int) : DecodeOnly (loopCorrect e) :=
  (DecodeOnly.chk (v := fun s => tdiv e (sext s.lediv)) fun _ _ => rfl).bind fun q =>
    (carriedPhase_decodeOnly e q).bind fun _ =>
      (DecodeOnly.chk (v := fun s => tdiv e (sext s.lidiv)) fun _ _ => rfl).bind fun c =>
        (DecodeOnly.chk (v := fun s => s.pe + c) fun _ _ => rfl).bind fun _ _ _ => rfl

theorem loopFeed_decodeOnly (dt : Nat) : DecodeOnly (loopFeed dt) :=
  (DecodeOnly.chk (v := fun s => s.phase + dt) fun _ _ => rfl).bind fun p =>
    (phaseError_decodeOnly dt p).bind loopCorrect_decodeOnly

theorem fixedWindowFeed_decodeOnly (dt : Nat) : DecodeOnly (fixedWindowFeed dt) :=
  fun o s => emitBits_decodeOnly _ o s

theorem feedBody_decodeOnly (dt : Half) : DecodeOnly (feedBody dt) := by
  refine .ite (c := fun s => s.mode ≠ .decoding) (fun _ _ => .rfl) (.raised _) fun o s => ?_
  have hfeed : DecodeOnly fun s => if s.strat = tagFw then fixedWindowFeed (zext dt) s else loopFeed (zext dt) s :=
    .ite (fun _ _ => .rfl) (fixedWindowFeed_decodeOnly _) (loopFeed_decodeOnly _)
  exact hfeed.bind (g := fun _ t => .val ((t.bcProd - s.bcProd).extractLsb' 0 32) t) (fun _ _ _ => rfl) o s

theorem finishBody_decodeOnly : DecodeOnly finishBody :=
  .ite (c := fun s => s.mode ≠ .decoding) (fun _ _ => .rfl) (.raised _) fun _ _ => rfl

/-! Runs of commands over a decode. -/

/-- `t` has the decode of `s`. -/
def SameDecode (s t : State) : Prop := t = withDecode t s

/-- In states of one decode such a command ends in states of one decode, with one RESULT outside the fault state. -/
theorem exec_sameDecode {i : Instr} {s t : State} (hi : i ≠ .reset) (hs : i ≠ .serialize) (hd : DecodeOnly (bodyOf i))
    (h : SameDecode s t) :
    ∃ s' t', exec i s = .next s' ∧ exec i t = .next t' ∧ SameDecode s' t' ∧ s'.result = t'.result := by
  have hbody : bodyOf i t = (bodyOf i s).mapState (withDecode t) := by
    rw [← hd t s, ← h]
  have hfault : t.fault = s.fault := by rw [h]; rfl
  cases hf : s.fault with
  | true =>
    refine ⟨_, _, exec_of_fault hf hi, exec_of_fault (hfault.trans hf) hi, ?_, rfl⟩
    rw [h]
    rfl
  | false =>
    have hends := bodyOf_ends s hs
    cases hb : bodyOf i s with
    | val r u =>
      rw [hb] at hbody
      exact ⟨_, _, exec_of_val hf hi hb, exec_of_val (hfault.trans hf) hi hbody, rfl, rfl⟩
    | raised k u =>
      rw [hb] at hbody
      exact ⟨_, _, exec_of_raised hf hi hb, exec_of_raised (hfault.trans hf) hi hbody, rfl, rfl⟩
    | stuck f =>
      rw [hb] at hends
      exact hends.elim

theorem runAll_cons_of_next {i : Instr} {is : List Instr} {s t : State} (h : exec i s = .next t) :
    runAll (i :: is) s = runAll is t := by
  rw [runAll, h]

theorem runAll_append (is js : List Instr) (s : State) : runAll (is ++ js) s = (runAll is s).bind (runAll js) := by
  induction is generalizing s with
  | nil => rfl
  | cons i is ih =>
    rw [List.cons_append, runAll, runAll]
    cases exec i s with
    | next t => exact ih t
    | fault f => rfl
    | refused r => rfl

/-- FEEDs in states of one decode end in states of one decode. -/
theorem runAll_feeds_sameDecode (dts : List Half) {s t : State} (h : SameDecode s t) :
    ∃ s' t', runAll (dts.map .feed) s = some s' ∧ runAll (dts.map .feed) t = some t' ∧ SameDecode s' t' := by
  induction dts generalizing s t with
  | nil => exact ⟨s, t, rfl, rfl, h⟩
  | cons dt rest ih =>
    obtain ⟨s₁, t₁, hs, ht, hsame, -⟩ := exec_sameDecode (i := .feed dt) nofun nofun (feedBody_decodeOnly dt) h
    rw [List.map_cons, runAll_cons_of_next hs, runAll_cons_of_next ht]
    exact ih hsame

/-- FEEDs and FINISH over one decode: both runs end, in states of one decode and with one RESULT. -/
theorem runAll_afterStart_sameDecode (dts : List Half) {s t : State} (h : SameDecode s t) :
    ∃ s' t', runAll (dts.map .feed ++ [.finish]) s = some s' ∧ runAll (dts.map .feed ++ [.finish]) t = some t' ∧
      SameDecode s' t' ∧ s'.result = t'.result ∧ (s'.fault = false → s'.mode = .decoded) := by
  obtain ⟨s₁, t₁, hs₁, ht₁, h₁⟩ := runAll_feeds_sameDecode dts h
  obtain ⟨s₂, t₂, hs₂, ht₂, hsame, hresult⟩ := exec_sameDecode (i := .finish) nofun nofun finishBody_decodeOnly h₁
  refine ⟨s₂, t₂, ?_, ?_, hsame, hresult, fun hf => ?_⟩
  · rw [runAll_append, hs₁, Option.bind_some, runAll_cons_of_next hs₂, runAll]
  · rw [runAll_append, ht₁, Option.bind_some, runAll_cons_of_next ht₂, runAll]
  · obtain ⟨hi, -⟩ | ⟨-, hfault, rfl⟩ | ⟨-, -, r, u, he, rfl⟩ | ⟨-, -, k, u, -, rfl⟩ := exec_next hs₂
    · cases hi
    · rw [refuse_fault, hfault] at hf
      cases hf
    · cases he
      rfl
    · cases hf

/-- In the fault state commands other than RESET are refused, and the fault state stays. -/
theorem runAll_of_fault {is : List Instr} {s : State} (hf : s.fault = true) (his : ∀ i ∈ is, i ≠ .reset) :
    ∃ t, runAll is s = some t ∧ t.fault = true := by
  induction is generalizing s with
  | nil => exact ⟨s, rfl, hf⟩
  | cons i is ih =>
    obtain ⟨hi, his⟩ := List.forall_mem_cons.mp his
    rw [runAll_cons_of_next (exec_of_fault hf hi)]
    exact ih (s := refuse s) hf his

/-! START from two states of one configuration (R127, R140). -/

theorem latchedDivisors_eq_of_sameConfiguration {s t : State} (h : SameConfiguration s t) :
    latchedDivisors s = latchedDivisors t := by
  obtain ⟨hparams, -, -, -, -, hidiv, hiv, hediv, hev, hstrat, -⟩ := h
  rw [latchedDivisors, latchedDivisors, hparams, hidiv, hiv, hediv, hev, hstrat]

theorem modes_of_legal_start {m : Mode} (h : legalMode .start m = true) : m ≠ .idle ∧ m ≠ .decoding := by
  revert h
  cases m <;> decide

/-- START raises in both states and changes neither, or begins one decode in both. -/
theorem exec_start_of_sameConfiguration {s t : State} (h : SameConfiguration s t) (hf : s.fault = false)
    (hs : legalMode .start s.mode = true) (ht : legalMode .start t.mode = true) :
    ∃ s' t', exec .start s = .next s' ∧ exec .start t = .next t' ∧
      ((s'.fault = true ∧ t'.fault = true) ∨ SameDecode s' t') := by
  obtain ⟨hsi, hsd⟩ := modes_of_legal_start hs
  obtain ⟨hti, htd⟩ := modes_of_legal_start ht
  have hlatch := latchedDivisors_eq_of_sameConfiguration h
  obtain ⟨hparams, hfault, hcap, hperiod, hrate, -, -, -, -, hstrat, hvalid⟩ := h
  have hft : t.fault = false := hfault ▸ hf
  by_cases hc : s.rateValid = false ∨ s.stratValid = false
  · have hraised : exec .start s = .next (takeError .configuration s) :=
      exec_of_raised hf nofun (startBody_of_unconfigured hsi hsd hc)
    rw [hrate, hvalid] at hc
    exact ⟨_, _, hraised, exec_of_raised hft nofun (startBody_of_unconfigured hti htd hc), .inl ⟨rfl, rfl⟩⟩
  · simp only [not_or, Bool.not_eq_false] at hc
    obtain ⟨hsr, hsv⟩ := hc
    have htr := hrate ▸ hsr
    have htv := hvalid ▸ hsv
    cases hl : latchedDivisors s with
    | none =>
      exact ⟨_, _, exec_of_raised hf nofun (startBody_of_no_divisors hsi hsd hsr hsv hl),
        exec_of_raised hft nofun (startBody_of_no_divisors hti htd htr htv (hlatch ▸ hl)), .inl ⟨rfl, rfl⟩⟩
    | some d =>
      refine ⟨_, _, exec_of_val hf nofun (startBody_of_divisors hsi hsd hsr hsv hl),
        exec_of_val hft nofun (startBody_of_divisors hti htd htr htv (hlatch ▸ hl)), .inr ?_⟩
      simp [SameDecode, withDecode, respond, clearBuffer, hparams, hfault, hcap, hperiod, hstrat]

end Sys2Proof.Machine

namespace Sys2Proof

open Sys2Proof.Machine Sys2Proof.Safety

/-- Settles O53: START raises in both states or begins one decode, over which FEED and FINISH do the same. -/
theorem decodeIsIndependent : Obligations.DecodeIsIndependent := by
  intro s₁ s₂ dts hconf hf hm₁ hm₂
  obtain ⟨u₁, u₂, hu₁, hu₂, ⟨hf₁, hf₂⟩ | hsame⟩ := exec_start_of_sameConfiguration hconf hf hm₁ hm₂ <;>
    rw [decodeCommands, List.cons_append, runAll_cons_of_next hu₁, runAll_cons_of_next hu₂]
  · have hcommands : ∀ i ∈ dts.map Instr.feed ++ [.finish], i ≠ .reset := by
      simp only [List.mem_append, List.mem_map, List.mem_singleton]
      rintro i (⟨dt, -, rfl⟩ | rfl) <;> exact nofun
    obtain ⟨t₁, ht₁, hfault₁⟩ := runAll_of_fault hf₁ hcommands
    obtain ⟨t₂, ht₂, hfault₂⟩ := runAll_of_fault hf₂ hcommands
    exact ⟨t₁, t₂, ht₁, ht₂, hfault₁.trans hfault₂.symm, by simp [hfault₁]⟩
  · obtain ⟨t₁, t₂, ht₁, ht₂, hsame, hresult, hdecoded⟩ := runAll_afterStart_sameDecode dts hsame
    refine ⟨t₁, t₂, ht₁, ht₂, ?_, fun hf => ?_⟩
    · rw [hsame]
      rfl
    · have hmode : t₂.mode = t₁.mode := by rw [hsame]; rfl
      refine ⟨hdecoded hf, hmode.trans (hdecoded hf), ?_, ?_, ?_, ?_, ?_, hresult⟩ <;> rw [hsame] <;> rfl

end Sys2Proof

namespace Sys2Proof.Machine

open Sys2Proof Sys2Proof.Safety

/-! An operand in its field (R73, R79). -/

/-- The number a field of R73 reads from its bits. -/
def fieldValue (f : OperandField) (v : BitVec f.width) : Int := if f.isSigned then sext v else zext v

theorem fits_dec_iff (f : OperandField) (n : Nat) :
    (AsmNum.dec n).fits f = true ↔ n < if f.isSigned then 2 ^ (f.width - 1) else 2 ^ f.width := by
  rw [AsmNum.fits]
  split <;> exact decide_eq_true_iff

theorem fits_signed_iff (f : OperandField) (neg : Bool) (n : Nat) :
    (AsmNum.signed neg n).fits f = true ↔
      f.isSigned ∧ if neg then n ≤ 2 ^ (f.width - 1) else n < 2 ^ (f.width - 1) := by
  cases neg <;> simp [AsmNum.fits]

theorem fits_hex_iff (f : OperandField) (n : Nat) : (AsmNum.hex n).fits f = true ↔ n < 2 ^ f.width :=
  decide_eq_true_iff

theorem zext_ofNat {w n : Nat} (h : n < 2 ^ w) : zext (BitVec.ofNat w n) = n := by
  rw [zext, BitVec.toNat_ofNat, Nat.mod_eq_of_lt h]

/-- R8: the signed reading of a bit pattern. -/
theorem sext_ofNat {w n : Nat} (hw : 0 < w) (h : n < 2 ^ w) :
    sext (BitVec.ofNat w n) = if 2 ^ (w - 1) ≤ n then (n : Int) - 2 ^ w else n := by
  have hpow : 2 ^ w = 2 * 2 ^ (w - 1) := by rw [← pow_succ', Nat.sub_add_cancel hw]
  have hnat := zext_ofNat h
  rw [zext] at hnat
  rw [sext, BitVec.toInt_eq_toNat_cond, hnat]
  push_cast
  split <;> split <;> omega

/-- R8: a signed number in the range of a field of `w` bits. -/
theorem sext_ofInt {w : Nat} {v : Int} (hw : 0 < w) (hlo : -2 ^ (w - 1) ≤ v) (hhi : v < 2 ^ (w - 1)) :
    sext (BitVec.ofInt w v) = v := by
  rw [sext, BitVec.toInt_ofInt_eq_self hw hlo hhi]

theorem fieldValue_dec {f : OperandField} (hw : 0 < f.width) {n : Nat}
    (h : n < if f.isSigned then 2 ^ (f.width - 1) else 2 ^ f.width) :
    fieldValue f (asmNumBits f.width (.dec n)) = n := by
  unfold fieldValue
  split at h
  · have hpow : 2 ^ f.width = 2 * 2 ^ (f.width - 1) := by rw [← pow_succ', Nat.sub_add_cancel hw]
    rw [if_pos ‹_›, asmNumBits, sext_ofNat hw (by omega), if_neg (by omega)]
  · rw [if_neg ‹_›, asmNumBits, zext_ofNat h]

theorem fieldValue_signed {f : OperandField} (hw : 0 < f.width) {neg : Bool} {n : Nat}
    (h : f.isSigned ∧ if neg then n ≤ 2 ^ (f.width - 1) else n < 2 ^ (f.width - 1)) :
    fieldValue f (asmNumBits f.width (.signed neg n)) = if neg then -(n : Int) else n := by
  obtain ⟨hs, hn⟩ := h
  have hpos : (0 : Int) < 2 ^ (f.width - 1) := by positivity
  rw [fieldValue, if_pos hs, asmNumBits]
  cases neg with
  | false =>
    have hn : (n : Int) < 2 ^ (f.width - 1) := by exact_mod_cast hn
    exact sext_ofInt hw (by simp; omega) (by simpa using hn)
  | true =>
    have hn : (n : Int) ≤ 2 ^ (f.width - 1) := by exact_mod_cast hn
    exact sext_ofInt hw (by simpa using hn) (by simp; omega)

theorem fieldValue_hex {f : OperandField} (hw : 0 < f.width) {n : Nat} (h : n < 2 ^ f.width) :
    fieldValue f (asmNumBits f.width (.hex n)) =
      if f.isSigned ∧ 2 ^ (f.width - 1) ≤ n then (n : Int) - 2 ^ f.width else n := by
  rw [fieldValue, asmNumBits]
  cases f.isSigned with
  | false => simp [zext_ofNat h]
  | true => simp [sext_ofNat hw h]

/-! The command of a line (R75, R79). -/

theorem mnemonicOf_commandOf (m : Mnemonic) (n : AsmNum) : mnemonicOf (commandOf m n) = m := by
  cases m <;> rfl

theorem field_width_pos {m : Mnemonic} {f : OperandField} (h : m.field = some f) : 0 < f.width := by
  cases m <;> cases h <;> decide

/-- A command's operand is what its field reads from the assembled bits. -/
theorem operandValue_commandOf {m : Mnemonic} {f : OperandField} (h : m.field = some f) (n : AsmNum) :
    operandValue (commandOf m n) = some (fieldValue f (asmNumBits f.width n)) := by
  cases m <;> cases h
  case emit =>
    have hbit (b : BitVec 1) : (b.getLsbD 0).toNat = zext b := by
      obtain rfl | rfl := BitVec.eq_zero_or_eq_one b <;> rfl
    exact congrArg (fun k : Nat => some (k : Int)) (hbit _)
  all_goals rfl

theorem operandValue_of_no_field {m : Mnemonic} (h : m.field = none) (n : AsmNum) :
    operandValue (commandOf m n) = none := by
  cases m <;> cases h <;> rfl

/-- A line of a mnemonic and its operand, which is assembled exactly if it fits and then has the value `v`. -/
theorem assembleLine_num {m : Mnemonic} {f : OperandField} {n : AsmNum} {c : Prop} [Decidable c] {v : Int}
    (hf : m.field = some f) (hc : n.fits f = true ↔ c) (hv : c → fieldValue f (asmNumBits f.width n) = v) :
    if c then AssemblesTo (.num m n) m (some v) else assembleLine (.num m n) = none := by
  have hwf : (AsmLine.num m n).wf = n.fits f := by rw [AsmLine.wf, hf, Option.any_some]
  split
  · refine ⟨commandOf m n, ?_, mnemonicOf_commandOf m n, ?_⟩
    · rw [assembleLine, hwf, if_pos (hc.mpr ‹_›), expandLine]
    · rw [operandValue_commandOf hf, hv ‹_›]
  · rw [assembleLine, hwf, if_neg (mt hc.mp ‹_›)]

theorem assembleLine_preset (n : Nat) :
    if 2 + n < 2 ^ 8 then AssemblesTo (.tag (.preset n)) .select (some (2 + n))
    else assembleLine (.tag (.preset n)) = none := by
  have hwf : (AsmLine.tag (.preset n)).wf = decide (n + 2 < 2 ^ 8) := rfl
  split
  · refine ⟨.select (BitVec.ofNat 8 (n + 2)), ?_, rfl, ?_⟩
    · rw [assembleLine, hwf, if_pos (by simp; omega)]
      rfl
    · rw [operandValue, zext_ofNat (by omega)]
      push_cast
      rw [add_comm]
  · rw [assembleLine, hwf, if_neg (by simp; omega)]

/-! Pseudo-instructions (R80). -/

theorem mapM_assembleLine (ls : List AsmLine) :
    ls.mapM assembleLine = if ls.all AsmLine.wf then some (ls.map expandLine) else none := by
  induction ls with
  | nil => rfl
  | cons l rest ih =>
    rw [List.mapM_cons, ih, assembleLine, List.all_cons]
    cases l.wf <;> cases rest.all AsmLine.wf <;> rfl

/-- A line with the errors and the commands of other lines assembles as those lines. -/
theorem assembleLine_eq_lines {l : AsmLine} {ls : List AsmLine} (hwf : l.wf = ls.all AsmLine.wf)
    (hexpand : expandLine l = (ls.map expandLine).flatten) :
    assembleLine l = (ls.mapM assembleLine).map List.flatten := by
  rw [mapM_assembleLine, assembleLine, hwf, hexpand]
  split <;> rfl

/-- Lines of one command each. -/
theorem flatten_map_singleton_num (m : Mnemonic) (ns : List AsmNum) :
    ((ns.map (AsmLine.num m)).map expandLine).flatten = ns.map (commandOf m) := by
  induction ns with
  | nil => rfl
  | cons n rest ih => rw [List.map_cons, List.map_cons, List.flatten_cons, ih]; rfl

theorem all_wf_map_num {m : Mnemonic} {f : OperandField} (hf : m.field = some f) (ns : List AsmNum) :
    (ns.map (AsmLine.num m)).all AsmLine.wf = ns.all (AsmNum.fits f) := by
  rw [List.all_map]
  congr 1
  funext n
  rw [Function.comp_apply, AsmLine.wf, hf, Option.any_some]

end Sys2Proof.Machine

namespace Sys2Proof

open Sys2Proof.Machine Sys2Proof.Safety

/-- Settles O58: what fits a field is read back from it as the number that was written. -/
theorem assemblerNeverTruncates : Obligations.AssemblerNeverTruncates := by
  refine ⟨fun m f hf => ?_, fun m hf => ⟨?_, fun n => ?_⟩, ⟨_, rfl, rfl, rfl⟩, ⟨_, rfl, rfl, rfl⟩, assembleLine_preset,
    fun n => rfl⟩
  · have hw := field_width_pos hf
    refine ⟨?_, fun n => assembleLine_num hf (fits_dec_iff f n) (fieldValue_dec hw),
      fun neg n => assembleLine_num hf (fits_signed_iff f neg n) (fieldValue_signed hw),
      fun n => assembleLine_num hf (fits_hex_iff f n) (fieldValue_hex hw)⟩
    rw [assembleLine, AsmLine.wf, hf]
    rfl
  · refine ⟨commandOf m (.dec 0), ?_, mnemonicOf_commandOf m _, operandValue_of_no_field hf _⟩
    rw [assembleLine, AsmLine.wf, hf]
    rfl
  · rw [assembleLine, AsmLine.wf, hf]
    rfl

/-- Settles O59: each pseudo-instruction has the checks and the commands of its lines. -/
theorem pseudoInstructionExpansions : Obligations.PseudoInstructionExpansions := by
  refine ⟨fun i e => assembleLine_eq_lines ?_ rfl, fun dts => assembleLine_eq_lines ?_ ?_,
    fun bits => assembleLine_eq_lines ?_ ?_, fun r t => assembleLine_eq_lines ?_ rfl⟩
  · simp [AsmLine.wf, Mnemonic.field, AsmTag.fits]
  · rw [List.all_append, List.all_cons, all_wf_map_num (f := ⟨16, false⟩) rfl]
    simp [AsmLine.wf, Mnemonic.field]
  · rw [List.map_append, List.flatten_append, List.map_cons, List.flatten_cons, flatten_map_singleton_num]
    rfl
  · rw [all_wf_map_num (f := ⟨1, false⟩) rfl, AsmLine.wf]
  · rw [flatten_map_singleton_num, expandLine]
  · simp [AsmLine.wf, Mnemonic.field]

end Sys2Proof
